-- ==== Sys2Proof/Word.lean ====
section
/-! DEFINITION. The word types of the 1-Wire master controller (00_scope.md rules R7, R8) and the position
numbering of the identifier's bits (10_state.md rule R23, 20_memory.md rule R72). -/

namespace Sys2Proof

/-- An 8-bit register, block register or I/O register (R7). Bit 0 is the least significant bit (R8). -/
abbrev Byte := BitVec 8

/-- A reference to one of the 256 I/O registers (R7 `REF_BITS`, R60). -/
abbrev Ref := BitVec 8

/-- The pin index, the same bit position in the three I/O registers (R28). -/
abbrev PinIndex := BitVec 3

/-- A command word `cw` (R110). -/
abbrev CommandWord := BitVec 32

/-- A response word `rw` (R110, R118). -/
abbrev ResponseWord := BitVec 16

/-- The Device ROM Identifier: eight bytes, `ROM_ID[0]` first (R21). -/
abbrev RomId := Vector Byte 8

/-- A position of the identifier. The spec counts `p` = 1..64 in bus order; the value stored here is `p - 1`
(R23, R72), so that byte and bit index are its quotient and remainder by 8. -/
abbrev Position := Fin 64

end Sys2Proof
end

