-- ==== Sys2Proof/Syntax.lean ====
section
/-! DEFINITION. The eleven host commands (30_encoding.md rule R114), one constructor per row of
spec/opcode_table.json, with their operands at the widths of rules R112 and R113; the pseudo-commands of rule R122
and the written form of rule R121. -/

namespace Sys2Proof

/-- A host command with its operands. Every operand has exactly the values its field admits, so every term is
encodable; which register numbers and values are refused is a matter of the meaning (R233). -/
inductive Instr where
  /-- `CONFIG ddr, port, pin, idx` (R145) -/
  | config (ddr port pin : Ref) (idx : PinIndex)
  /-- `WBIT bit` (R151) -/
  | wbit (bit : Bool)
  /-- `RBIT` (R153) -/
  | rbit
  /-- `PRES` (R171) -/
  | pres
  /-- `SENDB byte` (R182) -/
  | sendb (byte : Byte)
  /-- `RECVB` (R184) -/
  | recvb
  /-- `RDROM` (R191) -/
  | rdrom
  /-- `MATCHROM` (R193) -/
  | matchrom
  /-- `SRCHROM` (R200) -/
  | srchrom
  /-- `RDREG reg` (R221) -/
  | rdreg (reg : BitVec 4)
  /-- `WRREG reg, val` (R223) -/
  | wrreg (reg : BitVec 4) (val : Byte)
  deriving DecidableEq, Repr

/-- Pseudo-command `WBIT0` (R122). -/
def Instr.wbit0 : Instr := .wbit false

/-- Pseudo-command `WBIT1` (R122). -/
def Instr.wbit1 : Instr := .wbit true

/-- Pseudo-command `SRCHRST`: start an enumeration (R122, R209). -/
def Instr.srchrst : Instr := .wrreg 8 0

/-- Pseudo-command `LDROM b0, ..., b7`: eight `WRREG`, `ROM_ID0` first (R122). -/
def Instr.ldrom (id : RomId) : List Instr :=
  (List.finRange 8).map fun i => .wrreg (BitVec.ofNat 4 i.val) id[i]

/-- The eight commands that use the line, refused while `CONFIGURED = 0` (R30, R232). -/
def Instr.isBusCommand : Instr → Bool
  | .config _ _ _ _ => false
  | .wbit _ => true
  | .rbit => true
  | .pres => true
  | .sendb _ => true
  | .recvb => true
  | .rdrom => true
  | .matchrom => true
  | .srchrom => true
  | .rdreg _ => false
  | .wrreg _ _ => false

/-- The mnemonic of spec/opcode_table.json (R114). -/
def Instr.mnemonic : Instr → String
  | .config _ _ _ _ => "CONFIG"
  | .wbit _ => "WBIT"
  | .rbit => "RBIT"
  | .pres => "PRES"
  | .sendb _ => "SENDB"
  | .recvb => "RECVB"
  | .rdrom => "RDROM"
  | .matchrom => "MATCHROM"
  | .srchrom => "SRCHROM"
  | .rdreg _ => "RDREG"
  | .wrreg _ _ => "WRREG"

/-- The register names of rule R121 for the numbers of rule R40; number 0xF has no name and is written as a number. -/
def registerName (reg : BitVec 4) : String :=
  ["ROM_ID0", "ROM_ID1", "ROM_ID2", "ROM_ID3", "ROM_ID4", "ROM_ID5", "ROM_ID6", "ROM_ID7", "LASTDEV", "DDRREF",
   "PORTREF", "PINREF", "PINIDX", "MASK", "STATUS"].getD reg.toNat "15"

/-- A number operand in decimal (R121). -/
def numberText (n : Nat) : String := toString n

/-- A command in the written form of rule R121 (log entry 24): mnemonic, then the operands separated by commas, numbers in decimal. -/
def Instr.text : Instr → String
  | .config ddr port pin idx =>
    "CONFIG " ++ numberText ddr.toNat ++ ", " ++ numberText port.toNat ++ ", " ++ numberText pin.toNat ++ ", "
      ++ numberText idx.toNat
  | .wbit b => "WBIT " ++ numberText b.toNat
  | .sendb v => "SENDB " ++ numberText v.toNat
  | .rdreg r => "RDREG " ++ registerName r
  | .wrreg r v => "WRREG " ++ registerName r ++ ", " ++ numberText v.toNat
  | .rbit => "RBIT"
  | .pres => "PRES"
  | .recvb => "RECVB"
  | .rdrom => "RDROM"
  | .matchrom => "MATCHROM"
  | .srchrom => "SRCHROM"

end Sys2Proof
end

