-- ==== Sys2Proof/Decode.lean ====
section
/-! DEFINITION. The decoder, total on all 2^32 command words and rejecting by name (30_encoding.md rules R112 to R117),
and after it the encoder, written from the same formats. -/

namespace Sys2Proof

/-- What the decoder reads from a command word: a command, or the reason it is none (R115, R116). -/
inductive Decoded where
  | command (i : Instr)
  | reservedOpcode
  | reservedField
  deriving DecidableEq, Repr

/-- Field `cw[lo+len-1 : lo]` (R8, R112). -/
def field (lo len : Nat) (cw : CommandWord) : BitVec len := cw.extractLsb' lo len

/-- Is the "zero" field `cw[lo+len-1 : lo]` zero (R112)? -/
def zeroField (lo len : Nat) (cw : CommandWord) : Bool := field lo len cw == 0#len

/-- A command word with its "zero" fields checked (R116). -/
def checked (zero : Bool) (i : Instr) : Decoded := if zero then .command i else .reservedField

/-- The decoder: opcode in `cw[31:28]`, then the format's fields (R112, R114). The opcode is looked at before the zero
fields (R120). -/
def decode (cw : CommandWord) : Decoded :=
  let opcode := (field 28 4 cw).toNat
  if opcode = 0x1 then
    checked (zeroField 27 1 cw) (.config (field 16 8 cw) (field 8 8 cw) (field 0 8 cw) (field 24 3 cw))
  else if opcode = 0x2 then checked (zeroField 1 27 cw) (.wbit (field 0 1 cw == 1#1))
  else if opcode = 0x3 then checked (zeroField 0 28 cw) .rbit
  else if opcode = 0x4 then checked (zeroField 0 28 cw) .pres
  else if opcode = 0x5 then checked (zeroField 8 20 cw) (.sendb (field 0 8 cw))
  else if opcode = 0x6 then checked (zeroField 0 28 cw) .recvb
  else if opcode = 0x7 then checked (zeroField 0 28 cw) .rdrom
  else if opcode = 0x8 then checked (zeroField 0 28 cw) .matchrom
  else if opcode = 0x9 then checked (zeroField 0 28 cw) .srchrom
  else if opcode = 0xA then
    checked (zeroField 12 16 cw && zeroField 0 8 cw) (.rdreg (field 8 4 cw))
  else if opcode = 0xB then checked (zeroField 12 16 cw) (.wrreg (field 8 4 cw) (field 0 8 cw))
  else .reservedOpcode

/-- The encoder: the word of a command, field by field from bit 31 down (R112, R121). -/
def encode : Instr → CommandWord
  | .config ddr port pin idx => 0x1#4 ++ 0#1 ++ idx ++ ddr ++ port ++ pin
  | .wbit bit => 0x2#4 ++ 0#27 ++ BitVec.ofBool bit
  | .rbit => 0x3#4 ++ 0#28
  | .pres => 0x4#4 ++ 0#28
  | .sendb byte => 0x5#4 ++ 0#20 ++ byte
  | .recvb => 0x6#4 ++ 0#28
  | .rdrom => 0x7#4 ++ 0#28
  | .matchrom => 0x8#4 ++ 0#28
  | .srchrom => 0x9#4 ++ 0#28
  | .rdreg reg => 0xA#4 ++ 0#16 ++ reg ++ 0#8
  | .wrreg reg val => 0xB#4 ++ 0#16 ++ reg ++ val

/-- The command of a decoded word, if it is one. -/
def Decoded.instr? : Decoded → Option Instr
  | .command i => some i
  | .reservedOpcode => none
  | .reservedField => none

/-- The command word of the host's table word: the low `nbits` bits of `w`, every bit above them 0. A command word is
transferred whole (R73, R110), so there is no byte order to lay out. -/
def tableWord (nbits w : Nat) : CommandWord := BitVec.ofNat 32 (w % 2 ^ nbits)

/-- The command the decoder reads from a table word; none where it refuses the word. -/
def decodeTableWord (nbits w : Nat) : Option Instr := (decode (tableWord nbits w)).instr?

end Sys2Proof
end

