-- ==== Sys2Proof/Config.lean ====
section
/-! DEFINITION. What an implementation fixes: the ten timing parameters (00_scope.md rule R6), the delay timebase (R7,
60_exceptions.md rule R250), the ROM command bytes and deviation sentinels (R7, R119), and the free values, which have
no body: the levels an unconstrained environment answers (20_memory.md rule R85) and the register values a hardware reset
draws (10_state.md rule R45). -/

namespace Sys2Proof

/-! ## Timing parameters, microseconds (R6). They are labels of `Wait` events and decide no value. -/

/-- The ten timing parameters, each with the document's figure as its default (R6). A machine has one set of them, which
no step changes (00_scope.md rule R13). -/
structure Timing where
  /-- `T_SLOT_LOW`: initial low of every write slot and every read slot -/
  tSlotLow : Nat := 6
  /-- `T_W1_REL`: released time that completes a write-1 slot -/
  tW1Rel : Nat := 64
  /-- `T_W0_HOLD`: further low hold of a write-0 slot; 54 for the other reading of 90_conflicts.md C4 -/
  tW0Hold : Nat := 60
  /-- `T_W0_REL`: released time that completes a write-0 slot -/
  tW0Rel : Nat := 10
  /-- `T_R_SAMPLE`: released time before the sample of a read slot -/
  tRSample : Nat := 9
  /-- `T_R_REST`: released time after the sample of a read slot -/
  tRRest : Nat := 55
  /-- `T_RST_LOW`: reset pulse low time -/
  tRstLow : Nat := 480
  /-- `T_PD_WAIT`: released time before the presence sample -/
  tPdWait : Nat := 70
  /-- `T_RST_REST`: released time after the presence sample -/
  tRstRest : Nat := 410
  /-- `T_SETTLE`: settle wait of `CONFIG` -/
  tSettle : Nat := 480
  deriving DecidableEq, Repr

/-- Every parameter at its default (R6). -/
def Timing.default : Timing := {}

/-- The parameters are positive (92_eei_decisions.md, the table of open parameters). -/
abbrev Timing.legal (t : Timing) : Prop :=
  0 < t.tSlotLow ∧ 0 < t.tW1Rel ∧ 0 < t.tW0Hold ∧ 0 < t.tW0Rel ∧ 0 < t.tRSample ∧ 0 < t.tRRest ∧ 0 < t.tRstLow ∧
    0 < t.tPdWait ∧ 0 < t.tRstRest ∧ 0 < t.tSettle

/-- `F_TICK`, the frequency of the delay timebase in hertz: an open parameter of the spec (R7, R250, D18), so it has
no value here. -/
opaque Config.fTick : Nat

/-- `n * F_TICK / 1 MHz`, the ticks of the delay timebase that `Wait(n)` counts (R250). The spec does not say what is
counted when the quotient is no whole number; this is the exact quotient, rounded neither up nor down (DESIGN CHOICE, log
entry 18). The counter is not visible (R251), and no state depends on it. -/
def Config.waitTicks (n : Nat) : Rat := n * Config.fTick / 1000000

/-! ## Protocol constants -/

/-- `DEV_NONE` (R7, R24). -/
def Config.devNone : Byte := 0x00#8
/-- `DEV_NODEVICE`, the all-ones value, only ever returned (R7, R24, R203). -/
def Config.devNoDevice : Byte := 0xFF#8
/-- The largest legal value of `LASTDEV` (R24, R40). -/
def Config.devMax : Byte := 0x40#8
/-- READ ROM command byte (R119). -/
def Config.readRomByte : Byte := 0x33#8
/-- MATCH ROM command byte (R119). -/
def Config.matchRomByte : Byte := 0x55#8
/-- SEARCH ROM command byte (R119). -/
def Config.searchRomByte : Byte := 0xF0#8

/-! ## Free values. None has a body: no proof can see one, and a statement is true whatever they are. -/

/-- The level an unconstrained environment answers at the `n`-th free draw (R85: any bit at every sample). -/
opaque Config.freeLevel : Nat → Bool
/-- `ROM_ID` after the hardware reset that makes free draw `n` (R45: unspecified). -/
opaque Config.resetRomId : Nat → RomId
/-- `LASTDEV` after such a reset: unspecified within 0..64 (R45). -/
opaque Config.resetLastDev : Nat → Fin 65
/-- `DDRREF` after such a reset (R45: unspecified). -/
opaque Config.resetDdrRef : Nat → Ref
/-- `PORTREF` after such a reset (R45: unspecified). -/
opaque Config.resetPortRef : Nat → Ref
/-- `PINREF` after such a reset (R45: unspecified). -/
opaque Config.resetPinRef : Nat → Ref
/-- `PINIDX` after such a reset: unspecified within 0..7 (R45). -/
opaque Config.resetPinIdx : Nat → PinIndex

end Sys2Proof
end

