-- ==== Sys2Proof/Machine/Bits.lean ====
section
/-! DEFINITION. The bit operations of the pseudocode (00_scope.md rule R8): one bit of a byte, the bits of the
identifier by position (10_state.md rule R23), and its structured view (rule R22). -/

namespace Sys2Proof

/-- `v[k] <- b`: bit `k` of a byte replaced, the other seven unchanged (R8). -/
def withBit (v : Byte) (k : Nat) (b : Bool) : Byte :=
  if b then v ||| (1#8 <<< k) else v &&& ~~~(1#8 <<< k)

/-- The position as the number 1..64 the spec gives it, at the width of `LASTDEV` (R72, R200: comparisons are
unsigned 8-bit). -/
def Position.number (p : Position) : Byte := BitVec.ofNat 8 (p.val + 1)

/-- The byte of the identifier that holds a position: `(p-1) div 8` (R23). -/
def Position.byte (p : Position) : Fin 8 := ⟨p.val / 8, by omega⟩

/-- The bit of that byte: `(p-1) mod 8` (R23). -/
def Position.bit (p : Position) : Fin 8 := ⟨p.val % 8, by omega⟩

/-- `IdBit(p)` (R23). -/
def idBit (id : RomId) (p : Position) : Bool := (id[p.byte]).getLsbD p.bit.val

/-- `IdBit(p) <- b`, the other 63 bits unchanged (R23). -/
def withIdBit (id : RomId) (p : Position) (b : Bool) : RomId :=
  id.set p.byte (withBit id[p.byte] p.bit.val b)

/-- The identifier bits in bus order: position 1 first (R71, R72). -/
def idBits (id : RomId) : List Bool := (List.finRange 64).map (idBit id)

/-- The bits of a byte in bus order: bit 0 first (R70). -/
def byteBits (v : Byte) : List Bool := (List.finRange 8).map fun k => v.getLsbD k.val

/-- `family_code(id)` (R22, R222). -/
def familyCode (id : RomId) : Byte := id[0]

/-- `serial(id)`: the six bytes in index order (R22, R222). -/
def serialNumber (id : RomId) : Vector Byte 6 := Vector.ofFn fun j => id[j.val + 1]

/-- `crc(id)`: plain data, never computed or checked (R22, R222). -/
def crcByte (id : RomId) : Byte := id[7]

end Sys2Proof
end

