-- ==== Sys2Proof/Machine/State.lean ====
section
/-! DEFINITION. The state of the machine as plain data (10_state.md rules R20 to R45): the controller whose command
port the host is using, the other controllers of the platform (60_exceptions.md rule R253), what they share with the
host (`GIE`, the I/O space), the environments on the far side of the pins (20_memory.md rules R85 to R99), and the inputs
the host has yet to make. -/

namespace Sys2Proof.Machine

/-- The event trace's events (R80). Ghost state: the hardware does not hold it (R38). -/
inductive Event where
  /-- entry of a primitive: `GIE` was read as `s` and cleared -/
  | irqSave (s : Bool)
  /-- the master starts pulling the line low -/
  | low
  /-- `n` microseconds pass -/
  | wait (n : Nat)
  /-- the master stops pulling -/
  | rel
  /-- the master read level `v` -/
  | samp (v : Bool)
  /-- exit of a primitive: `GIE` was written with `s` -/
  | irqRestore (s : Bool)
  deriving DecidableEq, Repr

/-- The state of one slave of the reference environment (R90). -/
inductive DeviceState where
  /-- takes no part until the next reset slot -/
  | idle
  /-- has received `k` bits of a ROM command byte, assembled least significant bit first in `acc` -/
  | cmd (k : Fin 8) (acc : Byte)
  /-- will transmit bit `p` in the next slot -/
  | readRom (p : Position)
  /-- will receive the master's bit for position `p` in the next slot -/
  | matching (p : Position)
  /-- will transmit bit `p`, the true bit, in the next slot -/
  | searchA (p : Position)
  /-- will transmit the complement of bit `p` in the next slot -/
  | searchB (p : Position)
  /-- will receive the master's chosen bit for position `p` in the next slot -/
  | searchW (p : Position)
  /-- has been addressed; silent until the next reset slot -/
  | selected
  deriving DecidableEq, Repr

/-- A slave of the reference environment: its identifier and its state (R90). -/
structure Device where
  rom : RomId
  st : DeviceState
  deriving DecidableEq, Repr

/-- What is on the far side of the pin: it answers every sample with one bit (R85). -/
inductive Environment where
  /-- the listed levels in order; when they are used up every further answer is a free value (R85) -/
  | answers (levels : List Bool)
  /-- a line stuck at one level: 1 for an open wire, 0 for a short (R86) -/
  | stuck (level : Bool)
  /-- the reference environment `Bus(devs)`, a test harness (R90 to R99) -/
  | bus (devs : List Device)
  deriving DecidableEq, Repr

/-- A pin of the host, by the three registers of its port and its bit in them (R25 to R28). -/
structure Pin where
  ddrRef : Ref
  portRef : Ref
  pinRef : Ref
  pinIdx : PinIndex
  deriving DecidableEq, Repr

/-- A pin that the platform has, one port's direction, output and sense register (R60), and what is on its far side. -/
structure Line where
  pin : Pin
  env : Environment
  deriving DecidableEq, Repr

/-- What the outside world puts on the far side of a pin (R85, R86, R90). -/
inductive FarSide where
  /-- these levels in order, then any (R85) -/
  | answers (levels : List Bool)
  /-- a line stuck at one level (R86) -/
  | stuck (level : Bool)
  /-- the devices with these identifiers (R90) -/
  | population (ids : List RomId)
  deriving DecidableEq, Repr

/-- The sequencer: hidden, live only inside a command (R35). `op = none` is idle. -/
structure Sequencer where
  op : Option Instr
  /-- identifier position, in `SRCHROM` -/
  p : Position
  /-- byte index, in `RDROM` and `MATCHROM` -/
  i : Fin 8
  /-- bit index in a byte -/
  k : Fin 8
  /-- byte being assembled or shifted out -/
  acc : Byte
  /-- first bit read at a position of `SRCHROM` -/
  a : Bool
  /-- second bit read at a position of `SRCHROM` -/
  b : Bool
  /-- deviation recorded so far in this pass -/
  newDev : Byte
  deriving DecidableEq, Repr

/-- The idle sequencer. Its other fields are dead between commands (R35). -/
def Sequencer.idle : Sequencer := ⟨none, 0, 0, 0, 0#8, false, false, 0#8⟩

/-- All the state of one controller (R20), with its contribution to the line and its trace. -/
structure Controller where
  /-- `ROM_ID[0..7]` (R21) -/
  romId : RomId
  /-- `LASTDEV` (R24) -/
  lastDev : Byte
  /-- `DDRREF` (R25) -/
  ddrRef : Ref
  /-- `PORTREF` (R26) -/
  portRef : Ref
  /-- `PINREF` (R27) -/
  pinRef : Ref
  /-- `PINIDX` (R28); `MASK` has no storage of its own (R29) -/
  pinIdx : PinIndex
  /-- `CONFIGURED` (R30) -/
  configured : Bool
  /-- `SAVED_IE`, dead outside a primitive (R34) -/
  savedIe : Bool
  /-- the sequencer (R35) -/
  seq : Sequencer
  /-- the master pulls the line low: its contribution to the level is 0 (R65) -/
  pulling : Bool
  /-- the event trace, oldest first (R38, R80) -/
  trace : List Event
  deriving DecidableEq, Repr

/-- The I/O space as a list of (reference, byte) pairs, references strictly rising, no byte equal to what an unlisted
register reads as (R37, R60). -/
abbrev Memory := List Host.Cell

/-- One write the host makes to an I/O register. -/
structure IoWrite where
  ref : Ref
  value : Byte
  deriving DecidableEq, Repr

/-- What the outside world does between commands, in order: the host's moves (R12, R33, R110, R253), a hardware reset of
the block (R260), a change of what is on the line (R211). -/
inductive Input where
  /-- the host issues a command word (R110) -/
  | issue (cw : CommandWord)
  /-- the host sets or clears `GIE` while the block is idle (R33) -/
  | setGie (on : Bool)
  /-- host software writes an I/O register, leaving the bound bits alone (R278) -/
  | ioWrite (w : IoWrite)
  /-- the host turns to the command port of the `n`-th of the other controllers (R253) -/
  | select (n : Nat)
  /-- what is on the far side of a pin changes (R85, R211) -/
  | environment (p : Pin) (f : FarSide)
  /-- hardware reset of the block (R45, R260) -/
  | hardReset
  deriving DecidableEq, Repr

/-- The whole machine. -/
structure State where
  /-- the controller whose command port the host is using -/
  ctl : Controller
  /-- the other `N_BUS - 1` controllers (R7, R253) -/
  parked : List Controller
  /-- `GIE`, the host's global interrupt enable (R33) -/
  gie : Bool
  /-- the I/O space `io` (R37) -/
  io : Memory
  /-- a parameter, which no step changes: the timing parameters (R6, R13; log entry 26) -/
  timing : Timing
  /-- the pins of the platform that have something particular on their far side, by rising pin; on a pin that is not
  listed, and on references that are no pin's, the line is unconstrained (R85, R146) -/
  lines : List Line
  /-- the last response word given to the host; none before the first (R110, R118) -/
  rw : Option ResponseWord
  /-- the model's own: what the outside world will do next, in order -/
  inbox : List Input
  /-- the model's own: what the host's interrupt handlers do in the windows of rule R241, one entry per window -/
  handlers : List (List IoWrite)
  /-- the model's own: how many free values have been drawn -/
  draws : Nat
  deriving DecidableEq, Repr

/-- A step can stop with a fault for no reason at all: "Nothing in this hardware is treated as fault or stuck"
(93_implementation_defined.md; 60_exceptions.md rules R230, R237). The type has no constructor, so that a claim about a
step has no fault case. -/
inductive Fault where
  deriving DecidableEq, Repr

/-- Why the model gives an instruction no meaning. The block's own refusals (R231) are no case of this: they answer the
host with a status code and are next states. -/
inductive Refusal where
  /-- raised only by an arm of `exec` that has no meaning yet; no arm raises it now. Safe: the model stops where the
  hardware goes on. -/
  | notModelled (mnemonic : String)
  deriving DecidableEq, Repr

/-- A controller right after hardware reset (R45): `CONFIGURED = 0`, idle, trace empty, line not driven. The registers
R45 leaves unspecified are zero here (DESIGN CHOICE, log entry 1), the dead latch too (log entry 2). -/
def Controller.reset : Controller where
  romId := Vector.replicate 8 0#8
  lastDev := 0#8
  ddrRef := 0#8
  portRef := 0#8
  pinRef := 0#8
  pinIdx := 0#3
  configured := false
  savedIe := false
  seq := Sequencer.idle
  pulling := false
  trace := []

/-- The machine right after reset: one controller in its reset state, no I/O register listed, no input waiting, the
timing parameters at their defaults, nothing particular on any pin (log entry 5). `GIE` and the I/O space are the host's
and the platform's (R45); their values here are log entries 3 and 4. -/
def State.reset : State where
  ctl := Controller.reset
  parked := []
  gie := false
  io := []
  timing := Timing.default
  lines := []
  rw := none
  inbox := []
  handlers := []
  draws := 0

end Sys2Proof.Machine
end

