-- ==== Sys2Proof/Machine/Environment.lean ====
section
/-! DEFINITION. The far side of the pin (20_memory.md rules R65, R85 to R99): what the environment answers to a sample,
and how the slaves of the reference environment `Bus(devs)` move at each slot; with the slots of rule R81. -/

namespace Sys2Proof.Machine

/-! ## Slots (R81) -/

/-- A slot as the reference environment sees it, before its sample is known. -/
inductive SlotKind where
  | write (b : Bool)
  | read
  | reset
  deriving DecidableEq, Repr

/-- A slot of the trace (R81). -/
inductive Slot where
  | write (b : Bool)
  | read (v : Bool)
  | reset (v : Bool)
  deriving DecidableEq, Repr

/-- The trace segment of a slot between `IrqSave` and `IrqRestore` (R81). -/
def Slot.body (tm : Timing) : Slot → List Event
  | .write true => [.low, .wait tm.tSlotLow, .rel, .wait tm.tW1Rel]
  | .write false => [.low, .wait tm.tSlotLow, .wait tm.tW0Hold, .rel, .wait tm.tW0Rel]
  | .read v => [.low, .wait tm.tSlotLow, .rel, .wait tm.tRSample, .samp v, .wait tm.tRRest]
  | .reset v => [.low, .wait tm.tRstLow, .rel, .wait tm.tPdWait, .samp v, .wait tm.tRstRest]

/-- The whole trace segment of a slot when `GIE` was `ie` at its entry (R81, R141, R142). -/
def Slot.segment (tm : Timing) (ie : Bool) (sl : Slot) : List Event :=
  .irqSave ie :: (sl.body tm ++ [.irqRestore ie])

/-- The trace of a run of slots. -/
def segments (tm : Timing) (ie : Bool) (sls : List Slot) : List Event := sls.flatMap (Slot.segment tm ie)

/-- The write slots of a byte, least significant bit first (R70). -/
def byteWriteSlots (v : Byte) : List Slot := (byteBits v).map .write

/-- The read slots whose samples assemble a byte, least significant bit first (R70). -/
def byteReadSlots (v : Byte) : List Slot := (byteBits v).map .read

/-! ## The slaves of the reference environment (R90 to R99) -/

/-- What a device contributes to the line in a write or read slot (R92, R98). -/
def Device.contribution (d : Device) : Bool :=
  match d.st with
  | .readRom p => idBit d.rom p
  | .searchA p => idBit d.rom p
  | .searchB p => !(idBit d.rom p)
  | .idle => true
  | .cmd _ _ => true
  | .matching _ => true
  | .searchW _ => true
  | .selected => true

/-- The level of the line in a slot: master and devices, wired AND (R65, R92). -/
def busLevel (master : Bool) (devs : List Device) : Bool := master && devs.all Device.contribution

/-- The state that follows a transmitted or matched position: the next position, or the last one's end (R93, R96,
R97). -/
def nextPosition (next : Position → DeviceState) (p : Position) : DeviceState :=
  if h : p.val + 1 < 64 then next ⟨p.val + 1, h⟩ else .selected

/-- A complete ROM command byte decoded by a slave (R95). -/
def decodeRomCommand (byte : Byte) : DeviceState :=
  if byte = Config.readRomByte then .readRom 0
  else if byte = Config.matchRomByte then .matching 0
  else if byte = Config.searchRomByte then .searchA 0
  else .idle

/-- A device's state after a write or read slot whose level was `level` (R93 to R98). -/
def Device.advance (level : Bool) (d : Device) : Device :=
  { d with
    st := match d.st with
      | .idle => .idle
      | .selected => .selected
      | .readRom p => nextPosition .readRom p
      | .searchA p => .searchB p
      | .searchB p => .searchW p
      | .cmd k acc =>
        let acc' := withBit acc k.val level
        if h : k.val + 1 < 8 then .cmd ⟨k.val + 1, h⟩ acc' else decodeRomCommand acc'
      | .matching p => if level = idBit d.rom p then nextPosition .matching p else .idle
      | .searchW p => if level = idBit d.rom p then nextPosition .searchA p else .idle }

/-- A device after a reset slot (R91). -/
def Device.reset (d : Device) : Device := { d with st := .cmd 0 0#8 }

/-- The devices of a bus after a slot (R91 to R98). -/
def busAfter (slot : SlotKind) (devs : List Device) : List Device :=
  match slot with
  | .write b => devs.map (Device.advance (busLevel b devs))
  | .read => devs.map (Device.advance (busLevel true devs))
  | .reset => devs.map Device.reset

/-- The slaves' contribution to the line at the sample of a slot: in a reset slot every device pulls low (R91), in a
read slot each transmits its bit (R92). -/
def busAnswer (slot : SlotKind) (devs : List Device) : Bool :=
  match slot with
  | .write _ => devs.all Device.contribution
  | .read => devs.all Device.contribution
  | .reset => devs.isEmpty

/-- The environment's answer to a sample in a slot, `n` numbering the free values (R85, R86, R91, R92). -/
def Environment.level (slot : SlotKind) (n : Nat) (e : Environment) : Bool :=
  match e with
  | .answers (v :: _) => v
  | .answers [] => Config.freeLevel n
  | .stuck v => v
  | .bus devs => busAnswer slot devs

/-- The environment once it has answered a sample. -/
def Environment.afterSample (e : Environment) : Environment :=
  match e with
  | .answers (_ :: rest) => .answers rest
  | .answers [] => .answers []
  | .stuck v => .stuck v
  | .bus devs => .bus devs

/-- The environment at the end of a slot: the reference environment works at slot granularity (R90 to R98). -/
def Environment.afterSlot (slot : SlotKind) (e : Environment) : Environment :=
  match e with
  | .answers levels => .answers levels
  | .stuck v => .stuck v
  | .bus devs => .bus (busAfter slot devs)

/-! ## The lines of the platform (R60, R85, R146) -/

/-- The pin a controller's registers name. -/
def Controller.pin (c : Controller) : Pin := ⟨c.ddrRef, c.portRef, c.pinRef, c.pinIdx⟩

/-- The three registers of a port are three registers (R146). -/
def Pin.proper (p : Pin) : Bool := p.ddrRef != p.portRef && p.ddrRef != p.pinRef && p.portRef != p.pinRef

/-- The place of a pin in the list of lines: its four numbers, one after the other. -/
def Pin.key (p : Pin) : Nat :=
  ((p.ddrRef.toNat * 256 + p.portRef.toNat) * 256 + p.pinRef.toNat) * 8 + p.pinIdx.toNat

/-- What is on the far side of a pin; nothing particular where the list does not name it (R85). -/
def linesAt (p : Pin) : List Line → Environment
  | [] => .answers []
  | l :: rest => if l.pin = p then l.env else linesAt p rest

/-- The lines without this pin. -/
def linesErase (p : Pin) (ls : List Line) : List Line := ls.filter fun l => l.pin != p

/-- A line put into its place among lines that do not list its pin. -/
def linesInsert (l : Line) : List Line → List Line
  | [] => [l]
  | m :: rest => if l.pin.key < m.pin.key then l :: m :: rest else m :: linesInsert l rest

/-- What is on the far side of a pin, replaced. The unconstrained environment is not listed. -/
def linesPut (p : Pin) (e : Environment) (ls : List Line) : List Line :=
  if e = .answers [] then linesErase p ls else linesInsert ⟨p, e⟩ (linesErase p ls)

/-- Does a controller bound to `p` move a register bit of another pin `q`? Between the pins of one platform that can be
only where its references are not one port's (R146). -/
def Pin.touches (p q : Pin) : Bool :=
  q != p && q.pinIdx == p.pinIdx &&
    [q.ddrRef, q.portRef, q.pinRef].any fun r => r == p.ddrRef || r == p.portRef

/-- The lines whose bits a controller bound to `p` moves are unspecified from then on: any value (R146, U9; DESIGN
CHOICE of form, log entry 11). -/
def linesDisturb (p : Pin) (ls : List Line) : List Line := ls.filter fun l => !p.touches l.pin

/-- What is on the far side of the pin the controller in use is bound to. Where its references are not three registers,
or not those of a pin with something particular on it, the line is unspecified: any value (R146, U9; DESIGN CHOICE of
form, log entry 11). -/
def State.farSide (s : State) : Environment :=
  if s.ctl.pin.proper then linesAt s.ctl.pin s.lines else .answers []

/-- The environment of that pin moves. -/
def setEnv (e : Environment) (s : State) : State :=
  if s.ctl.pin.proper then { s with lines := linesPut s.ctl.pin e s.lines } else s

/-- The identifiers of the devices an environment has (R13, R90). -/
def Environment.population : Environment → List RomId
  | .answers _ => []
  | .stuck _ => []
  | .bus devs => devs.map Device.rom

/-- The state in which a device with this identifier stands in an environment; `Idle` where it is new (R90). -/
def Environment.stateOf (id : RomId) : Environment → DeviceState
  | .answers _ => .idle
  | .stuck _ => .idle
  | .bus devs =>
    match devs.find? (·.rom = id) with
    | some d => d.st
    | none => .idle

/-- What is put on a line becomes its environment: a device that was there already keeps its state (DESIGN CHOICE,
log entry 16), a new one starts in `Idle` (R90, R211). -/
def FarSide.attach (f : FarSide) (old : Environment) : Environment :=
  match f with
  | .answers levels => .answers levels
  | .stuck v => .stuck v
  | .population ids => .bus (ids.map fun id => ⟨id, old.stateOf id⟩)

/-- The identifiers of a population are pairwise distinct (R90). -/
def FarSide.legal : FarSide → Bool
  | .answers _ => true
  | .stuck _ => true
  | .population ids => decide ids.Nodup

/-! ## An environment along a run of slots -/

/-- The environment after one slot: it answers the slot's sample, if there is one, and then its slaves move. -/
def Environment.next (e : Environment) (sl : Slot) : Environment :=
  match sl with
  | .write b => e.afterSlot (.write b)
  | .read _ => e.afterSample.afterSlot .read
  | .reset _ => e.afterSample.afterSlot .reset

/-- The environment after a run of slots. -/
def Environment.run (e : Environment) (sls : List Slot) : Environment := sls.foldl Environment.next e

/-- Every sample in a run of slots is this environment's answer, `n` numbering the free values (R68, R85). -/
def Environment.Answers (e : Environment) (n : Nat) : List Slot → Prop
  | [] => True
  | .write b :: rest => (e.next (.write b)).Answers n rest
  | .read v :: rest => v = e.level .read n ∧ (e.next (.read v)).Answers (n + 1) rest
  | .reset v :: rest => v = e.level .reset n ∧ (e.next (.reset v)).Answers (n + 1) rest

/-- How many samples a run of slots takes. -/
def sampleCount (sls : List Slot) : Nat :=
  sls.countP fun sl =>
    match sl with
    | .write _ => false
    | .read _ => true
    | .reset _ => true

end Sys2Proof.Machine
end

