-- ==== Sys2Proof/Machine/Update.lean ====
section
/-! DEFINITION. The assignments of the pseudocode to single pieces of state (00_scope.md rule R9): one updater per
register the commands write, and the trace's append (20_memory.md rule R80). -/

namespace Sys2Proof.Machine

/-- An update of the controller in use. -/
def State.onCtl (f : Controller → Controller) (s : State) : State := { s with ctl := f s.ctl }

/-- An update of its sequencer. -/
def State.onSeq (f : Sequencer → Sequencer) (s : State) : State :=
  s.onCtl fun c => { c with seq := f c.seq }

/-- `trace <- trace ++ [e]` (R80). -/
def emit (e : Event) (s : State) : State := s.onCtl fun c => { c with trace := c.trace ++ [e] }

/-- `ROM_ID <- id`. -/
def setRomId (id : RomId) (s : State) : State := s.onCtl fun c => { c with romId := id }

/-- `LASTDEV <- v`. -/
def setLastDev (v : Byte) (s : State) : State := s.onCtl fun c => { c with lastDev := v }

/-- `DDRREF <- ddr ; PORTREF <- port ; PINREF <- pin ; PINIDX <- idx` (R145); `MASK` follows (R29). -/
def bindPin (ddr port pin : Ref) (idx : PinIndex) (s : State) : State :=
  s.onCtl fun c => { c with ddrRef := ddr, portRef := port, pinRef := pin, pinIdx := idx }

/-- `CONFIGURED <- 1` (R145). -/
def setConfigured (s : State) : State := s.onCtl fun c => { c with configured := true }

/-- The master's contribution to the line: pulling low, or released (R65). -/
def setPulling (b : Bool) (s : State) : State := s.onCtl fun c => { c with pulling := b }

/-- The sequencer's byte index. -/
def setI (i : Fin 8) (s : State) : State := s.onSeq fun q => { q with i := i }

/-- The sequencer's bit index. -/
def setK (k : Fin 8) (s : State) : State := s.onSeq fun q => { q with k := k }

/-- The sequencer's byte. -/
def setAcc (v : Byte) (s : State) : State := s.onSeq fun q => { q with acc := v }

/-- The sequencer's position. -/
def setP (p : Position) (s : State) : State := s.onSeq fun q => { q with p := p }

/-- The first bit read at a position. -/
def setA (v : Bool) (s : State) : State := s.onSeq fun q => { q with a := v }

/-- The second bit read at a position. -/
def setB (v : Bool) (s : State) : State := s.onSeq fun q => { q with b := v }

/-- The deviation recorded in this pass. -/
def setNewDev (v : Byte) (s : State) : State := s.onSeq fun q => { q with newDev := v }

end Sys2Proof.Machine
end

