-- ==== Sys2Proof/Machine/Flags.lean ====
section
/-! DEFINITION. The one flag: the host's global interrupt enable `GIE` and the save latch `SAVED_IE`
(10_state.md rules R33, R34), saved and cleared at the entry of a primitive and written back at its exit
(40_line_control.md rules R141 to R143). -/

namespace Sys2Proof.Machine

/-- `SAVED_IE <- GIE ; GIE <- 0 ; trace <- trace ++ [IrqSave(SAVED_IE)]` (R141, R142). -/
def irqSave (s : State) : State :=
  emit (.irqSave s.gie) { s.onCtl (fun c => { c with savedIe := s.gie }) with gie := false }

/-- `GIE <- SAVED_IE ; trace <- trace ++ [IrqRestore(SAVED_IE)]`: the prior state, not simply re-enabled (R140 to
R142). -/
def irqRestore (s : State) : State :=
  emit (.irqRestore s.ctl.savedIe) { s with gie := s.ctl.savedIe }

end Sys2Proof.Machine
end

