-- ==== Sys2Proof/Machine/Operands.lean ====
section
/-! DEFINITION. The register file the host sees (10_state.md rule R40): register numbers to registers, reading one,
writing one. -/

namespace Sys2Proof.Machine

/-- `MASK`, derived from `PINIDX`: `0x01 << PINIDX` (R29). -/
def Controller.mask (c : Controller) : Byte := 1#8 <<< c.pinIdx.toNat

/-- The block registers by name (R40). -/
inductive Reg where
  | romId (i : Fin 8)
  | lastDev
  | ddrRef
  | portRef
  | pinRef
  | pinIdx
  | mask
  | status
  | reserved
  deriving DecidableEq, Repr

/-- The register of a number: 0x0..0x7 `ROM_ID`, 0x8 `LASTDEV`, 0x9..0xE read only, 0xF reserved (R40). -/
def Reg.ofNumber (n : BitVec 4) : Reg :=
  if h : n.toNat < 8 then .romId ⟨n.toNat, h⟩
  else if n = 0x8#4 then .lastDev
  else if n = 0x9#4 then .ddrRef
  else if n = 0xA#4 then .portRef
  else if n = 0xB#4 then .pinRef
  else if n = 0xC#4 then .pinIdx
  else if n = 0xD#4 then .mask
  else if n = 0xE#4 then .status
  else .reserved

/-- `R[n]`, read (R40, R221). The reserved register has no value: `RDREG` refuses it first, so the last line is never
the answer of a command. -/
def readReg (r : Reg) (c : Controller) : Byte :=
  match r with
  | .romId i => c.romId[i]
  | .lastDev => c.lastDev
  | .ddrRef => c.ddrRef
  | .portRef => c.portRef
  | .pinRef => c.pinRef
  | .pinIdx => c.pinIdx.setWidth 8
  | .mask => c.mask
  | .status => (BitVec.ofBool c.configured).setWidth 8
  | .reserved => 0#8

/-- `ROM_ID[i] <- v` (R223, R191). -/
def setRomByte (i : Fin 8) (v : Byte) (s : State) : State := setRomId (s.ctl.romId.set i v) s

end Sys2Proof.Machine
end

