-- ==== Sys2Proof/Machine/Ops.lean ====
section
/-! DEFINITION. The shared operations: the I/O space and its bit helpers (20_memory.md rules R60 to R64), the pin actions
(R66 to R68), the delay (60_exceptions.md rule R250), the two masked primitives (40_line_control.md rules R141, R142),
the host's interference windows (R241), accepting, answering and refusing a command (30_encoding.md rule R118,
60_exceptions.md rule R231). A refusal is this hardware's only exception, and `refuse` is its one entry. -/

namespace Sys2Proof.Machine

/-! ## The I/O space -/

/-- What an I/O register that is not listed reads as. PRESUMED: the AVR's port registers reset to all zero (R261); log
entry 4. -/
def Memory.unlisted : Byte := 0#8

/-- The byte at an address. -/
def Memory.read (m : Memory) (a : Nat) : Byte :=
  match m with
  | [] => Memory.unlisted
  | cell :: rest => if cell.1 = a then cell.2 else Memory.read rest a

/-- A cell put into its place in a memory that does not list its address. -/
def Memory.insert (c : Host.Cell) (m : Memory) : Memory :=
  match m with
  | [] => [c]
  | cell :: rest => if c.1 < cell.1 then c :: cell :: rest else cell :: Memory.insert c rest

/-- The memory with an address no longer listed. -/
def Memory.erase (m : Memory) (a : Nat) : Memory := m.filter fun cell => cell.1 != a

/-- The byte at an address replaced. A byte equal to what an unlisted address reads as is not listed. -/
def Memory.write (m : Memory) (a : Nat) (v : Byte) : Memory :=
  if v = Memory.unlisted then m.erase a else Memory.insert (a, v) (m.erase a)

/-- The canonical form: addresses strictly rising and inside the 256 registers of R60, no byte equal to what an
unlisted address reads as. -/
abbrev Memory.wf (m : Memory) : Prop :=
  m.Pairwise (fun x y => x.1 < y.1) ∧ ∀ c ∈ m, c.1 < 256 ∧ c.2 ≠ Memory.unlisted

/-- `MemRead(r, 1)` of a direction or output register: the last value written (R61). -/
def memRead (r : Ref) (s : State) : Byte := s.io.read r.toNat

/-- `MemWrite(r, 1, v)` (R61). -/
def memWrite (r : Ref) (v : Byte) (s : State) : State := { s with io := s.io.write r.toNat v }

/-- `IoSetBit(r, k)`: one indivisible read and write, the other seven bits written back as read (R62). -/
def ioSetBit (r : Ref) (k : PinIndex) (s : State) : State :=
  memWrite r (withBit (memRead r s) k.toNat true) s

/-- `IoClrBit(r, k)` (R63). -/
def ioClrBit (r : Ref) (k : PinIndex) (s : State) : State :=
  memWrite r (withBit (memRead r s) k.toNat false) s

/-- `IoTestBit(r, k)` on the byte read from `r`: `(v >> k) & 0x01` (R64). -/
def testBit (v : Byte) (k : PinIndex) : Bool := v.getLsbD k.toNat

/-! ## The pin and the delay -/

/-- `Wait(n)`: nothing changes but the trace (R250). -/
def wait (n : Nat) (s : State) : State := emit (.wait n) s

/-- `DriveLow()`: output level 0, then direction output (R66). -/
def driveLow (s : State) : State :=
  emit .low (setPulling true (ioSetBit s.ctl.ddrRef s.ctl.pinIdx (ioClrBit s.ctl.portRef s.ctl.pinIdx s)))

/-- `Release()`: direction input; the output-drive bit is left alone (R67). -/
def release (s : State) : State :=
  emit .rel (setPulling false (ioClrBit s.ctl.ddrRef s.ctl.pinIdx s))

/-- The level of the line at the sample of a slot: the master's contribution and the environment's, wired AND (R65). -/
def lineLevel (slot : SlotKind) (s : State) : Bool := !s.ctl.pulling && s.farSide.level slot s.draws

/-- `MemRead(PINREF, 1)`: bit `PINIDX` is the present level of the line, the other seven bits are whatever the platform
presents there (R61). `io[PINREF]` is not storage (R37). -/
def readSense (slot : SlotKind) (s : State) : Byte :=
  withBit (memRead s.ctl.pinRef s) s.ctl.pinIdx.toNat (lineLevel slot s)

/-- `Sample()`: `IoTestBit(PINREF, PINIDX)`; the environment has then answered (R68, R85). -/
def sample (slot : SlotKind) (s : State) : Bool × State :=
  let v := testBit (readSense slot s) s.ctl.pinIdx
  (v, emit (.samp v) (setEnv s.farSide.afterSample { s with draws := s.draws + 1 }))

/-! ## The two masked primitives -/

/-- `for t in tls: Wait(t)` (R141). -/
def waits (tls : List Nat) (s : State) : State := tls.foldl (fun s t => wait t s) s

/-- `PulseLow(tls, tr)`: drive low, hold, release, wait, with the host's interrupts masked throughout (R140, R141). -/
def pulseLow (tls : List Nat) (tr : Nat) (s : State) : State :=
  irqRestore (wait tr (release (waits tls (driveLow (irqSave s)))))

/-- `PulseSample(tl, tw, tr)`: drive low, release, wait, sample, wait out the rest, masked throughout (R140, R142). The
slot tells the reference environment what it is asked (R81). -/
def pulseSample (slot : SlotKind) (tl tw tr : Nat) (s : State) : Bool × State :=
  let r := sample slot (wait tw (release (wait tl (driveLow (irqSave s)))))
  (r.1, irqRestore (wait tr r.2))

/-- The end of a slot, for the environment of the pin (R81, R90), and for a line that ill-assorted references reach
(R146). -/
def endSlot (slot : SlotKind) (s : State) : State :=
  setEnv (s.farSide.afterSlot slot) { s with lines := linesDisturb s.ctl.pin s.lines }

/-- `WriteBit(b)`, the bit-cell encoder: a short low for 1, a long low for 0 (R150). -/
def writeBit (b : Bool) (s : State) : State :=
  endSlot (.write b)
    (if b then pulseLow [s.timing.tSlotLow] s.timing.tW1Rel s
     else pulseLow [s.timing.tSlotLow, s.timing.tW0Hold] s.timing.tW0Rel s)

/-- `ReadBit()`, the bit-cell decoder (R152). -/
def readBit (s : State) : Bool × State :=
  let r := pulseSample .read s.timing.tSlotLow s.timing.tRSample s.timing.tRRest s
  (r.1, endSlot .read r.2)

/-- The reset slot (R171, R172). -/
def resetSlot (s : State) : Bool × State :=
  let r := pulseSample .reset s.timing.tRstLow s.timing.tPdWait s.timing.tRstRest s
  (r.1, endSlot .reset r.2)

/-! ## What the host may do to the I/O space -/

/-- A controller's pin is bound once `CONFIGURED` is 1, and while `CONFIG` is running (R145, R241). -/
def Controller.bound (c : Controller) : Bool := c.configured || c.seq.op.isSome

/-- The bit of I/O register `r` that is bound to a controller: bit `PINIDX` of `io[DDRREF]` and of `io[PORTREF]`
(R241, R278). -/
def Controller.boundMask (r : Ref) (c : Controller) : Byte :=
  if c.bound && (r == c.ddrRef || r == c.portRef) then c.mask else 0#8

/-- The bits of I/O register `r` the host leaves alone: those bound to any controller (R241, R242, R278). -/
def hostKeeps (r : Ref) (s : State) : Byte :=
  (s.ctl :: s.parked).foldl (fun m c => m ||| c.boundMask r) 0#8

/-- A host write to an I/O register: every bit but the bound ones takes the host's value (R241, R278). -/
def hostWrite (w : IoWrite) (s : State) : State :=
  let keep := hostKeeps w.ref s
  memWrite w.ref ((memRead w.ref s &&& keep) ||| (w.value &&& ~~~keep)) s

/-- The writes of one run of the host's handlers. -/
def runHandler (ws : List IoWrite) (s : State) : State := ws.foldl (fun s w => hostWrite w s) s

/-- An interference window: if and only if `GIE = 1` the host's handlers may run; they return with `GIE` as they found
it (R241). -/
def window (s : State) : State :=
  if s.gie then
    match s.handlers with
    | [] => s
    | ws :: rest => runHandler ws { s with handlers := rest }
  else s

/-! ## Accepting, answering and refusing a command -/

/-- The status codes of the response word (R118). -/
inductive Status where
  | done
  | reservedOpcode
  | reservedField
  | notConfigured
  | badRegister
  | readOnly
  | badValue
  deriving DecidableEq, Repr

/-- The code of a status (R118). -/
def Status.code : Status → BitVec 4
  | .done => 0x0#4
  | .reservedOpcode => 0x1#4
  | .reservedField => 0x2#4
  | .notConfigured => 0x3#4
  | .badRegister => 0x4#4
  | .readOnly => 0x5#4
  | .badValue => 0x6#4

/-- The response word: `[15:12]` zero, `[11:8]` status, `[7:0]` value (R118). -/
def responseWord (st : Status) (v : Byte) : ResponseWord := 0#4 ++ st.code ++ v

/-- The command ends and its response word goes to the host; the sequencer is idle again (R35, R118). -/
def respond (st : Status) (v : Byte) (s : State) : State :=
  { s.onCtl (fun c => { c with seq := Sequencer.idle }) with rw := some (responseWord st v) }

/-- `raise Refused(code)`: nothing changes but the response word, whose value is 0x00 (R231). -/
def refuse (st : Status) (s : State) : State := respond st 0x00#8 s

/-- The sequencer takes a command: it is live from here to the response (R35). -/
def accept (i : Instr) (s : State) : State := s.onSeq fun _ => { Sequencer.idle with op := some i }

/-- A command with no refusal left: it is accepted, runs, and answers `DONE` with its value (R14, R118). -/
def complete (i : Instr) (body : State → Byte × State) (s : State) : State :=
  let r := body (accept i s)
  respond .done r.1 r.2

/-- A bus command: refused with `NOT_CONFIGURED` while `CONFIGURED = 0`, else run (R30, R232). -/
def busCommand (i : Instr) (body : State → Byte × State) (s : State) : State :=
  if s.ctl.configured then complete i body s else refuse .notConfigured s

/-- The result of a command with none: 0x00 (R118). -/
def noResult (s : State) : Byte × State := (0x00#8, s)

end Sys2Proof.Machine
end

