-- ==== Sys2Proof/Machine/ByteTransfer.lean ====
section
/-! DEFINITION. Byte transfer: `SENDB`, `RECVB` (42_byte_transfer.md rules R180 to R184). -/

namespace Sys2Proof.Machine

/-- The gap between two slots of a byte; before the first one there is none (R180, R241). -/
def slotGap (k : Fin 8) (s : State) : State := if k = 0 then s else window s

/-- One turn of `SendByte`: `WriteBit(v[k])` (R181). -/
def sendBitStep (s : State) (k : Fin 8) : State :=
  let s := setK k (slotGap k s)
  writeBit (s.ctl.seq.acc.getLsbD k.val) s

/-- `SendByte(v)`: eight write slots, bit 0 first (R70, R181). -/
def sendByte (v : Byte) (s : State) : State := (List.finRange 8).foldl sendBitStep (setAcc v s)

/-- One turn of `ReceiveByte`: `acc[k] <- ReadBit()` (R183). -/
def receiveBitStep (s : State) (k : Fin 8) : State :=
  let r := readBit (setK k (slotGap k s))
  setAcc (withBit r.2.ctl.seq.acc k.val r.1) r.2

/-- `ReceiveByte()`: eight read slots, the first bit read is bit 0 (R70, R183). -/
def receiveByte (s : State) : Byte × State :=
  let s := (List.finRange 8).foldl receiveBitStep (setAcc 0x00#8 s)
  (s.ctl.seq.acc, s)

/-- `SENDB byte` (R182). -/
def execSendb (byte : Byte) (s : State) : Host.Outcome State Fault Refusal :=
  .next (busCommand (.sendb byte) (fun s => noResult (sendByte byte s)) s)

/-- `RECVB` (R184). -/
def execRecvb (s : State) : Host.Outcome State Fault Refusal :=
  .next (busCommand .recvb receiveByte s)

end Sys2Proof.Machine
end

