-- ==== Sys2Proof/Machine/LineControl.lean ====
section
/-! DEFINITION. Bus line control: `CONFIG`, `WBIT`, `RBIT` (40_line_control.md rules R145, R151, R153). -/

namespace Sys2Proof.Machine

/-- The steps of `CONFIG` (R145). It masks nothing, so the host's handlers may run at any point of it (R241): a window
stands after every step. One before the first step would be the host's own time. -/
def configBody (ddr port pin : Ref) (idx : PinIndex) (s : State) : Byte × State :=
  let s := window (bindPin ddr port pin idx s)
  let s := window (release s)
  let s := window (ioClrBit s.ctl.portRef s.ctl.pinIdx s)
  let s := window (setLastDev Config.devNone s)
  let s := window (wait s.timing.tSettle s)
  noResult (setConfigured s)

/-- `CONFIG ddr, port, pin, idx` (R145, R146, R147): always succeeds, whatever `CONFIGURED` is. -/
def execConfig (ddr port pin : Ref) (idx : PinIndex) (s : State) : Host.Outcome State Fault Refusal :=
  .next (complete (.config ddr port pin idx) (configBody ddr port pin idx) s)

/-- `WBIT bit` (R151). -/
def execWbit (bit : Bool) (s : State) : Host.Outcome State Fault Refusal :=
  .next (busCommand (.wbit bit) (fun s => noResult (writeBit bit s)) s)

/-- A sampled bit as a result byte: `zext_8(v)` (R153). -/
def bitResult (v : Bool) : Byte := (BitVec.ofBool v).setWidth 8

/-- `RBIT` (R153). -/
def execRbit (s : State) : Host.Outcome State Fault Refusal :=
  .next (busCommand .rbit (fun s => let r := readBit s; (bitResult r.1, r.2)) s)

end Sys2Proof.Machine
end

