-- ==== Sys2Proof/Machine/Presence.lean ====
section
/-! DEFINITION. Presence detection: `PRES` (41_presence.md rule R171). -/

namespace Sys2Proof.Machine

/-- Line low at the sample: present, 0x01; line high: none, 0x00 (R171). -/
def presenceResult (v : Bool) : Byte := if v then 0x00#8 else 0x01#8

/-- `PRES` (R171, R172). -/
def execPres (s : State) : Host.Outcome State Fault Refusal :=
  .next (busCommand .pres (fun s => let r := resetSlot s; (presenceResult r.1, r.2)) s)

end Sys2Proof.Machine
end

