-- ==== Sys2Proof/Machine/RegisterAccess.lean ====
section
/-! DEFINITION. Register access: `RDREG`, `WRREG` (44_register_access.md rules R220 to R223). Neither touches the line, an
I/O register, `GIE` or the trace, and neither needs `CONFIGURED = 1` (R220). -/

namespace Sys2Proof.Machine

/-- `RDREG reg` (R221). -/
def execRdreg (reg : BitVec 4) (s : State) : Host.Outcome State Fault Refusal :=
  .next (if Reg.ofNumber reg = .reserved then refuse .badRegister s
    else complete (.rdreg reg) (fun s => (readReg (Reg.ofNumber reg) s.ctl, s)) s)

/-- `WRREG reg, val` (R223): `BAD_REGISTER`, then `READ_ONLY`, then `BAD_VALUE` (R120). -/
def execWrreg (reg : BitVec 4) (val : Byte) (s : State) : Host.Outcome State Fault Refusal :=
  .next (match Reg.ofNumber reg with
    | .reserved => refuse .badRegister s
    | .ddrRef => refuse .readOnly s
    | .portRef => refuse .readOnly s
    | .pinRef => refuse .readOnly s
    | .pinIdx => refuse .readOnly s
    | .mask => refuse .readOnly s
    | .status => refuse .readOnly s
    | .lastDev =>
      if val > Config.devMax then refuse .badValue s
      else complete (.wrreg reg val) (fun s => noResult (setLastDev val s)) s
    | .romId i => complete (.wrreg reg val) (fun s => noResult (setRomByte i val s)) s)

end Sys2Proof.Machine
end

