-- ==== Sys2Proof/Machine/RomCommands.lean ====
section
/-! DEFINITION. The ROM addressing protocol: `RDROM`, `MATCHROM`, `SRCHROM` (43_rom_commands.md rules R190 to R212). None
of them issues a reset slot or checks for presence (R190). A window stands between any two slots (R241). -/

namespace Sys2Proof.Machine

/-! ## RDROM and MATCHROM -/

/-- One turn of `RDROM`: `ROM_ID[i] <- ReceiveByte()` (R191). -/
def readRomStep (s : State) (i : Fin 8) : State :=
  let r := receiveByte (setI i (window s))
  setRomByte i r.1 r.2

/-- `SendByte(0x33)`, then eight bytes into `ROM_ID`, `ROM_ID[0]` first (R71, R191). -/
def readRomBody (s : State) : Byte × State :=
  noResult ((List.finRange 8).foldl readRomStep (sendByte Config.readRomByte s))

/-- `RDROM` (R191). -/
def execRdrom (s : State) : Host.Outcome State Fault Refusal :=
  .next (busCommand .rdrom readRomBody s)

/-- One turn of `MATCHROM`: `SendByte(ROM_ID[i])` (R193). -/
def matchRomStep (s : State) (i : Fin 8) : State :=
  let s := setI i (window s)
  sendByte s.ctl.romId[i] s

/-- `SendByte(0x55)`, then the eight bytes of `ROM_ID`, `ROM_ID[0]` first (R71, R193). -/
def matchRomBody (s : State) : Byte × State :=
  noResult ((List.finRange 8).foldl matchRomStep (sendByte Config.matchRomByte s))

/-- `MATCHROM` (R193). -/
def execMatchrom (s : State) : Host.Outcome State Fault Refusal :=
  .next (busCommand .matchrom matchRomBody s)

/-! ## SRCHROM, the search engine -/

/-- `IdBit(p) <- b` (R23). -/
def setIdBit (p : Position) (b : Bool) (s : State) : State := setRomId (withIdBit s.ctl.romId p b) s

/-- The two reads of a position: the true bit `a`, then its complement `b` (R200 step 1, R201). -/
def searchRead (p : Position) (s : State) : State :=
  let r := readBit (window (setP p s))
  let s := setA r.1 r.2
  let r := readBit (window s)
  setB r.1 r.2

/-- Steps 3 and 4 at a position where somebody answered (R200, R204 to R207). -/
def searchChoose (p : Position) (s : State) : State :=
  if s.ctl.seq.a ≠ s.ctl.seq.b then setIdBit p s.ctl.seq.a s
  else if p.number = s.ctl.lastDev then setIdBit p true s
  else if p.number > s.ctl.lastDev then setNewDev p.number (setIdBit p false s)
  else if idBit s.ctl.romId p = false then setNewDev p.number s
  else s

/-- Step 5: the chosen bit goes back on the line (R200, R208). -/
def searchWrite (p : Position) (s : State) : State :=
  let s := window s
  writeBit (idBit s.ctl.romId p) s

/-- The loop over the positions, with the abort of step 2: nobody answered, the pass ends at once with `DEV_NODEVICE`
and `LASTDEV` as it was (R200, R203). At the end of a full pass `LASTDEV` takes the recorded deviation, which is also
the result (R202). -/
def searchLoop (ps : List Position) (s : State) : Byte × State :=
  match ps with
  | [] => (s.ctl.seq.newDev, setLastDev s.ctl.seq.newDev s)
  | p :: rest =>
    let s := searchRead p s
    if s.ctl.seq.a && s.ctl.seq.b then (Config.devNoDevice, s)
    else searchLoop rest (searchWrite p (searchChoose p s))

/-- One pass: the command byte, `newDev <- DEV_NONE`, then positions 1 to 64 (R200). -/
def searchBody (s : State) : Byte × State :=
  searchLoop (List.finRange 64) (setNewDev Config.devNone (sendByte Config.searchRomByte s))

/-- `SRCHROM` (R200). -/
def execSrchrom (s : State) : Host.Outcome State Fault Refusal :=
  .next (busCommand .srchrom searchBody s)

end Sys2Proof.Machine
end

