-- ==== Sys2Proof/Machine/Dispatch.lean ====
section
/-! DEFINITION. One arm per command (30_encoding.md rule R114). -/

namespace Sys2Proof.Machine

def exec (i : Instr) (s : State) : Host.Outcome State Fault Refusal :=
  match i with
  | .config ddr port pin idx => Sys2Proof.Machine.execConfig ddr port pin idx s
  | .wbit bit => Sys2Proof.Machine.execWbit bit s
  | .rbit => Sys2Proof.Machine.execRbit s
  | .pres => Sys2Proof.Machine.execPres s
  | .sendb byte => Sys2Proof.Machine.execSendb byte s
  | .recvb => Sys2Proof.Machine.execRecvb s
  | .rdrom => Sys2Proof.Machine.execRdrom s
  | .matchrom => Sys2Proof.Machine.execMatchrom s
  | .srchrom => Sys2Proof.Machine.execSrchrom s
  | .rdreg reg => Sys2Proof.Machine.execRdreg reg s
  | .wrreg reg val => Sys2Proof.Machine.execWrreg reg val s

end Sys2Proof.Machine
end

