-- ==== Sys2Proof/Machine/Inputs.lean ====
section
/-! DEFINITION. What the outside world does between commands, other than issuing one: the host's moves and the hardware
reset, and what is put on the lines (10_state.md rules R33, R45; 20_memory.md rule R90; 43_rom_commands.md rule R211;
60_exceptions.md rule R253; 70_reset_and_hazards.md rules R260 to R262, R278). -/

namespace Sys2Proof.Machine

/-- The block after hardware reset (R45, R260): not configured, idle, trace empty, the line not driven; the registers
the spec leaves unspecified take free values within their legal ranges. -/
def resetController (n : Nat) (c : Controller) : Controller where
  romId := Config.resetRomId n
  lastDev := BitVec.ofNat 8 (Config.resetLastDev n).val
  ddrRef := Config.resetDdrRef n
  portRef := Config.resetPortRef n
  pinRef := Config.resetPinRef n
  pinIdx := Config.resetPinIdx n
  configured := false
  savedIe := c.savedIe
  seq := Sequencer.idle
  pulling := false
  trace := []

/-- Hardware reset: it touches no I/O register and not `GIE` (R45, R261, R262). -/
def hardReset (s : State) : State :=
  { s with ctl := resetController s.draws s.ctl, draws := s.draws + 1 }

/-- What is on the far side of a pin changes (R85, R211). References that are no pin's, and a population with an
identifier twice, change nothing (R90, R146). -/
def changeLine (p : Pin) (f : FarSide) (s : State) : State :=
  if p.proper && f.legal then { s with lines := linesPut p (f.attach (linesAt p s.lines)) s.lines } else s

/-- The host turns to another controller (R253); a number no controller has changes nothing (DESIGN CHOICE, log
entry 13). -/
def selectController (n : Nat) (s : State) : State :=
  match s.parked[n]? with
  | none => s
  | some c => { s with ctl := c, parked := s.parked.set n s.ctl }

end Sys2Proof.Machine
end

