-- ==== Sys2Proof/Machine/Step.lean ====
section
/-! DEFINITION. One step: the next thing the outside world does. A command word is decoded and run to its end, and its
response is in `rw` when the step ends (30_encoding.md rules R110, R111; 10_state.md rule R36). -/

namespace Sys2Proof.Machine

/-- A command word: run, or refused by the decoder's name (R115, R116, R120). -/
def runWord (cw : CommandWord) (s : State) : Host.Outcome State Fault Refusal :=
  match decode cw with
  | .command i => exec i s
  | .reservedOpcode => .next (refuse .reservedOpcode s)
  | .reservedField => .next (refuse .reservedField s)

/-- One input from the outside world. -/
def runInput (x : Input) (s : State) : Host.Outcome State Fault Refusal :=
  match x with
  | .issue cw => runWord cw s
  | .setGie on => .next { s with gie := on }
  | .ioWrite w => .next (hostWrite w s)
  | .select n => .next (selectController n s)
  | .environment p f => .next (changeLine p f s)
  | .hardReset => .next (hardReset s)

/-- One step. With nothing from the outside world the block waits idle (R36, R262). -/
def step (s : State) : Host.Outcome State Fault Refusal :=
  match s.inbox with
  | [] => .next s
  | x :: rest => runInput x { s with inbox := rest }

/-- The state in which the host issues this table word next. -/
def State.withFetchWord (s : State) (nbits w : Nat) : State :=
  { s with inbox := .issue (tableWord nbits w) :: s.inbox }

end Sys2Proof.Machine
end

