-- ==== Sys2Proof/Safety.lean ====
section
/-! DEFINITION. What counts as a good state and a good run, in the terms the statements use: the released pin
(40_line_control.md rule R144), the invariants of 10_state.md rule R41, what a command leaves alone, the masked sections
of the trace (R140, 20_memory.md rules R78, R80) and the durations of 70_reset_and_hazards.md rule R285. -/

namespace Sys2Proof.Machine

/-! ## States -/

/-- The controller does not drive its pin, in register terms: bit `PINIDX` of `io[DDRREF]` and of `io[PORTREF]` is 0
(R144). -/
def Controller.released (c : Controller) (io : Memory) : Prop :=
  (io.read c.ddrRef.toNat).getLsbD c.pinIdx.toNat = false ∧
    (io.read c.portRef.toNat).getLsbD c.pinIdx.toNat = false

/-- What R41 promises of one controller between two commands: `LASTDEV <= 64`; idle; the line released; once
configured, its pin released in the registers too. -/
structure Controller.good (c : Controller) (io : Memory) : Prop where
  lastDev : c.lastDev ≤ Config.devMax
  idle : c.seq = Sequencer.idle
  notPulling : c.pulling = false
  released : c.configured = true → c.released io

/-- The lines are in canonical form, and every one is a pin of three registers with distinct devices on it (R90, R146). -/
abbrev LinesWf (ls : List Line) : Prop :=
  ls.Pairwise (fun l m => l.pin.key < m.pin.key) ∧
    ∀ l ∈ ls, l.pin.proper = true ∧ l.env ≠ .answers [] ∧ l.env.population.Nodup

/-- The invariant of the machine between two steps (R41), with the canonical form of the I/O space and of the lines and
what the spec asks of the parameters. -/
structure Inv (s : State) : Prop where
  io : s.io.wf
  lines : LinesWf s.lines
  timing : s.timing.legal
  controllers : ∀ c ∈ s.ctl :: s.parked, c.good s.io

/-- No handler of the host runs during the next command: the interrupts are disabled, or no handler has anything to do
(R241: "With `GIE = 0` at issue, a whole command runs with no host step"). -/
def Quiet (s : State) : Prop := s.gie = false ∨ s.handlers = []

/-! ## What a command leaves alone -/

/-- The registers `CONFIG` binds, and `CONFIGURED` (R25 to R28, R30). -/
structure SameBinding (c d : Controller) : Prop where
  ddrRef : d.ddrRef = c.ddrRef
  portRef : d.portRef = c.portRef
  pinRef : d.pinRef = c.pinRef
  pinIdx : d.pinIdx = c.pinIdx
  configured : d.configured = c.configured

/-- Every block register of R40 unchanged. -/
structure SameBlock (c d : Controller) : Prop extends SameBinding c d where
  romId : d.romId = c.romId
  lastDev : d.lastDev = c.lastDev

/-- What belongs to the host and to the other controllers, and the timing parameters: unchanged by every command (R13,
R33, R143, R253). -/
structure SameHost (s t : State) : Prop where
  parked : t.parked = s.parked
  gie : t.gie = s.gie
  inbox : t.inbox = s.inbox
  timing : t.timing = s.timing

/-- The I/O space after a command that used the pin of `c`, when no handler ran: bit `PINIDX` of `io[DDRREF]` and of
`io[PORTREF]` is 0, and every other bit of those two registers and every other register is as it was (R278). -/
def IoAfterPin (c : Controller) (before after : Memory) : Prop :=
  ∀ a : Nat, after.read a =
    if a = c.ddrRef.toNat ∨ a = c.portRef.toNat then withBit (before.read a) c.pinIdx.toNat false
    else before.read a

/-- Bit `k` at address `a` is a bound bit of the controller (R241, R278). -/
abbrev Controller.binds (c : Controller) (a k : Nat) : Prop :=
  (a = c.ddrRef.toNat ∨ a = c.portRef.toNat) ∧ k = c.pinIdx.toNat

/-- A handler waiting in `s` writes value `v` to bit `k` at address `a`, a bit the host is free to write (R241). -/
def HandlerWrites (s : State) (a k : Nat) (v : Bool) : Prop :=
  s.gie = true ∧ ∃ ws ∈ s.handlers, ∃ w ∈ ws,
    a = w.ref.toNat ∧ (hostKeeps w.ref s).getLsbD k = false ∧ w.value.getLsbD k = v

/-- From `s` to `t` a configured controller ran one command that was these slots. The host's state, the other
controllers and the binding are unchanged; the controller is idle and does not drive the line; the trace grew by these
slots, every one masked and restored with the `GIE` the command began with; every sample among them is the
environment's answer. No line changes but the one of the pin, which moves by these slots, and those the spec leaves
unspecified. `ROM_ID`, `LASTDEV`, the response word and the I/O space are stated beside it. -/
structure RanSlots (sls : List Slot) (s t : State) : Prop where
  host : SameHost s t
  binding : SameBinding s.ctl t.ctl
  idle : t.ctl.seq = Sequencer.idle
  notPulling : t.ctl.pulling = false
  released : t.ctl.released t.io
  trace : t.ctl.trace = s.ctl.trace ++ segments s.timing s.gie sls
  env : t.farSide = s.farSide.run sls
  answers : s.farSide.Answers s.draws sls
  lines : ∀ p, p ≠ s.ctl.pin → s.ctl.pin.touches p = false → linesAt p t.lines = linesAt p s.lines
  draws : t.draws = s.draws + sampleCount sls
  handlers : t.handlers <:+ s.handlers

/-! ## What the host's handlers do -/

/-- Bit `k` of I/O register `r` after a list of writes that are free to write it. -/
def bitAfter (r : Ref) (k : PinIndex) (before : Bool) (ws : List IoWrite) : Bool :=
  ws.foldl (fun v w => if w.ref = r then testBit w.value k else v) before

/-- From `s` to `t` the first `n` of the waiting handlers ran, in order, and no other: they are gone from the queue, and
every bit that is bound to no controller is as their writes leave it (R241). -/
structure Heard (n : Nat) (s t : State) : Prop where
  handlers : t.handlers = s.handlers.drop n
  bits : ∀ r k, testBit (hostKeeps r s) k = false →
    testBit (memRead r t) k = bitAfter r k (testBit (memRead r s) k) (s.handlers.take n).flatten

/-! ## What the timing parameters decide -/

/-- An event without its label, if it is a wait. -/
def Event.untimed : Event → Event
  | .wait _ => .wait 0
  | .irqSave s => .irqSave s
  | .low => .low
  | .rel => .rel
  | .samp v => .samp v
  | .irqRestore s => .irqRestore s

/-- A state without its timing parameters and without the labels of the waits in its trace (R6, R250). -/
def State.untimed (s : State) : State :=
  { s with
    timing := ⟨0, 0, 0, 0, 0, 0, 0, 0, 0, 0⟩
    ctl := { s.ctl with trace := s.ctl.trace.map Event.untimed } }

/-! ## Enumeration -/

/-- `x` comes before `y` as strings of bits, position 1 first, 0 before 1 (R210). -/
def comesBefore (x y : RomId) : Prop :=
  ∃ p : Position, (∀ q, q < p → idBit x q = idBit y q) ∧ idBit x p = false ∧ idBit y p = true

/-- The enumeration of R209 from `s`, with no abort: passes of `PRES` and `SRCHROM`, each but the last returning a
position 1..64 and the last one `DEV_NONE`; `ids` are the identifiers the passes leave in `ROM_ID`, in order. -/
inductive Enumerates : State → List RomId → State → Prop where
  | last {s u t : State} : exec .pres s = .next u → exec .srchrom u = .next t → t.rw = some 0x0000#16 →
      Enumerates s [t.ctl.romId] t
  | more {s u v t : State} {p : Position} {ids : List RomId} : exec .pres s = .next u → exec .srchrom u = .next v →
      v.rw = some (0x00#8 ++ p.number) → Enumerates v ids t → Enumerates s (v.ctl.romId :: ids) t

/-! ## The trace -/

/-- Where a trace stands: outside every masked section; inside one with the line released; inside one with the line
pulled low. -/
inductive TracePlace where
  | outside
  | maskedReleased
  | maskedLow
  deriving DecidableEq, Repr

/-- One event of a trace in which the line is pulled low, and sampled, only inside a masked section, no section starts
inside another, and every section ends with the line released and writes back what its entry saved (R140 to R144).
`CONFIG`'s release stands outside (R81, R145). -/
def TracePlace.after (saved : Bool) : TracePlace → Event → Option (TracePlace × Bool)
  | .outside, .irqSave s => some (.maskedReleased, s)
  | .outside, .wait _ => some (.outside, saved)
  | .outside, .rel => some (.outside, saved)
  | .outside, .low => none
  | .outside, .samp _ => none
  | .outside, .irqRestore _ => none
  | .maskedReleased, .low => some (.maskedLow, saved)
  | .maskedReleased, .wait _ => some (.maskedReleased, saved)
  | .maskedReleased, .samp _ => some (.maskedReleased, saved)
  | .maskedReleased, .irqRestore s => if s = saved then some (.outside, saved) else none
  | .maskedReleased, .irqSave _ => none
  | .maskedReleased, .rel => none
  | .maskedLow, .wait _ => some (.maskedLow, saved)
  | .maskedLow, .rel => some (.maskedReleased, saved)
  | .maskedLow, .low => none
  | .maskedLow, .samp _ => none
  | .maskedLow, .irqSave _ => none
  | .maskedLow, .irqRestore _ => none

/-- Does a trace that starts outside every masked section keep that discipline and end outside? -/
def disciplined (saved : Bool) (place : TracePlace) : List Event → Bool
  | [] => place == .outside
  | e :: rest =>
    match place.after saved e with
    | some (next, saved') => disciplined saved' next rest
    | none => false

/-- The microseconds a trace waits (R250, R285). -/
def waitTotal (events : List Event) : Nat :=
  (events.map fun e =>
    match e with
    | .wait n => n
    | .irqSave _ => 0
    | .low => 0
    | .rel => 0
    | .samp _ => 0
    | .irqRestore _ => 0).sum

/-- What a slot waits (R156, R285). -/
def Slot.micros (tm : Timing) : Slot → Nat
  | .write true => tm.tSlotLow + tm.tW1Rel
  | .write false => tm.tSlotLow + tm.tW0Hold + tm.tW0Rel
  | .read _ => tm.tSlotLow + tm.tRSample + tm.tRRest
  | .reset _ => tm.tRstLow + tm.tPdWait + tm.tRstRest

/-- The microseconds each masked section of a trace waits, in order (R156). The first argument is what the section the
trace stands in has waited so far, if it stands in one. -/
def sectionWaits (now : Option Nat) (events : List Event) : List Nat :=
  match events with
  | [] => []
  | .irqSave _ :: rest => sectionWaits (some 0) rest
  | .irqRestore _ :: rest => now.toList ++ sectionWaits none rest
  | .wait n :: rest => sectionWaits (now.map (· + n)) rest
  | .low :: rest => sectionWaits now rest
  | .rel :: rest => sectionWaits now rest
  | .samp _ :: rest => sectionWaits now rest

/-- How many slots a trace holds: one per masked section (R81, R237). -/
def slotCount (events : List Event) : Nat :=
  events.countP fun e =>
    match e with
    | .irqSave _ => true
    | .low => false
    | .wait _ => false
    | .rel => false
    | .samp _ => false
    | .irqRestore _ => false

end Sys2Proof.Machine
end

