-- ==== Sys2Proof/WellFormed.lean ====
section
/-! DEFINITION. Which command words are well formed, written from the `match` and `mask` columns of the opcode map
(30_encoding.md rule R114) and independent of the decoder; and which well-formed commands the block refuses whatever
its state (60_exceptions.md rule R233, codes 0x4 to 0x6). A term of `Instr` has every operand at the width of its
field, so it needs no check of its own to be encodable. -/

namespace Sys2Proof

/-- One row of the opcode map: a word `cw` is the command exactly when `cw &&& mask = pattern` (R114). -/
structure OpcodeRow where
  mnemonic : String
  pattern : CommandWord
  mask : CommandWord
  deriving DecidableEq, Repr

/-- The opcode map of rule R114. -/
def opcodeRows : List OpcodeRow :=
  [⟨"CONFIG", 0x10000000#32, 0xF8000000#32⟩,
   ⟨"WBIT", 0x20000000#32, 0xFFFFFFFE#32⟩,
   ⟨"RBIT", 0x30000000#32, 0xFFFFFFFF#32⟩,
   ⟨"PRES", 0x40000000#32, 0xFFFFFFFF#32⟩,
   ⟨"SENDB", 0x50000000#32, 0xFFFFFF00#32⟩,
   ⟨"RECVB", 0x60000000#32, 0xFFFFFFFF#32⟩,
   ⟨"RDROM", 0x70000000#32, 0xFFFFFFFF#32⟩,
   ⟨"MATCHROM", 0x80000000#32, 0xFFFFFFFF#32⟩,
   ⟨"SRCHROM", 0x90000000#32, 0xFFFFFFFF#32⟩,
   ⟨"RDREG", 0xA0000000#32, 0xFFFFF0FF#32⟩,
   ⟨"WRREG", 0xB0000000#32, 0xFFFFF000#32⟩]

/-- Does the word match the row (R114)? -/
def OpcodeRow.matchesWord (r : OpcodeRow) (cw : CommandWord) : Bool := cw &&& r.mask == r.pattern

/-- A word is well formed when it is one of the eleven commands: its opcode is not reserved (R115) and every "zero"
field of its format is 0 (R116). -/
def wellFormedWord (cw : CommandWord) : Bool := opcodeRows.any (·.matchesWord cw)

/-- A command is admissible when no refusal of rule R233 that depends on the word alone meets it: register 0xF
(`BAD_REGISTER`), a write to 0x9..0xE (`READ_ONLY`), a `LASTDEV` value above 0x40 (`BAD_VALUE`). -/
def Instr.admissible : Instr → Bool
  | .config _ _ _ _ => true
  | .wbit _ => true
  | .rbit => true
  | .pres => true
  | .sendb _ => true
  | .recvb => true
  | .rdrom => true
  | .matchrom => true
  | .srchrom => true
  | .rdreg reg => decide (reg ≠ 0xF#4)
  | .wrreg reg val => decide (reg < 8#4) || (decide (reg = 8#4) && decide (val ≤ 0x40#8))

end Sys2Proof
end

