-- ==== Sys2Proof/Certificates/Slice0/Obligations.lean ====
section
/-! DEFINITION. The statements for the provers. Each docstring names the rules of the spec it formalises. -/

open Sys2Proof Sys2Proof.Machine

/-! ## Encoding -/

/-- R112, R113, R114, R121. No bit of an encoding is dropped: decoding the word of a command gives the command, for
every command and every operand. -/
def Obligations.DecodeOfEncode : Prop := ∀ i : Instr, decode (encode i) = .command i

/-- R114, R116, R117. Each command has one word: a word that decodes to a command is that command's encoding. -/
def Obligations.EncodeOfDecode : Prop :=
  ∀ (cw : CommandWord) (i : Instr), decode cw = .command i → encode i = cw

/-- R114. A word is the command of a row of the opcode map exactly when `(cw & mask) == match`. -/
def Obligations.DecoderFollowsOpcodeMap : Prop :=
  ∀ (cw : CommandWord), ∀ r ∈ opcodeRows,
    (cw &&& r.mask = r.pattern ↔ ∃ i : Instr, decode cw = .command i ∧ i.mnemonic = r.mnemonic)

/-- R114, R121. Words written out from the formats decode to the commands they stand for, one of each family. -/
def Obligations.SampleWordsDecode : Prop :=
  decode 0x122A2B29#32 = .command (.config 0x2A#8 0x2B#8 0x29#8 2#3) ∧
    decode 0x40000000#32 = .command .pres ∧
    decode 0x500000B0#32 = .command (.sendb 0xB0#8) ∧
    decode 0x90000000#32 = .command .srchrom ∧
    decode 0xB0000709#32 = .command (.wrreg 7#4 0x09#8)

/-! ## The step -/

/-- R36, R110, R111. When the host issues a word that decodes to a command, the step is the command's meaning, on the
state in which the host has issued it. -/
def Obligations.StepRunsTheDecodedCommand : Prop :=
  ∀ (s : State) (cw : CommandWord) (rest : List Input) (i : Instr),
    s.inbox = .issue cw :: rest → decode cw = .command i → step s = exec i { s with inbox := rest }

/-- R115, R116 (with R120: the opcode is looked at first). A word with a reserved opcode, and a word with one of the
eleven opcodes that matches no row of the map, are refused: the response word carries the code, and nothing else
changes. (`seq := idle`: the sequencer is dead between commands, R35.) -/
def Obligations.IllFormedWordsAreRefused : Prop :=
  ∀ (s : State) (cw : CommandWord) (rest : List Input), s.inbox = .issue cw :: rest →
    ((cw.toNat / 2 ^ 28 = 0x0 ∨ 0xC ≤ cw.toNat / 2 ^ 28) →
      step s = .next { s with
        inbox := rest
        rw := some 0x0100#16
        ctl := { s.ctl with seq := Sequencer.idle } }) ∧
    ((0x1 ≤ cw.toNat / 2 ^ 28 ∧ cw.toNat / 2 ^ 28 ≤ 0xB ∧ wellFormedWord cw = false) →
      step s = .next { s with
        inbox := rest
        rw := some 0x0200#16
        ctl := { s.ctl with seq := Sequencer.idle } })

/-- R14, R230, R231, R237. Every step answers a next state; and a command has one of two outcomes: it completes with
status 0 and a value, or it is refused and changes nothing but the response word. -/
def Obligations.EveryCommandCompletesOrIsRefused : Prop :=
  (∀ s : State, ∃ t, step s = .next t) ∧
    ∀ (i : Instr) (s : State), ∃ t, exec i s = .next t ∧
      ((∃ v : Byte, t.rw = some (0x0#4 ++ 0x0#4 ++ v)) ∨
        ∃ code : BitVec 4, code ≠ 0#4 ∧
          t = { s with
            rw := some (0x0#4 ++ code ++ 0x00#8)
            ctl := { s.ctl with seq := Sequencer.idle } })

/-! ## Reset and invariants -/

/-- R45, R260. The machine right after reset: not configured, `STATUS` reads 0, idle, trace empty, line not driven,
`LASTDEV` legal; the timing parameters at the document's figures (R6). (The values of the other registers are the
model's choice, log entries 1 to 5; nothing here rests on them.) -/
def Obligations.ResetLeavesTheBlockUnconfigured : Prop :=
  State.reset.ctl.configured = false ∧ readReg .status State.reset.ctl = 0x00#8 ∧
    State.reset.ctl.seq.op = none ∧ State.reset.ctl.trace = [] ∧ State.reset.ctl.pulling = false ∧
    State.reset.ctl.lastDev ≤ 0x40#8 ∧ State.reset.timing = ⟨6, 64, 60, 10, 9, 55, 480, 70, 410, 480⟩

/-- R45, R260, R261, R262. A hardware reset while the machine runs: the block is not configured, idle, its trace empty
and the line not driven, `LASTDEV` legal; no I/O register and not `GIE` is touched, no other controller, no line and no
timing parameter. (That it is the controller in use that is reset is the model's choice, log entry 12.) -/
def Obligations.HardResetTouchesOnlyTheBlock : Prop :=
  ∀ (s : State) (rest : List Input), s.inbox = .hardReset :: rest →
    ∃ t, step s = .next t ∧
      t.ctl.configured = false ∧ t.ctl.seq.op = none ∧ t.ctl.trace = [] ∧ t.ctl.pulling = false ∧
      t.ctl.lastDev ≤ 0x40#8 ∧ t.lines = s.lines ∧ t.timing = s.timing ∧ t.io = s.io ∧ t.gie = s.gie ∧ t.parked = s.parked ∧
      t.rw = s.rw ∧ t.handlers = s.handlers ∧ t.inbox = rest

/-- The invariant of R41 holds right after reset. -/
def Obligations.InvariantHoldsAtReset : Prop := Inv State.reset

/-- R41 (a), (b), (d), R144, R278. From every state that meets the invariant a step gives a state that meets it: the I/O
space and the lines stay in canonical form, the timing parameters stay positive, and for every controller `LASTDEV <=
64`, the sequencer is idle, the line is not driven, and the pin of a configured controller is released. -/
def Obligations.StepKeepsTheInvariant : Prop :=
  ∀ s t : State, Inv s → step s = .next t → Inv t

/-- R30, R41 (c). `CONFIGURED`, once 1, stays 1 until hardware reset, for every controller: a step that is no hardware
reset and does not turn to another controller keeps it, and keeps every other controller as it was. -/
def Obligations.ConfiguredStaysUntilReset : Prop :=
  ∀ s t : State, step s = .next t →
    (∀ rest, s.inbox ≠ .hardReset :: rest) → (∀ n rest, s.inbox ≠ .select n :: rest) →
    (s.ctl.configured = true → t.ctl.configured = true) ∧ t.parked = s.parked

/-! ## CONFIG -/

/-- R145, R146, R147, R155. `CONFIG` always completes, whatever its operands and whether or not the block is configured:
the four binding registers take the operands, `LASTDEV` is 0x00, `CONFIGURED` is 1, `ROM_ID` and `GIE` are unchanged,
the bound bits of the direction and output registers are 0, the trace grows by `Rel, Wait(T_SETTLE)`, the response is
0x0000. That what is on the far side of every pin stays as it was, also across a rebinding, is the model's choice, log
entry 15. -/
def Obligations.ConfigBindsAndReleases : Prop :=
  ∀ (ddr port pin : Ref) (idx : PinIndex) (s : State), ∃ t, exec (.config ddr port pin idx) s = .next t ∧
    t.ctl =
      { s.ctl with
        ddrRef := ddr
        portRef := port
        pinRef := pin
        pinIdx := idx
        lastDev := 0x00#8
        configured := true
        seq := Sequencer.idle
        pulling := false
        trace := s.ctl.trace ++ [.rel, .wait s.timing.tSettle] } ∧
    SameHost s t ∧ t.rw = some 0x0000#16 ∧ t.draws = s.draws ∧ t.lines = s.lines ∧ t.handlers <:+ s.handlers ∧
    (t.io.read ddr.toNat).getLsbD idx.toNat = false ∧ (t.io.read port.toNat).getLsbD idx.toNat = false

/-- R45, R145, R241. When no handler runs, `CONFIG` changes nothing of the I/O space but bit `idx` of `io[ddr]` and of
`io[port]`. -/
def Obligations.ConfigChangesOnlyTheBoundBits : Prop :=
  ∀ (ddr port pin : Ref) (idx : PinIndex) (s t : State), Quiet s → exec (.config ddr port pin idx) s = .next t →
    ∀ a : Nat, t.io.read a =
      if a = ddr.toNat ∨ a = port.toNat then withBit (s.io.read a) idx.toNat false else s.io.read a

/-- R145, R241, R278. Whatever the handlers do while `CONFIG` runs, a bit of the I/O space after it is what it was, or
it is a bit now bound and 0, or a handler that was waiting wrote it, to that value, and the new binding left it free;
with `GIE = 0` no handler has run. -/
def Obligations.OnlyHandlersChangeOtherBitsInConfig : Prop :=
  ∀ (ddr port pin : Ref) (idx : PinIndex) (s t : State), exec (.config ddr port pin idx) s = .next t →
    let bound : State :=
      { s with ctl := { s.ctl with ddrRef := ddr, portRef := port, pinRef := pin, pinIdx := idx, configured := true } }
    (∀ a k : Nat,
      (t.io.read a).getLsbD k = (s.io.read a).getLsbD k ∨
        bound.ctl.binds a k ∧ (t.io.read a).getLsbD k = false ∨
        HandlerWrites bound a k ((t.io.read a).getLsbD k)) ∧
    (s.gie = false → t.handlers = s.handlers)

/-! ## Register access -/

/-- R220, R221, R40. `RDREG` of each register 0x0 to 0xE returns it, before and after `CONFIG`, and changes nothing but
the response word; register 0xF is refused with `BAD_REGISTER`. -/
def Obligations.RdregReturnsTheRegister : Prop :=
  ∀ s : State,
    let answer (rw : ResponseWord) : Host.Outcome State Fault Refusal :=
      .next { s with rw := some rw, ctl := { s.ctl with seq := Sequencer.idle } }
    (∀ i : Fin 8, exec (.rdreg (BitVec.ofNat 4 i.val)) s = answer (0x00#8 ++ s.ctl.romId[i])) ∧
    exec (.rdreg 0x8#4) s = answer (0x00#8 ++ s.ctl.lastDev) ∧
    exec (.rdreg 0x9#4) s = answer (0x00#8 ++ s.ctl.ddrRef) ∧
    exec (.rdreg 0xA#4) s = answer (0x00#8 ++ s.ctl.portRef) ∧
    exec (.rdreg 0xB#4) s = answer (0x00#8 ++ s.ctl.pinRef) ∧
    exec (.rdreg 0xC#4) s = answer (0x00#8 ++ (0#5 ++ s.ctl.pinIdx)) ∧
    exec (.rdreg 0xD#4) s = answer (0x00#8 ++ (0x01#8 <<< s.ctl.pinIdx.toNat)) ∧
    exec (.rdreg 0xE#4) s = answer (if s.ctl.configured then 0x0001#16 else 0x0000#16) ∧
    exec (.rdreg 0xF#4) s = answer 0x0400#16

/-- R220, R223, R120. `WRREG` stores to `ROM_ID[0..7]` and to `LASTDEV` a value up to 0x40 and changes nothing else but
the response word; a larger `LASTDEV` value, a read-only register and register 0xF are refused and nothing is stored. -/
def Obligations.WrregStoresOrRefuses : Prop :=
  ∀ (s : State) (val : Byte),
    let answer (rw : ResponseWord) (c : Controller) : Host.Outcome State Fault Refusal :=
      .next { s with rw := some rw, ctl := { c with seq := Sequencer.idle } }
    (∀ i : Fin 8, exec (.wrreg (BitVec.ofNat 4 i.val) val) s =
      answer 0x0000#16 { s.ctl with romId := s.ctl.romId.set i val }) ∧
    (val.toNat ≤ 64 → exec (.wrreg 0x8#4 val) s = answer 0x0000#16 { s.ctl with lastDev := val }) ∧
    (64 < val.toNat → exec (.wrreg 0x8#4 val) s = answer 0x0600#16 s.ctl) ∧
    (∀ reg : BitVec 4, 9 ≤ reg.toNat → reg.toNat ≤ 14 → exec (.wrreg reg val) s = answer 0x0500#16 s.ctl) ∧
    exec (.wrreg 0xF#4 val) s = answer 0x0400#16 s.ctl

/-! ## Bus commands: refusal, result, frame -/

/-- R30, R231, R232. Each of the eight bus commands is refused with `NOT_CONFIGURED` while `CONFIGURED = 0`, and changes
nothing but the response word. -/
def Obligations.BusCommandsNeedConfig : Prop :=
  ∀ (i : Instr) (s : State), i.isBusCommand = true → s.ctl.configured = false →
    exec i s = .next { s with rw := some 0x0300#16, ctl := { s.ctl with seq := Sequencer.idle } }

/-- R141, R150, R151. `WBIT` is one masked write slot: low `T_SLOT_LOW`, released `T_W1_REL` for a 1; low `T_SLOT_LOW`
and `T_W0_HOLD`, released `T_W0_REL` for a 0; with the default parameters low 6 for a 1 and 66 for a 0. -/
def Obligations.WbitWritesOneSlot : Prop :=
  ∀ (b : Bool) (s : State), s.ctl.configured = true →
    ∃ t, exec (.wbit b) s = .next t ∧ RanSlots [.write b] s t ∧ SameBlock s.ctl t.ctl ∧ t.rw = some 0x0000#16 ∧
      (t.ctl.trace = s.ctl.trace ++
        if b then [.irqSave s.gie, .low, .wait s.timing.tSlotLow, .rel, .wait s.timing.tW1Rel, .irqRestore s.gie]
        else [.irqSave s.gie, .low, .wait s.timing.tSlotLow, .wait s.timing.tW0Hold, .rel, .wait s.timing.tW0Rel,
          .irqRestore s.gie]) ∧
      (s.timing = Timing.default → t.ctl.trace = s.ctl.trace ++
        if b then [.irqSave s.gie, .low, .wait 6, .rel, .wait 64, .irqRestore s.gie]
        else [.irqSave s.gie, .low, .wait 6, .wait 60, .rel, .wait 10, .irqRestore s.gie])

/-- R142, R152, R153, R68, R85. `RBIT` is one masked read slot, low `T_SLOT_LOW`, released `T_R_SAMPLE`, sample,
released `T_R_REST`; it returns the environment's answer as 0x00 or 0x01. -/
def Obligations.RbitReadsOneSlot : Prop :=
  ∀ s : State, s.ctl.configured = true →
    ∃ (t : State) (v : Bool), exec .rbit s = .next t ∧ v = s.farSide.level .read s.draws ∧ RanSlots [.read v] s t ∧
      SameBlock s.ctl t.ctl ∧ t.rw = some (if v then 0x0001#16 else 0x0000#16) ∧
      t.ctl.trace = s.ctl.trace ++
        [.irqSave s.gie, .low, .wait s.timing.tSlotLow, .rel, .wait s.timing.tRSample, .samp v, .wait s.timing.tRRest,
          .irqRestore s.gie] ∧
      (s.timing = Timing.default → t.ctl.trace = s.ctl.trace ++
        [.irqSave s.gie, .low, .wait 6, .rel, .wait 9, .samp v, .wait 55, .irqRestore s.gie])

/-- R142, R171, R172. `PRES` is one masked reset slot, low `T_RST_LOW`, released `T_PD_WAIT`, sample, released
`T_RST_REST`; it returns 0x01 for a line low at the sample and 0x00 for a line high. -/
def Obligations.PresRunsTheResetSlot : Prop :=
  ∀ s : State, s.ctl.configured = true →
    ∃ (t : State) (v : Bool), exec .pres s = .next t ∧ v = s.farSide.level .reset s.draws ∧ RanSlots [.reset v] s t ∧
      SameBlock s.ctl t.ctl ∧ t.rw = some (if v then 0x0000#16 else 0x0001#16) ∧
      t.ctl.trace = s.ctl.trace ++
        [.irqSave s.gie, .low, .wait s.timing.tRstLow, .rel, .wait s.timing.tPdWait, .samp v, .wait s.timing.tRstRest,
          .irqRestore s.gie] ∧
      (s.timing = Timing.default → t.ctl.trace = s.ctl.trace ++
        [.irqSave s.gie, .low, .wait 480, .rel, .wait 70, .samp v, .wait 410, .irqRestore s.gie])

/-- R70, R181, R182, R186. `SENDB` is eight write slots, bit 0 first. -/
def Obligations.SendbWritesEightSlots : Prop :=
  ∀ (v : Byte) (s : State), s.ctl.configured = true →
    ∃ t, exec (.sendb v) s = .next t ∧
      RanSlots [.write (v.getLsbD 0), .write (v.getLsbD 1), .write (v.getLsbD 2), .write (v.getLsbD 3),
        .write (v.getLsbD 4), .write (v.getLsbD 5), .write (v.getLsbD 6), .write (v.getLsbD 7)] s t ∧
      SameBlock s.ctl t.ctl ∧ t.rw = some 0x0000#16

/-- R70, R183, R184, R186. `RECVB` is eight read slots, whose samples are the bits of the byte it returns, bit 0 first.
-/
def Obligations.RecvbReadsEightSlots : Prop :=
  ∀ s : State, s.ctl.configured = true →
    ∃ (t : State) (v : Byte), exec .recvb s = .next t ∧
      RanSlots [.read (v.getLsbD 0), .read (v.getLsbD 1), .read (v.getLsbD 2), .read (v.getLsbD 3),
        .read (v.getLsbD 4), .read (v.getLsbD 5), .read (v.getLsbD 6), .read (v.getLsbD 7)] s t ∧
      SameBlock s.ctl t.ctl ∧ t.rw = some (0x00#8 ++ v)

/-- R70, R185. If the eight samples of a `RECVB` are, in order, the bits that `SENDB v` puts in its write slots, the
result is `v`; the samples after them are left for the next command. -/
def Obligations.RecvbInvertsSendb : Prop :=
  ∀ (v : Byte) (later : List Bool) (s u : State), s.ctl.configured = true →
    (∃ bits : List Bool, exec (.sendb v) s = .next u ∧
      u.ctl.trace = s.ctl.trace ++ segments s.timing s.gie (bits.map .write) ∧ s.farSide = .answers (bits ++ later)) →
    ∃ t, exec .recvb s = .next t ∧ t.rw = some (0x00#8 ++ v) ∧ t.farSide = .answers later

/-- R71, R72, R119, R191. `RDROM` is the eight write slots of 0x33 (1,1,0,0,1,1,0,0) and 64 read slots, whose samples
become identifier positions 1 to 64; `LASTDEV` and the binding are unchanged and the response is 0x0000. -/
def Obligations.RdromFillsRomId : Prop :=
  ∀ s : State, s.ctl.configured = true →
    ∃ t, exec .rdrom s = .next t ∧
      RanSlots ([true, true, false, false, true, true, false, false].map .write ++ (idBits t.ctl.romId).map .read) s t ∧
      t.ctl.lastDev = s.ctl.lastDev ∧ t.rw = some 0x0000#16

/-- R71, R72, R119, R193. `MATCHROM` is the eight write slots of 0x55 (1,0,1,0,1,0,1,0) and identifier positions 1 to 64
as write slots; it samples nothing and no block register changes. -/
def Obligations.MatchromSendsRomId : Prop :=
  ∀ s : State, s.ctl.configured = true →
    ∃ t, exec .matchrom s = .next t ∧
      RanSlots ([true, false, true, false, true, false, true, false].map .write ++ (idBits s.ctl.romId).map .write) s t ∧
      SameBlock s.ctl t.ctl ∧ t.rw = some 0x0000#16 ∧ t.draws = s.draws

/-- R200, R202, R203, R234. A pass of `SRCHROM` completes whatever the environment answers: it returns 0xFF and leaves
`LASTDEV`, or it returns the deviation 0..64 that it stores in `LASTDEV`. -/
def Obligations.SrchromCompletes : Prop :=
  ∀ s : State, s.ctl.configured = true →
    ∃ t, exec .srchrom s = .next t ∧ (∃ sls, sls ≠ [] ∧ RanSlots sls s t) ∧
      (t.rw = some 0x00FF#16 ∧ t.ctl.lastDev = s.ctl.lastDev ∨
        t.rw = some (0x00#8 ++ t.ctl.lastDev) ∧ t.ctl.lastDev ≤ 0x40#8)

/-- R278, R144, R241. When no handler runs, a bus command changes nothing of the I/O space but bit `PINIDX` of
`io[DDRREF]` and of `io[PORTREF]`, and both are 0 after it. -/
def Obligations.BusCommandsChangeOnlyTheBoundBits : Prop :=
  ∀ (i : Instr) (s t : State), i.isBusCommand = true → s.ctl.configured = true → Quiet s → exec i s = .next t →
    ∀ a : Nat, t.io.read a =
      if a = s.ctl.ddrRef.toNat ∨ a = s.ctl.portRef.toNat then withBit (s.io.read a) s.ctl.pinIdx.toNat false
      else s.io.read a

/-- R62, R63, R241, R278. Whatever the handlers do, a bit of the I/O space after a bus command is what it was, or it is
a bound bit and 0, or a handler that was waiting wrote it, to that value, and it was free to; with `GIE = 0` no handler
has run. -/
def Obligations.OnlyHandlersChangeOtherBits : Prop :=
  ∀ (i : Instr) (s t : State), i.isBusCommand = true → s.ctl.configured = true → exec i s = .next t →
    (∀ a k : Nat,
      (t.io.read a).getLsbD k = (s.io.read a).getLsbD k ∨
        s.ctl.binds a k ∧ (t.io.read a).getLsbD k = false ∨
        HandlerWrites s a k ((t.io.read a).getLsbD k)) ∧
    (s.gie = false → t.handlers = s.handlers)

/-! ## SRCHROM -/

/-- R200, R201, R202, R204 to R208. A pass in which somebody answers at every position: `a p` and `b p` are the two bits
read at `p`. Each position ends as its branch says; what is returned and stored is the last position that recorded, or
0x00; the pass is 200 slots. -/
def Obligations.SearchPassFollowsItsBranches : Prop :=
  ∀ (a b : Position → Bool) (later : List Bool) (s : State), s.ctl.configured = true →
    (∀ p, ¬ (a p = true ∧ b p = true)) →
    s.farSide = .answers ((List.finRange 64).flatMap (fun p => [a p, b p]) ++ later) →
    ∃ t, exec .srchrom s = .next t ∧
      (∀ p : Position, idBit t.ctl.romId p =
        if a p ≠ b p then a p
        else if p.number = s.ctl.lastDev then true
        else if p.number > s.ctl.lastDev then false
        else idBit s.ctl.romId p) ∧
      t.ctl.lastDev =
        (match ((List.finRange 64).filter fun p =>
            decide (a p = b p) && (decide (p.number > s.ctl.lastDev) ||
              (decide (p.number < s.ctl.lastDev) && !(idBit s.ctl.romId p)))).getLast? with
          | some p => p.number
          | none => 0x00#8) ∧
      t.rw = some (0x00#8 ++ t.ctl.lastDev) ∧
      RanSlots ([false, false, false, false, true, true, true, true].map .write ++
        (List.finRange 64).flatMap (fun p => [.read (a p), .read (b p), .write (idBit t.ctl.romId p)])) s t ∧
      t.farSide = .answers later

/-- R203. A pass in which somebody answers at the positions before `p` and nobody at `p`: it returns 0xFF with status
`DONE`, issues `8 + 3(p-1) + 2` slots, none of them a write for `p`, leaves `LASTDEV`, and leaves positions `p` to 64.
-/
def Obligations.SearchAbortsWhereNobodyAnswers : Prop :=
  ∀ (a b : Position → Bool) (p : Position) (later : List Bool) (s : State), s.ctl.configured = true →
    (∀ q, q < p → ¬ (a q = true ∧ b q = true)) →
    s.farSide = .answers (((List.finRange 64).take p.val).flatMap (fun q => [a q, b q]) ++ true :: true :: later) →
    ∃ t, exec .srchrom s = .next t ∧ t.rw = some 0x00FF#16 ∧ t.ctl.lastDev = s.ctl.lastDev ∧
      (∀ q, p ≤ q → idBit t.ctl.romId q = idBit s.ctl.romId q) ∧
      (∀ q, q < p → idBit t.ctl.romId q =
        if a q ≠ b q then a q
        else if q.number = s.ctl.lastDev then true
        else if q.number > s.ctl.lastDev then false
        else idBit s.ctl.romId q) ∧
      RanSlots ([false, false, false, false, true, true, true, true].map .write ++
        ((List.finRange 64).take p.val).flatMap
          (fun q => [.read (a q), .read (b q), .write (idBit t.ctl.romId q)]) ++ [.read true, .read true]) s t ∧
      slotCount (t.ctl.trace.drop s.ctl.trace.length) = 8 + 3 * p.val + 2

/-- R200 to R208. A pass under any environment: `a p` and `b p` are the two bits sampled at `p`, as the slots of the
pass show them. Either somebody answers at every position, and each position ends as its branch says and the last that
recorded is returned and stored; or the pass aborts at the first position where nobody answers, with 0xFF and `LASTDEV`
as it was, and that position and the later ones as they were. -/
def Obligations.SearchFollowsItsSamples : Prop :=
  ∀ s : State, s.ctl.configured = true →
    ∃ (t : State) (a b : Position → Bool), exec .srchrom s = .next t ∧
      let chosen (p : Position) : Bool :=
        if a p ≠ b p then a p
        else if p.number = s.ctl.lastDev then true
        else if p.number > s.ctl.lastDev then false
        else idBit s.ctl.romId p
      let slots (ps : List Position) : List Slot :=
        [false, false, false, false, true, true, true, true].map .write ++
          ps.flatMap fun p => [.read (a p), .read (b p), .write (chosen p)]
      ((∀ p, ¬ (a p = true ∧ b p = true)) ∧ RanSlots (slots (List.finRange 64)) s t ∧
          (∀ p, idBit t.ctl.romId p = chosen p) ∧
          t.ctl.lastDev =
            (match ((List.finRange 64).filter fun p =>
                decide (a p = b p) && (decide (p.number > s.ctl.lastDev) ||
                  (decide (p.number < s.ctl.lastDev) && !(idBit s.ctl.romId p)))).getLast? with
              | some p => p.number
              | none => 0x00#8) ∧
          t.rw = some (0x00#8 ++ t.ctl.lastDev)) ∨
        ∃ p : Position, (∀ q, q < p → ¬ (a q = true ∧ b q = true)) ∧ a p = true ∧ b p = true ∧
          RanSlots (slots ((List.finRange 64).take p.val) ++ [.read true, .read true]) s t ∧
          (∀ q, q < p → idBit t.ctl.romId q = chosen q) ∧ (∀ q, p ≤ q → idBit t.ctl.romId q = idBit s.ctl.romId q) ∧
          t.ctl.lastDev = s.ctl.lastDev ∧ t.rw = some 0x00FF#16

/-- R86. A stuck-low line answers 0 at every sample: `PRES` returns "present", every byte read is 0x00, and `SRCHROM`
sees a discrepancy at every position. A stuck-high line answers 1: `PRES` returns "none", a byte read is 0xFF (R184),
and `SRCHROM` returns `DEV_NODEVICE` on the very first bit pair. Neither is a fault: every one of them completes. -/
def Obligations.StuckLines : Prop :=
  ∀ s : State, s.ctl.configured = true →
    (s.farSide = .stuck false →
      (∃ t, exec .pres s = .next t ∧ t.rw = some 0x0001#16) ∧ (∃ t, exec .rbit s = .next t ∧ t.rw = some 0x0000#16) ∧
      (∃ t, exec .recvb s = .next t ∧ t.rw = some 0x0000#16) ∧
      (∃ t, exec .rdrom s = .next t ∧ t.rw = some 0x0000#16 ∧ ∀ p, idBit t.ctl.romId p = false) ∧
      ∃ t, exec .srchrom s = .next t ∧ t.rw = some (0x00#8 ++ t.ctl.lastDev) ∧
        RanSlots ([false, false, false, false, true, true, true, true].map .write ++
          (List.finRange 64).flatMap (fun p => [.read false, .read false, .write (idBit t.ctl.romId p)])) s t ∧
        ∀ p : Position, idBit t.ctl.romId p =
          if p.number = s.ctl.lastDev then true
          else if p.number > s.ctl.lastDev then false
          else idBit s.ctl.romId p) ∧
    (s.farSide = .stuck true →
      (∃ t, exec .pres s = .next t ∧ t.rw = some 0x0000#16) ∧ (∃ t, exec .rbit s = .next t ∧ t.rw = some 0x0001#16) ∧
      (∃ t, exec .recvb s = .next t ∧ t.rw = some 0x00FF#16) ∧
      (∃ t, exec .rdrom s = .next t ∧ t.rw = some 0x0000#16 ∧ ∀ p, idBit t.ctl.romId p = true) ∧
      ∃ t, exec .srchrom s = .next t ∧ t.rw = some 0x00FF#16 ∧
        slotCount (t.ctl.trace.drop s.ctl.trace.length) = 10)

/-- R146, U9. References that are not three registers: what the line does is unspecified, so what `RBIT` and `PRES`
sample is a free value, whatever is on the platform's pins; and a bus command whose references are not one port's leaves
the line of every pin whose bits it moves unspecified. (That this is what "unspecified" comes to is the model's form,
log entry 11.) -/
def Obligations.IllAssortedReferencesAnswerAnything : Prop :=
  ∀ s : State, s.ctl.configured = true →
    (s.ctl.pin.proper = false →
      (∃ t, exec .rbit s = .next t ∧ t.rw = some (if Config.freeLevel s.draws then 0x0001#16 else 0x0000#16)) ∧
        ∃ t, exec .pres s = .next t ∧ t.rw = some (if Config.freeLevel s.draws then 0x0000#16 else 0x0001#16)) ∧
    ∀ (i : Instr) (t : State) (q : Pin), i.isBusCommand = true → exec i s = .next t → s.ctl.pin.touches q = true →
      linesAt q t.lines = .answers []

/-! ## Against the reference environment -/

/-- R91. Under `Bus(devs)` a `PRES` reports whether there is a device, and leaves every device at the start of a ROM
command. -/
def Obligations.PresenceUnderTheBus : Prop :=
  ∀ (devs : List Device) (s : State), s.ctl.configured = true → s.farSide = .bus devs →
    ∃ t, exec .pres s = .next t ∧ t.rw = some (if devs = [] then 0x0000#16 else 0x0001#16) ∧
      t.farSide = .bus (devs.map fun d => { d with st := .cmd 0 0x00#8 })

/-- R65, R92, R99. What the two bits of one search position mean: the AND of the participants' bits, then the AND of
their complements, whatever the devices that no longer take part. -/
def Obligations.SearchPairMeaning : Prop :=
  ∀ (devs : List Device) (p : Position) (s : State), s.farSide = .bus devs →
    (∀ d ∈ devs, d.st = .searchA p ∨ d.st = .idle ∨ d.st = .selected) →
    let second := (readBit (window (readBit s).2)).1
    ((readBit s).1 = true ↔ ∀ d ∈ devs, d.st = .searchA p → idBit d.rom p = true) ∧
      (second = true ↔ ∀ d ∈ devs, d.st = .searchA p → idBit d.rom p = false)

/-- R192, R92, R93, R95. Under `Bus(devs)` after a reset slot `RDROM` leaves in each position the AND of the devices'
bits there, and every device `Selected`. With no device the identifier is all ones; with one it is that device's.
Nothing is reported: the response is 0x0000. -/
def Obligations.RdromUnderTheBus : Prop :=
  ∀ (devs : List Device) (s : State), s.ctl.configured = true → s.farSide = .bus devs →
    (∀ d ∈ devs, d.st = .cmd 0 0x00#8) →
    ∃ t, exec .rdrom s = .next t ∧ t.rw = some 0x0000#16 ∧
      (∀ p, idBit t.ctl.romId p = devs.all fun d => idBit d.rom p) ∧
      t.farSide = .bus (devs.map fun d => { d with st := .selected }) ∧
      (∀ d, devs = [d] → t.ctl.romId = d.rom)

/-- R95, R96. Under `Bus(devs)` after a reset slot `MATCHROM` leaves `Selected` exactly the device whose identifier is
`ROM_ID`, and every other device `Idle`. -/
def Obligations.MatchromUnderTheBus : Prop :=
  ∀ (devs : List Device) (s : State), s.ctl.configured = true → s.farSide = .bus devs →
    (∀ d ∈ devs, d.st = .cmd 0 0x00#8) →
    ∃ t, exec .matchrom s = .next t ∧
      t.farSide = .bus (devs.map fun d => { d with st := if d.rom = s.ctl.romId then .selected else .idle })

/-- R194. On a bus with one device, `PRES; RDROM; PRES; MATCHROM` selects that device. -/
def Obligations.ReadThenMatchSelectsTheDevice : Prop :=
  ∀ (d : Device) (s : State), s.ctl.configured = true → s.farSide = .bus [d] →
    ∃ t1 t2 t3 t4, exec .pres s = .next t1 ∧ exec .rdrom t1 = .next t2 ∧ exec .pres t2 = .next t3 ∧
      exec .matchrom t3 = .next t4 ∧ t2.ctl.romId = d.rom ∧
      t4.farSide = .bus [{ d with st := .selected }]

/-- R203. On a bus with no device, and on a line stuck high, `SRCHROM` returns 0xFF on the very first bit pair: ten
slots, and no block register changes. -/
def Obligations.SearchOfAnEmptyBus : Prop :=
  ∀ s : State, s.ctl.configured = true → (s.farSide = .bus [] ∨ s.farSide = .stuck true) →
    ∃ t, exec .srchrom s = .next t ∧ t.rw = some 0x00FF#16 ∧ SameBlock s.ctl t.ctl ∧
      RanSlots ([false, false, false, false, true, true, true, true].map .write ++ [.read true, .read true]) s t

/-- R200, R208, R97. Every pass finds a device: under `Bus(devs)` with at least one device, all at the start of a ROM
command, `SRCHROM` does not abort, whatever `LASTDEV` and `ROM_ID` were; `ROM_ID` ends as the identifier of a device of
the bus; the devices with that identifier are `Selected` and all others `Idle`. -/
def Obligations.EveryPassFindsADevice : Prop :=
  ∀ (devs : List Device) (s : State), s.ctl.configured = true → s.farSide = .bus devs → devs ≠ [] →
    (∀ d ∈ devs, d.st = .cmd 0 0x00#8) →
    ∃ t, exec .srchrom s = .next t ∧ t.rw = some (0x00#8 ++ t.ctl.lastDev) ∧
      (∃ d ∈ devs, d.rom = t.ctl.romId) ∧
      t.farSide = .bus (devs.map fun d => { d with st := if d.rom = t.ctl.romId then .selected else .idle })

/-- R210, N = 1. On a bus with one device the pass finds it, returns 0x00 and stores 0x00, whatever `LASTDEV` and
`ROM_ID` were: no discrepancy is ever found. -/
def Obligations.SearchOfASingleDevice : Prop :=
  ∀ (d : Device) (s : State), s.ctl.configured = true → s.farSide = .bus [d] → d.st = .cmd 0 0x00#8 →
    ∃ t, exec .srchrom s = .next t ∧ t.ctl.romId = d.rom ∧ t.rw = some 0x0000#16 ∧ t.ctl.lastDev = 0x00#8

/-- R209, R210. Enumeration: from `LASTDEV = 0x00`, on a bus of distinct devices, the passes find exactly the
identifiers of the bus, each once, in ascending order of their bits, position 1 first; every pass but the last returns a
position 1..64 and the last one `DEV_NONE`, whatever `ROM_ID` was. On a bus with no device the first pass returns
`DEV_NODEVICE`. -/
def Obligations.EnumerationFindsEveryDevice : Prop :=
  ∀ (devs : List Device) (s : State), s.ctl.configured = true → s.farSide = .bus devs →
    (devs.map Device.rom).Nodup → s.ctl.lastDev = 0x00#8 →
    (devs ≠ [] → ∃ ids t, Enumerates s ids t ∧ ids.Perm (devs.map Device.rom) ∧ ids.Pairwise comesBefore) ∧
    (devs = [] → ∃ u t, exec .pres s = .next u ∧ exec .srchrom u = .next t ∧ t.rw = some 0x00FF#16)

/-! ## The interrupt flag and the released line -/

/-- R140, R141, R142, R143, R244. After a primitive, and after every command, `GIE` has the value it had before it. -/
def Obligations.GieIsRestored : Prop :=
  (∀ (tls : List Nat) (tr : Nat) (s : State), (pulseLow tls tr s).gie = s.gie) ∧
    (∀ (slot : SlotKind) (tl tw tr : Nat) (s : State), (pulseSample slot tl tw tr s).2.gie = s.gie) ∧
    ∀ (i : Instr) (s t : State), exec i s = .next t → t.gie = s.gie

/-- R144, R280. When a primitive ends, when `CONFIG` ends and when a bus command of a configured controller ends, the
master does not drive the line, and bit `PINIDX` of `io[DDRREF]` and of `io[PORTREF]` is 0. -/
def Obligations.PrimitivesEndReleased : Prop :=
  (∀ (tls : List Nat) (tr : Nat) (s : State), (pulseLow tls tr s).ctl.pulling = false ∧
      (pulseLow tls tr s).ctl.released (pulseLow tls tr s).io) ∧
    (∀ (slot : SlotKind) (tl tw tr : Nat) (s : State),
      (pulseSample slot tl tw tr s).2.ctl.pulling = false ∧
        (pulseSample slot tl tw tr s).2.ctl.released (pulseSample slot tl tw tr s).2.io) ∧
    (∀ (ddr port pin : Ref) (idx : PinIndex) (s t : State), exec (.config ddr port pin idx) s = .next t →
      t.ctl.pulling = false ∧ t.ctl.released t.io) ∧
    ∀ (i : Instr) (s t : State), i.isBusCommand = true → s.ctl.configured = true → exec i s = .next t →
      t.ctl.pulling = false ∧ t.ctl.released t.io

/-- R78, R80, R140, R144, R156. The trace only grows, and what a command adds keeps the discipline: the line is pulled
low and sampled only inside a masked section, no section starts inside another, every section ends with the line
released and writes back the `GIE` the command began with; and a section waits what its slot does, with the default
parameters no longer than 960 microseconds. -/
def Obligations.TracesKeepTheDiscipline : Prop :=
  ∀ (i : Instr) (s t : State), exec i s = .next t →
    ∃ new, t.ctl.trace = s.ctl.trace ++ new ∧ disciplined s.gie .outside new = true ∧
      (∀ e ∈ new, ∀ ie, e = .irqSave ie → ie = s.gie) ∧
      ∀ n ∈ sectionWaits none new, (∃ sl : Slot, n = sl.micros s.timing) ∧ (s.timing = Timing.default → n ≤ 960)

/-- R237. Every command is a bounded number of steps: at most 200 slots. -/
def Obligations.AtMostTwoHundredSlots : Prop :=
  ∀ (i : Instr) (s t : State), exec i s = .next t →
    slotCount (t.ctl.trace.drop s.ctl.trace.length) ≤ 200

/-- R285. The waits of each command, of `SRCHROM` for a full pass and for an abort at position `p`, in what the slots
wait; what the slots wait with the default parameters; and with the other reading of the write-0 slot (C4: 54 more low).
-/
def Obligations.CommandDurations : Prop :=
  ((Slot.write true).micros Timing.default = 70 ∧ (Slot.write false).micros Timing.default = 76 ∧
    (∀ v, (Slot.read v).micros Timing.default = 70) ∧ (∀ v, (Slot.reset v).micros Timing.default = 960) ∧
    Timing.default.tSettle = 480 ∧ (Slot.write false).micros { Timing.default with tW0Hold := 54 } = 70) ∧
  ∀ (s : State), s.ctl.configured = true →
    let spends (i : Instr) (ok : Nat → Prop) : Prop :=
      ∀ t, exec i s = .next t → ok (waitTotal (t.ctl.trace.drop s.ctl.trace.length))
    let w1 := (Slot.write true).micros s.timing
    let w0 := (Slot.write false).micros s.timing
    let rd := (Slot.read false).micros s.timing
    let byte (v : Byte) : Nat := w1 * (byteBits v).count true + w0 * (8 - (byteBits v).count true)
    (∀ ddr port pin idx, spends (.config ddr port pin idx) (· = s.timing.tSettle)) ∧
    spends (.wbit true) (· = w1) ∧ spends (.wbit false) (· = w0) ∧ spends .rbit (· = rd) ∧
    spends .pres (· = (Slot.reset false).micros s.timing) ∧
    (∀ v, spends (.sendb v) (· = byte v)) ∧ spends .recvb (· = 8 * rd) ∧
    spends .rdrom (· = byte 0x33#8 + 64 * rd) ∧
    spends .matchrom (· = byte 0x55#8 + ((List.finRange 8).map fun i => byte s.ctl.romId[i]).sum) ∧
    (∀ t, exec .srchrom s = .next t →
      let n := waitTotal (t.ctl.trace.drop s.ctl.trace.length)
      let searched (k : Nat) : Nat :=
        (((List.finRange 64).take k).map fun p => 2 * rd + if idBit t.ctl.romId p then w1 else w0).sum
      (t.rw ≠ some 0x00FF#16 → n = byte 0xF0#8 + searched 64) ∧
        (t.rw = some 0x00FF#16 → ∃ p : Position, n = byte 0xF0#8 + 2 * rd + searched p.val ∧
          slotCount (t.ctl.trace.drop s.ctl.trace.length) = 8 + 3 * p.val + 2)) ∧
    (∀ reg, spends (.rdreg reg) (· = 0)) ∧ (∀ reg val, spends (.wrreg reg val) (· = 0))

/-! ## The I/O space, the host and the other controllers -/

/-- R61. A write replaces the content of one I/O register: it is what that register then reads as, and every other
register reads as before; and memories in canonical form that read alike are the same. -/
def Obligations.IoReadAfterWrite : Prop :=
  (∀ (m : Memory) (a b : Nat) (v : Byte), (m.write a v).read b = if b = a then v else m.read b) ∧
    ∀ m n : Memory, m.wf → n.wf → (∀ a, m.read a = n.read a) → m = n

/-- R62, R63, R64. The three bit helpers: one bit set, one bit cleared, one bit tested, every other bit of the I/O space
unchanged. -/
def Obligations.BitHelpersChangeOneBit : Prop :=
  ∀ (r : Ref) (k : PinIndex) (s : State),
    testBit (memRead r (ioSetBit r k s)) k = true ∧ testBit (memRead r (ioClrBit r k s)) k = false ∧
      ∀ (q : Ref) (j : PinIndex), (q ≠ r ∨ j ≠ k) →
        testBit (memRead q (ioSetBit r k s)) j = testBit (memRead q s) j ∧
          testBit (memRead q (ioClrBit r k s)) j = testBit (memRead q s) j

/-- R241, R242, R278. A host write leaves the bits bound to any controller alone, gives every other bit of the register
the host's value, bit by bit, and changes no other I/O register. The bits left alone are exactly the bound ones. -/
def Obligations.HostWritesLeaveBoundBits : Prop :=
  ∀ (w : IoWrite) (s : State),
    (∀ c ∈ s.ctl :: s.parked, c.configured = true →
      testBit (memRead c.ddrRef (hostWrite w s)) c.pinIdx = testBit (memRead c.ddrRef s) c.pinIdx ∧
        testBit (memRead c.portRef (hostWrite w s)) c.pinIdx = testBit (memRead c.portRef s) c.pinIdx) ∧
    (∀ r, r ≠ w.ref → memRead r (hostWrite w s) = memRead r s) ∧
    (∀ k, k < 8 → (hostKeeps w.ref s).getLsbD k = false →
      (memRead w.ref (hostWrite w s)).getLsbD k = w.value.getLsbD k) ∧
    (∀ k, (hostKeeps w.ref s).getLsbD k = true ↔
      ∃ c ∈ s.ctl :: s.parked, c.bound = true ∧ c.binds w.ref.toNat k) ∧
    ((∀ c ∈ s.ctl :: s.parked, c.bound = false ∨ (c.ddrRef ≠ w.ref ∧ c.portRef ≠ w.ref)) →
      memRead w.ref (hostWrite w s) = w.value)

/-- R253, R241, R242, R278. Controllers do not disturb each other: a command leaves every other controller as it was,
and leaves alone the bits bound to every other configured controller that are not bound to the one that runs it,
whatever handlers run; and it leaves alone the line of every pin but its own none of whose bits it moves. (That no
handler changes a bound bit is read from R241, R242 and R278, log entry 9; that the other controllers are a list beside
the one in use is the model's form, log entry 13.) -/
def Obligations.CommandsLeaveOtherControllers : Prop :=
  ∀ (i : Instr) (s t : State), exec i s = .next t →
    t.parked = s.parked ∧
      (∀ c ∈ s.parked, c.configured = true → ∀ a k : Nat, c.binds a k → ¬ t.ctl.binds a k →
        (t.io.read a).getLsbD k = (s.io.read a).getLsbD k) ∧
      ∀ p, p ≠ t.ctl.pin → t.ctl.pin.touches p = false → linesAt p t.lines = linesAt p s.lines

/-- R33, R253, R278. The host's moves between commands. It sets or clears `GIE` and nothing else changes. It writes an
I/O register: every bit of it but the bound ones takes the host's value. It turns to another controller: the controllers
change places, and nothing else changes. (That a number no controller has changes nothing is the model's choice, log
entry 13.) -/
def Obligations.HostMovesDoWhatTheySay : Prop :=
  ∀ (s : State) (rest : List Input),
    (∀ on, s.inbox = .setGie on :: rest → step s = .next { s with inbox := rest, gie := on }) ∧
    (∀ w, s.inbox = .ioWrite w :: rest → ∃ t, step s = .next t ∧ t = { s with inbox := rest, io := t.io } ∧
      ∀ a k : Nat, (t.io.read a).getLsbD k =
        if a = w.ref.toNat ∧ (hostKeeps w.ref s).getLsbD k = false then w.value.getLsbD k
        else (s.io.read a).getLsbD k) ∧
    ∀ n, s.inbox = .select n :: rest → ∃ t, step s = .next t ∧
      t = { s with inbox := rest, ctl := t.ctl, parked := t.parked } ∧
      (t.ctl :: t.parked).Perm (s.ctl :: s.parked) ∧
      (∀ c, s.parked[n]? = some c → t.ctl = c ∧ t.parked[n]? = some s.ctl) ∧
      (s.parked[n]? = none → t.ctl = s.ctl ∧ t.parked = s.parked)

/-- R85, R86, R90. What the outside world puts on a pin is there, and nothing else changes: listed answers, a stuck
line, or devices with these identifiers, each in the state it had if it was there already and in `Idle` if it is new.
References that are no pin's, and a population with an identifier twice, change nothing. (How a change between commands
stands in the model is log entries 5, 11 and 16.) -/
def Obligations.LinesAreSetFromOutside : Prop :=
  ∀ (s : State) (rest : List Input) (p : Pin) (f : FarSide), s.inbox = .environment p f :: rest →
    ∃ t, step s = .next t ∧ t = { s with inbox := rest, lines := t.lines } ∧
      (∀ q, q ≠ p → linesAt q t.lines = linesAt q s.lines) ∧
      (p.proper = true → ∀ levels, f = .answers levels → linesAt p t.lines = .answers levels) ∧
      (p.proper = true → ∀ v, f = .stuck v → linesAt p t.lines = .stuck v) ∧
      (p.proper = true → ∀ ids, f = .population ids → ids.Nodup →
        ∃ devs, linesAt p t.lines = .bus devs ∧ devs.map Device.rom = ids ∧
          (∀ old, linesAt p s.lines = .bus old → (old.map Device.rom).Nodup →
            ∀ d ∈ devs, ∀ e ∈ old, e.rom = d.rom → d = e) ∧
          ∀ d ∈ devs, d.rom ∉ (linesAt p s.lines).population → d.st = .idle) ∧
      ((p.proper = false ∨ ∃ ids, f = .population ids ∧ ¬ ids.Nodup) → t.lines = s.lines)

/-- R13. The parameters of the step relation stay as they are: no step changes a timing parameter or the number of
controllers (R7), and no step but a change from outside adds a device to a line or takes one from it, on every pin none
of whose bits the controller in use moves by references that are not one port's. (That the parameters stand in `State`
is the model's form, log entry 26.) -/
def Obligations.ParametersStay : Prop :=
  ∀ s t : State, step s = .next t →
    t.timing = s.timing ∧ t.parked.length = s.parked.length ∧
      ((∀ p f rest, s.inbox ≠ .environment p f :: rest) → ∀ p, p.proper = true → s.ctl.pin.touches p = false →
        (linesAt p t.lines).population = (linesAt p s.lines).population)

/-- R6. The timing parameters have the document's figures as their defaults, and decide no value: from two states that
differ in nothing but the parameters and the labels of the waits, a command goes to two states that differ in nothing
else. -/
def Obligations.TimingDecidesNothing : Prop :=
  (Timing.default = ⟨6, 64, 60, 10, 9, 55, 480, 70, 410, 480⟩ ∧ State.reset.timing = Timing.default) ∧
    ∀ (i : Instr) (s u : State), s.untimed = u.untimed →
      ∃ t v, exec i s = .next t ∧ exec i u = .next v ∧ t.untimed = v.untimed

/-! ## The interference windows -/

/-- R241. In a window with `GIE = 1` the handler that is waiting runs: its writes are made, one after the other, and the
next one waits. With `GIE = 0` nothing happens. (One entry of the queue for each window is the model's form, log entry
8.) -/
def Obligations.WindowRunsTheNextHandler : Prop :=
  ∀ s : State,
    (s.gie = false → window s = s) ∧
      ∀ ws rest, s.gie = true → s.handlers = ws :: rest →
        (window s).handlers = rest ∧ window s = { s with handlers := rest, io := (window s).io } ∧
          ∀ r k, testBit (memRead r (window s)) k =
            if testBit (hostKeeps r s) k then testBit (memRead r s) k
            else bitAfter r k (testBit (memRead r s) k) ws

/-- R241. Waiting handlers run: with `GIE = 1` a bus command opens a window between any two of its slots, 7 in `SENDB`
and `RECVB`, 71 in `RDROM` and `MATCHROM`, none in a command of one slot; so many handlers run, in order, and every bit
that is bound to no controller is as they leave it. (One entry of the queue for each window is the model's form, log
entry 8.) -/
def Obligations.HandlersRunInTheWindows : Prop :=
  ∀ (i : Instr) (s t : State), i.isBusCommand = true → s.ctl.configured = true → s.gie = true → exec i s = .next t →
    Heard (slotCount (t.ctl.trace.drop s.ctl.trace.length) - 1) s t ∧
      ((∃ v, i = .sendb v) ∨ i = .recvb → Heard 7 s t) ∧ (i = .rdrom ∨ i = .matchrom → Heard 71 s t) ∧
      ((∃ b, i = .wbit b) ∨ i = .rbit ∨ i = .pres → Heard 0 s t)

/-- R241. Waiting handlers run during `CONFIG` too: with `GIE = 1` a window stands after each of its steps but the last,
five in all, and every bit that the new binding leaves free is as those handlers leave it. (Five windows at these
points, where the rule says "at any point", are the model's form, log entry 8.) -/
def Obligations.HandlersRunDuringConfig : Prop :=
  ∀ (ddr port pin : Ref) (idx : PinIndex) (s t : State), s.gie = true → exec (.config ddr port pin idx) s = .next t →
    Heard 5 { s with ctl :=
      { s.ctl with ddrRef := ddr, portRef := port, pinRef := pin, pinIdx := idx, configured := true } } t
end

