-- ==== Sys2Proof/Laws/Bits.lean ====
section
/-! SUPPORT. The bit operations: reading a bit after replacing one, the identifier by position, bytes and identifiers
as the lists of their bits. -/

namespace Sys2Proof

/-- Bit `j` after `v[k] <- b`. -/
@[simp] theorem withBit_getLsbD (v : Byte) (k j : Nat) (b : Bool) (hk : k < 8) :
    (withBit v k b).getLsbD j = if j = k then b else v.getLsbD j := by
  unfold withBit
  by_cases hj : j = k
  · subst hj
    cases b <;> simp [hk]
  · by_cases h8 : j < 8
    · have hbit : (1#8 <<< k).getLsbD j = false := by
        rw [BitVec.getLsbD_shiftLeft, BitVec.getLsbD_one]
        by_cases hlt : j < k
        · simp [hlt]
        · have : j - k ≠ 0 := by omega
          simp [this]
      cases b
      · rw [if_neg (by simp), if_neg hj, BitVec.getLsbD_and, BitVec.getLsbD_not, hbit]
        simp [h8]
      · rw [if_pos rfl, if_neg hj, BitVec.getLsbD_or, hbit, Bool.or_false]
    · have : v.getLsbD j = false := BitVec.getLsbD_of_ge _ _ (by omega)
      cases b <;> simp [hj, this, h8]

/-- Two bytes with the same eight bits are equal. -/
theorem byte_ext {v w : Byte} (h : ∀ k : Fin 8, v.getLsbD k.val = w.getLsbD k.val) : v = w := by
  apply BitVec.eq_of_getLsbD_eq
  intro i hi
  exact h ⟨i, hi⟩

/-- Replacing a bit by itself changes nothing. -/
theorem withBit_self (v : Byte) (k : Nat) (hk : k < 8) : withBit v k (v.getLsbD k) = v :=
  byte_ext fun j => by
    rw [withBit_getLsbD _ _ _ _ hk]
    split <;> simp_all

/-- Replacing the same bit twice keeps the later value. -/
theorem withBit_withBit (v : Byte) (k : Nat) (a b : Bool) (hk : k < 8) :
    withBit (withBit v k a) k b = withBit v k b :=
  byte_ext fun j => by
    simp only [withBit_getLsbD _ _ _ _ hk]
    split <;> rfl

/-- A position is determined by its byte and bit. -/
theorem Position.ext_byte_bit {p q : Position} (h1 : p.byte = q.byte) (h2 : p.bit = q.bit) : p = q := by
  simp only [Position.byte, Position.bit, Fin.mk.injEq] at h1 h2
  exact Fin.ext (by omega)

/-- A byte of the identifier after one is replaced. -/
@[simp] theorem romByte_set (id : RomId) (i j : Fin 8) (v : Byte) :
    (id.set i v)[j] = if j = i then v else id[j] := by
  by_cases h : j = i
  · subst h
    simp
  · have : i.val ≠ j.val := fun hv => h (Fin.ext hv.symm)
    simp [h, this]

/-- `IdBit(q)` after `IdBit(p) <- b` (R23). -/
@[simp] theorem idBit_withIdBit (id : RomId) (p q : Position) (b : Bool) :
    idBit (withIdBit id p b) q = if q = p then b else idBit id q := by
  unfold idBit withIdBit
  rw [romByte_set]
  by_cases hb : q.byte = p.byte
  · rw [if_pos hb, withBit_getLsbD _ _ _ _ p.bit.isLt]
    by_cases hq : q = p
    · simp [hq]
    · have : q.bit.val ≠ p.bit.val := fun h => hq (Position.ext_byte_bit hb (Fin.ext h))
      simp [hq, this, hb]
  · have hq : q ≠ p := fun h => hb (by rw [h])
    simp [hb, hq]

/-- The position of bit `k` of byte `i` (R72). -/
def positionOf (i k : Fin 8) : Position := ⟨8 * i.val + k.val, by omega⟩

@[simp] theorem positionOf_byte (i k : Fin 8) : (positionOf i k).byte = i :=
  Fin.ext (by simp only [positionOf, Position.byte]; omega)

@[simp] theorem positionOf_bit (i k : Fin 8) : (positionOf i k).bit = k :=
  Fin.ext (by simp only [positionOf, Position.bit]; omega)

theorem positionOf_byte_bit (p : Position) : positionOf p.byte p.bit = p :=
  Position.ext_byte_bit (by simp) (by simp)

/-- The identifier's bits, byte by byte (R72). -/
theorem idBit_positionOf (id : RomId) (i k : Fin 8) : idBit id (positionOf i k) = id[i].getLsbD k.val := by
  simp [idBit]

/-- Two identifiers with the same 64 bits are equal. -/
theorem romId_ext {x y : RomId} (h : ∀ p, idBit x p = idBit y p) : x = y := by
  apply Vector.ext
  intro i hi
  apply byte_ext
  intro k
  have := h (positionOf ⟨i, hi⟩ k)
  simpa [idBit_positionOf] using this

@[simp] theorem byteBits_length (v : Byte) : (byteBits v).length = 8 := by simp [byteBits]

@[simp] theorem idBits_length (id : RomId) : (idBits id).length = 64 := by simp [idBits]

/-- The bits of a byte, written out in bus order (R70). -/
theorem byteBits_eq (v : Byte) : byteBits v =
    [v.getLsbD 0, v.getLsbD 1, v.getLsbD 2, v.getLsbD 3, v.getLsbD 4, v.getLsbD 5, v.getLsbD 6, v.getLsbD 7] := rfl

theorem byteBits_inj {v w : Byte} (h : byteBits v = byteBits w) : v = w := by
  apply byte_ext
  intro k
  have := congrArg (fun l => l[k.val]?) h
  simpa [byteBits] using this

/-- The identifier travels byte by byte, each byte bit 0 first (R71). -/
theorem idBits_eq_bytes (id : RomId) :
    idBits id = (List.finRange 8).flatMap fun i => byteBits id[i] := by
  have h : List.finRange 64 = (List.finRange 8).flatMap fun i => (List.finRange 8).map (positionOf i) := by decide
  simp only [idBits, h, List.map_flatMap, List.map_map, byteBits]
  congr 1
  funext i
  apply List.map_congr_left
  intro k _
  simp [idBit_positionOf]

theorem idBits_inj {x y : RomId} (h : idBits x = idBits y) : x = y := by
  apply romId_ext
  intro p
  have := congrArg (fun l => l[p.val]?) h
  simpa [idBits] using this

/-- Positions compare as their numbers do: 1..64 fits in eight bits (R72, R200). -/
@[simp] theorem Position.number_toNat (p : Position) : p.number.toNat = p.val + 1 := by
  simp only [Position.number, BitVec.toNat_ofNat]
  have := p.isLt
  omega

theorem Position.number_inj {p q : Position} (h : p.number = q.number) : p = q := by
  have := congrArg BitVec.toNat h
  simp only [Position.number_toNat] at this
  exact Fin.ext (by omega)

theorem Position.number_le (p : Position) : p.number ≤ 0x40#8 := by
  rw [BitVec.le_def, Position.number_toNat]
  have := p.isLt
  simp

end Sys2Proof
end

