-- ==== Sys2Proof/Laws/Environment.lean ====
section
/-! SUPPORT. Environments along a run of slots: runs compose, and what an environment of each kind answers
(20_memory.md rules R85, R86, R91 to R98). -/

namespace Sys2Proof.Machine

@[simp] theorem segments_nil (tm : Timing) (ie : Bool) : segments tm ie [] = [] := rfl

@[simp] theorem segments_append (tm : Timing) (ie : Bool) (x y : List Slot) :
    segments tm ie (x ++ y) = segments tm ie x ++ segments tm ie y := by simp [segments]

@[simp] theorem segments_singleton (tm : Timing) (ie : Bool) (sl : Slot) : segments tm ie [sl] = sl.segment tm ie := by
  simp [segments]

@[simp] theorem Environment.run_nil (e : Environment) : e.run [] = e := rfl

@[simp] theorem Environment.run_cons (e : Environment) (sl : Slot) (rest : List Slot) :
    e.run (sl :: rest) = (e.next sl).run rest := rfl

@[simp] theorem Environment.run_append (e : Environment) (x y : List Slot) :
    e.run (x ++ y) = (e.run x).run y := by simp [Environment.run]

@[simp] theorem sampleCount_nil : sampleCount [] = 0 := rfl

@[simp] theorem sampleCount_append (x y : List Slot) :
    sampleCount (x ++ y) = sampleCount x + sampleCount y := by simp [sampleCount]

@[simp] theorem sampleCount_write (b : Bool) (rest : List Slot) :
    sampleCount (.write b :: rest) = sampleCount rest := by simp [sampleCount]

@[simp] theorem sampleCount_read (v : Bool) (rest : List Slot) :
    sampleCount (.read v :: rest) = sampleCount rest + 1 := by simp [sampleCount]

@[simp] theorem sampleCount_reset (v : Bool) (rest : List Slot) :
    sampleCount (.reset v :: rest) = sampleCount rest + 1 := by simp [sampleCount]

@[simp] theorem Environment.answers_nil (e : Environment) (n : Nat) : e.Answers n [] := trivial

@[simp] theorem Environment.answers_write (e : Environment) (n : Nat) (b : Bool) (rest : List Slot) :
    e.Answers n (.write b :: rest) ↔ (e.next (.write b)).Answers n rest := Iff.rfl

@[simp] theorem Environment.answers_read (e : Environment) (n : Nat) (v : Bool) (rest : List Slot) :
    e.Answers n (.read v :: rest) ↔ v = e.level .read n ∧ (e.next (.read v)).Answers (n + 1) rest := Iff.rfl

@[simp] theorem Environment.answers_reset (e : Environment) (n : Nat) (v : Bool) (rest : List Slot) :
    e.Answers n (.reset v :: rest) ↔ v = e.level .reset n ∧ (e.next (.reset v)).Answers (n + 1) rest := Iff.rfl

/-- A run of slots answered in two parts. -/
theorem Environment.answers_append (e : Environment) (n : Nat) (x y : List Slot) :
    e.Answers n (x ++ y) ↔ e.Answers n x ∧ (e.run x).Answers (n + sampleCount x) y := by
  induction x generalizing e n with
  | nil => simp
  | cons sl rest ih =>
    cases sl with
    | write b => simp [ih]
    | read v => simp [ih, and_assoc, Nat.add_assoc, Nat.add_comm 1]
    | reset v => simp [ih, and_assoc, Nat.add_assoc, Nat.add_comm 1]

/-! ## Listed answers (R85) -/

/-- Writes take nothing off the list. -/
theorem Environment.run_answers_writes (levels bits : List Bool) :
    (Environment.answers levels).run (bits.map .write) = .answers levels := by
  induction bits with
  | nil => rfl
  | cons b rest ih => simpa [Environment.next, Environment.afterSlot] using ih

/-- Reads take the listed levels in order. -/
theorem Environment.run_answers_reads (bits rest : List Bool) (vs : List Bool) (h : vs.length = bits.length) :
    (Environment.answers (bits ++ rest)).run (vs.map .read) = .answers rest := by
  induction bits generalizing vs with
  | nil => simp_all
  | cons b bs ih =>
    cases vs with
    | nil => simp at h
    | cons v vs => simpa [Environment.next, Environment.afterSample, Environment.afterSlot] using ih vs (by simpa using h)

/-- The levels read are the listed ones. -/
theorem Environment.answers_reads (n : Nat) (bits rest vs : List Bool) (h : vs.length = bits.length)
    (ha : (Environment.answers (bits ++ rest)).Answers n (vs.map .read)) : vs = bits := by
  induction bits generalizing vs n with
  | nil => simp_all
  | cons b bs ih =>
    cases vs with
    | nil => simp at h
    | cons v vs =>
      simp only [List.map_cons, Environment.answers_read, List.cons_append] at ha
      obtain ⟨hv, hr⟩ := ha
      have hv : v = b := hv
      rw [hv, ih (n + 1) vs (by simpa using h) hr]

/-! ## A stuck line (R86) -/

@[simp] theorem Environment.next_stuck (v : Bool) (sl : Slot) : (Environment.stuck v).next sl = .stuck v := by
  cases sl <;> rfl

@[simp] theorem Environment.run_stuck (v : Bool) (sls : List Slot) : (Environment.stuck v).run sls = .stuck v := by
  induction sls with
  | nil => rfl
  | cons sl rest ih => simpa using ih

/-! ## The population (R13, R90): no slot adds a device, and none leaves -/

@[simp] theorem Environment.afterSample_population (e : Environment) : e.afterSample.population = e.population := by
  cases e with
  | answers levels => cases levels <;> rfl
  | stuck v => rfl
  | bus devs => rfl

@[simp] theorem Environment.afterSlot_population (slot : SlotKind) (e : Environment) :
    (e.afterSlot slot).population = e.population := by
  cases e with
  | answers levels => rfl
  | stuck v => rfl
  | bus devs => cases slot <;> simp [afterSlot, population, busAfter, Device.advance, Device.reset, Function.comp_def]

@[simp] theorem Environment.next_population (e : Environment) (sl : Slot) : (e.next sl).population = e.population := by
  cases sl <;> simp [next]

@[simp] theorem Environment.run_population (e : Environment) (sls : List Slot) :
    (e.run sls).population = e.population := by
  induction sls generalizing e with
  | nil => rfl
  | cons sl rest ih => simp [ih]

/-- An unconstrained line stays one (R85). -/
@[simp] theorem Environment.run_unconstrained (sls : List Slot) :
    (Environment.answers []).run sls = .answers [] := by
  induction sls with
  | nil => rfl
  | cons sl rest ih => cases sl <;> simpa [next, afterSample, afterSlot] using ih

/-! ## The reference environment (R90 to R98) -/

/-- A slot's kind: what the reference environment sees of it. -/
def Slot.kind : Slot → SlotKind
  | .write b => .write b
  | .read _ => .read
  | .reset _ => .reset

@[simp] theorem Environment.next_bus (devs : List Device) (sl : Slot) :
    (Environment.bus devs).next sl = .bus (busAfter sl.kind devs) := by
  cases sl <;> rfl

@[simp] theorem Environment.level_bus (slot : SlotKind) (n : Nat) (devs : List Device) :
    (Environment.bus devs).level slot n = busAnswer slot devs := rfl

@[simp] theorem Device.advance_rom (level : Bool) (d : Device) : (d.advance level).rom = d.rom := rfl

/-- A silent device: it has been addressed, or waits for the next reset slot (R98). -/
def Device.silent (d : Device) : Prop := d.st = .idle ∨ d.st = .selected

theorem Device.silent_contribution (d : Device) (h : d.silent) : d.contribution = true := by
  rcases h with h | h <;> simp [Device.contribution, h]

theorem Device.silent_advance (level : Bool) (d : Device) (h : d.silent) : d.advance level = d := by
  rcases d with ⟨rom, st⟩
  rcases h with h | h <;> simp only at h <;> subst h <;> rfl

end Sys2Proof.Machine
end

