-- ==== Sys2Proof/Laws/Bus.lean ====
section
/-! SUPPORT. The reference environment slot by slot (20_memory.md rules R90 to R98): what each kind of slot does to a bus on
which the devices still taking part are in one state and all others are idle. -/

namespace Sys2Proof.Machine

/-- The bus on which the devices whose identifier satisfies `takesPart` are in state `st` and all others are idle. -/
def among (takesPart : RomId → Bool) (st : DeviceState) (devs : List Device) : List Device :=
  devs.map fun d => { d with st := if takesPart d.rom then st else .idle }

/-- A bus on which every device is in the same state. -/
theorem among_of_all {devs : List Device} {st : DeviceState} (h : ∀ d ∈ devs, d.st = st) :
    devs = among (fun _ => true) st devs := by
  induction devs with
  | nil => rfl
  | cons d rest ih =>
    have hd : d.st = st := h d (by simp)
    have hr := ih fun e he => h e (by simp [he])
    simp only [among, List.map_cons, if_true] at hr ⊢
    rw [← hr, ← hd]

/-- The devices after a reset slot (R91). -/
theorem busAfter_reset (devs : List Device) : busAfter .reset devs = among (fun _ => true) (.cmd 0 0#8) devs := rfl

/-- A state in which a device listens (R92, R94). -/
def DeviceState.listens : DeviceState → Bool
  | .cmd _ _ => true
  | .matching _ => true
  | .searchW _ => true
  | .idle => true
  | .selected => true
  | .readRom _ => false
  | .searchA _ => false
  | .searchB _ => false

theorem contribution_of_listens {d : Device} (h : d.st.listens = true) : d.contribution = true := by
  cases hd : d.st <;> simp_all [DeviceState.listens, Device.contribution]

/-- While everybody listens, the level of a write slot is the master's (R92). -/
theorem busLevel_listens (P : RomId → Bool) {st : DeviceState} (h : st.listens = true) (b : Bool) (devs : List Device) :
    busLevel b (among P st devs) = b := by
  have : (among P st devs).all Device.contribution = true := by
    rw [List.all_eq_true]
    intro d hd
    obtain ⟨e, -, rfl⟩ := List.mem_map.mp hd
    apply contribution_of_listens
    dsimp only
    split
    · exact h
    · rfl
  simp [busLevel, this]

/-- The state after a slot of a device in state `st` that takes part. -/
def DeviceState.after (level : Bool) (rom : RomId) (st : DeviceState) : DeviceState :=
  (Device.advance level ⟨rom, st⟩).st

theorem among_advance (P Q : RomId → Bool) (st st' : DeviceState) (level : Bool) (devs : List Device)
    (h : ∀ rom, P rom = true → st.after level rom = if Q rom then st' else .idle)
    (h' : ∀ rom, P rom = false → Q rom = false) :
    (among P st devs).map (Device.advance level) = among Q st' devs := by
  simp only [among, List.map_map]
  apply List.map_congr_left
  intro d _
  cases hp : P d.rom with
  | true =>
    have := h d.rom hp
    simp only [Function.comp, hp, if_true]
    rw [← this]
    rfl
  | false =>
    have := h' d.rom hp
    simp only [Function.comp, hp, this]
    rfl

/-! ## A command byte (R95) -/

theorem busAfter_cmd (P : RomId → Bool) (k : Nat) (h : k + 1 < 8) (acc : Byte) (b : Bool) (devs : List Device) :
    busAfter (.write b) (among P (.cmd ⟨k, Nat.lt_of_succ_lt h⟩ acc) devs) =
      among P (.cmd ⟨k + 1, h⟩ (withBit acc k b)) devs := by
  show (among P _ devs).map _ = _
  rw [busLevel_listens P rfl]
  apply among_advance
  · intro rom hp
    rw [hp, if_pos rfl]
    show (if h : k + 1 < 8 then DeviceState.cmd ⟨k + 1, h⟩ (withBit acc k b)
      else decodeRomCommand (withBit acc k b)) = _
    rw [dif_pos h]
  · exact fun _ h => h

theorem busAfter_cmd_last (P : RomId → Bool) (acc : Byte) (b : Bool) (devs : List Device) :
    busAfter (.write b) (among P (.cmd 7 acc) devs) = among P (decodeRomCommand (withBit acc 7 b)) devs := by
  show (among P _ devs).map _ = _
  rw [busLevel_listens P rfl]
  apply among_advance
  · intro rom hp
    rw [hp, if_pos rfl]
    rfl
  · exact fun _ h => h

/-- A byte received bit by bit from bit 0 is that byte (R70, R95). -/
theorem byte_of_bits (v : Byte) :
    withBit (withBit (withBit (withBit (withBit (withBit (withBit (withBit 0#8 0 (v.getLsbD 0)) 1 (v.getLsbD 1)) 2
      (v.getLsbD 2)) 3 (v.getLsbD 3)) 4 (v.getLsbD 4)) 5 (v.getLsbD 5)) 6 (v.getLsbD 6)) 7 (v.getLsbD 7) = v := by
  apply byte_ext
  intro k
  rcases k with ⟨k, hk⟩
  have : k = 0 ∨ k = 1 ∨ k = 2 ∨ k = 3 ∨ k = 4 ∨ k = 5 ∨ k = 6 ∨ k = 7 := by omega
  rcases this with rfl | rfl | rfl | rfl | rfl | rfl | rfl | rfl <;>
    simp (disch := decide) only [withBit_getLsbD] <;> rfl

/-- The devices decode the ROM command byte the master sends (R95). -/
theorem run_bus_byte (P : RomId → Bool) (v : Byte) (devs : List Device) :
    (Environment.bus (among P (.cmd 0 0#8) devs)).run (byteWriteSlots v) =
      .bus (among P (decodeRomCommand v) devs) := by
  have h0 : (0 : Fin 8) = ⟨0, by decide⟩ := rfl
  have h7 : (7 : Fin 8) = ⟨7, by decide⟩ := rfl
  simp only [byteWriteSlots, byteBits_eq, List.map_cons, List.map_nil, Environment.run_cons, Environment.run_nil,
    Environment.next_bus, Slot.kind]
  rw [h0, busAfter_cmd P 0 (by decide), busAfter_cmd P 1 (by decide), busAfter_cmd P 2 (by decide),
    busAfter_cmd P 3 (by decide), busAfter_cmd P 4 (by decide), busAfter_cmd P 5 (by decide),
    busAfter_cmd P 6 (by decide), ← h7, busAfter_cmd_last, byte_of_bits]

/-! ## READ ROM (R92, R93) -/

theorem busAfter_readRom (P : RomId → Bool) (p : Position) (devs : List Device) :
    busAfter .read (among P (.readRom p) devs) = among P (nextPosition .readRom p) devs := by
  apply among_advance
  · intro rom hp
    rw [hp, if_pos rfl]
    rfl
  · exact fun _ h => h

theorem busAnswer_readRom (P : RomId → Bool) (p : Position) (devs : List Device) :
    busAnswer .read (among P (.readRom p) devs) = devs.all fun d => !(P d.rom) || idBit d.rom p := by
  simp only [busAnswer, among, List.all_map]
  congr 1
  funext d
  cases h : P d.rom <;> simp [Device.contribution, h]

/-! ## MATCH ROM (R96) -/

theorem busAfter_matching (P : RomId → Bool) (p : Position) (b : Bool) (devs : List Device) :
    busAfter (.write b) (among P (.matching p) devs) =
      among (fun rom => P rom && (b == idBit rom p)) (nextPosition .matching p) devs := by
  show (among P (.matching p) devs).map _ = _
  rw [busLevel_listens P rfl]
  apply among_advance
  · intro rom hp
    simp only [hp, Bool.true_and, beq_iff_eq]
    rfl
  · intro rom hp
    simp [hp]

/-! ## SEARCH ROM (R93, R97, R99) -/

theorem busAfter_searchA (P : RomId → Bool) (p : Position) (devs : List Device) :
    busAfter .read (among P (.searchA p) devs) = among P (.searchB p) devs := by
  apply among_advance
  · intro rom hp
    rw [hp, if_pos rfl]
    rfl
  · exact fun _ h => h

theorem busAfter_searchB (P : RomId → Bool) (p : Position) (devs : List Device) :
    busAfter .read (among P (.searchB p) devs) = among P (.searchW p) devs := by
  apply among_advance
  · intro rom hp
    rw [hp, if_pos rfl]
    rfl
  · exact fun _ h => h

theorem busAfter_searchW (P : RomId → Bool) (p : Position) (b : Bool) (devs : List Device) :
    busAfter (.write b) (among P (.searchW p) devs) =
      among (fun rom => P rom && (b == idBit rom p)) (nextPosition .searchA p) devs := by
  show (among P (.searchW p) devs).map _ = _
  rw [busLevel_listens P rfl]
  apply among_advance
  · intro rom hp
    simp only [hp, Bool.true_and, beq_iff_eq]
    rfl
  · intro rom hp
    simp [hp]

theorem busAnswer_searchA (P : RomId → Bool) (p : Position) (devs : List Device) :
    busAnswer .read (among P (.searchA p) devs) = devs.all fun d => !(P d.rom) || idBit d.rom p := by
  simp only [busAnswer, among, List.all_map]
  congr 1
  funext d
  cases h : P d.rom <;> simp [Device.contribution, h]

theorem busAnswer_searchB (P : RomId → Bool) (p : Position) (devs : List Device) :
    busAnswer .read (among P (.searchB p) devs) = devs.all fun d => !(P d.rom) || !(idBit d.rom p) := by
  simp only [busAnswer, among, List.all_map]
  congr 1
  funext d
  cases h : P d.rom <;> simp [Device.contribution, h]

/-- One whole position of a search, from `SearchA(p)`: two reads and a write (R93, R97). -/
theorem run_bus_turn (P : RomId → Bool) (p : Position) (a b c : Bool) (devs : List Device) :
    (Environment.bus (among P (.searchA p) devs)).run [.read a, .read b, .write c] =
      .bus (among (fun rom => P rom && (c == idBit rom p)) (nextPosition .searchA p) devs) := by
  simp only [Environment.run_cons, Environment.run_nil, Environment.next_bus, Slot.kind, busAfter_searchA,
    busAfter_searchB, busAfter_searchW]

/-- What the two reads of a position answer (R99). -/
theorem answers_bus_turn (P : RomId → Bool) (p : Position) (a b : Bool) (rest : List Slot) (n : Nat)
    (devs : List Device) :
    (Environment.bus (among P (.searchA p) devs)).Answers n (.read a :: .read b :: rest) ↔
      (a = devs.all fun d => !(P d.rom) || idBit d.rom p) ∧
        (b = devs.all fun d => !(P d.rom) || !(idBit d.rom p)) ∧
        (Environment.bus (among P (.searchW p) devs)).Answers (n + 1 + 1) rest := by
  simp only [Environment.answers_read, Environment.next_bus, Slot.kind, busAfter_searchA, busAfter_searchB,
    Environment.level_bus, busAnswer_searchA, busAnswer_searchB]

end Sys2Proof.Machine
end

