-- ==== Sys2Proof/Laws/State.lean ====
section
/-! SUPPORT. One lemma per field of State per update, each true by rfl, so that no later proof unfolds a record update;
then the same for the operations that touch nothing but the controller in use. -/

namespace Sys2Proof.Machine

/-- States with the same fields are the same. -/
theorem State.ext_fields {s t : State} (ctl : s.ctl = t.ctl) (parked : s.parked = t.parked) (gie : s.gie = t.gie)
    (io : s.io = t.io) (timing : s.timing = t.timing) (lines : s.lines = t.lines) (rw : s.rw = t.rw)
    (inbox : s.inbox = t.inbox) (handlers : s.handlers = t.handlers) (draws : s.draws = t.draws) : s = t := by
  cases s
  cases t
  simp_all

variable (s : State)

@[simp] theorem onCtl_ctl (f : Controller → Controller) : (s.onCtl f).ctl = f s.ctl := rfl
@[simp] theorem onCtl_parked (f : Controller → Controller) : (s.onCtl f).parked = s.parked := rfl
@[simp] theorem onCtl_gie (f : Controller → Controller) : (s.onCtl f).gie = s.gie := rfl
@[simp] theorem onCtl_io (f : Controller → Controller) : (s.onCtl f).io = s.io := rfl
@[simp] theorem onCtl_rw (f : Controller → Controller) : (s.onCtl f).rw = s.rw := rfl
@[simp] theorem onCtl_inbox (f : Controller → Controller) : (s.onCtl f).inbox = s.inbox := rfl
@[simp] theorem onCtl_handlers (f : Controller → Controller) : (s.onCtl f).handlers = s.handlers := rfl
@[simp] theorem onCtl_draws (f : Controller → Controller) : (s.onCtl f).draws = s.draws := rfl
@[simp] theorem onCtl_timing (f : Controller → Controller) : (s.onCtl f).timing = s.timing := rfl
@[simp] theorem onCtl_lines (f : Controller → Controller) : (s.onCtl f).lines = s.lines := rfl

@[simp] theorem onSeq_ctl (f : Sequencer → Sequencer) : (s.onSeq f).ctl = { s.ctl with seq := f s.ctl.seq } := rfl
@[simp] theorem onSeq_parked (f : Sequencer → Sequencer) : (s.onSeq f).parked = s.parked := rfl
@[simp] theorem onSeq_gie (f : Sequencer → Sequencer) : (s.onSeq f).gie = s.gie := rfl
@[simp] theorem onSeq_io (f : Sequencer → Sequencer) : (s.onSeq f).io = s.io := rfl
@[simp] theorem onSeq_rw (f : Sequencer → Sequencer) : (s.onSeq f).rw = s.rw := rfl
@[simp] theorem onSeq_inbox (f : Sequencer → Sequencer) : (s.onSeq f).inbox = s.inbox := rfl
@[simp] theorem onSeq_handlers (f : Sequencer → Sequencer) : (s.onSeq f).handlers = s.handlers := rfl
@[simp] theorem onSeq_draws (f : Sequencer → Sequencer) : (s.onSeq f).draws = s.draws := rfl
@[simp] theorem onSeq_timing (f : Sequencer → Sequencer) : (s.onSeq f).timing = s.timing := rfl
@[simp] theorem onSeq_lines (f : Sequencer → Sequencer) : (s.onSeq f).lines = s.lines := rfl

@[simp] theorem emit_ctl (e : Event) : (emit e s).ctl = { s.ctl with trace := s.ctl.trace ++ [e] } := rfl
@[simp] theorem emit_parked (e : Event) : (emit e s).parked = s.parked := rfl
@[simp] theorem emit_gie (e : Event) : (emit e s).gie = s.gie := rfl
@[simp] theorem emit_io (e : Event) : (emit e s).io = s.io := rfl
@[simp] theorem emit_rw (e : Event) : (emit e s).rw = s.rw := rfl
@[simp] theorem emit_inbox (e : Event) : (emit e s).inbox = s.inbox := rfl
@[simp] theorem emit_handlers (e : Event) : (emit e s).handlers = s.handlers := rfl
@[simp] theorem emit_draws (e : Event) : (emit e s).draws = s.draws := rfl
@[simp] theorem emit_timing (e : Event) : (emit e s).timing = s.timing := rfl
@[simp] theorem emit_lines (e : Event) : (emit e s).lines = s.lines := rfl

@[simp] theorem setRomId_ctl (id : RomId) : (setRomId id s).ctl = { s.ctl with romId := id } := rfl
@[simp] theorem setRomId_parked (id : RomId) : (setRomId id s).parked = s.parked := rfl
@[simp] theorem setRomId_gie (id : RomId) : (setRomId id s).gie = s.gie := rfl
@[simp] theorem setRomId_io (id : RomId) : (setRomId id s).io = s.io := rfl
@[simp] theorem setRomId_rw (id : RomId) : (setRomId id s).rw = s.rw := rfl
@[simp] theorem setRomId_inbox (id : RomId) : (setRomId id s).inbox = s.inbox := rfl
@[simp] theorem setRomId_handlers (id : RomId) : (setRomId id s).handlers = s.handlers := rfl
@[simp] theorem setRomId_draws (id : RomId) : (setRomId id s).draws = s.draws := rfl
@[simp] theorem setRomId_timing (id : RomId) : (setRomId id s).timing = s.timing := rfl
@[simp] theorem setRomId_lines (id : RomId) : (setRomId id s).lines = s.lines := rfl

@[simp] theorem setLastDev_ctl (v : Byte) : (setLastDev v s).ctl = { s.ctl with lastDev := v } := rfl
@[simp] theorem setLastDev_parked (v : Byte) : (setLastDev v s).parked = s.parked := rfl
@[simp] theorem setLastDev_gie (v : Byte) : (setLastDev v s).gie = s.gie := rfl
@[simp] theorem setLastDev_io (v : Byte) : (setLastDev v s).io = s.io := rfl
@[simp] theorem setLastDev_rw (v : Byte) : (setLastDev v s).rw = s.rw := rfl
@[simp] theorem setLastDev_inbox (v : Byte) : (setLastDev v s).inbox = s.inbox := rfl
@[simp] theorem setLastDev_handlers (v : Byte) : (setLastDev v s).handlers = s.handlers := rfl
@[simp] theorem setLastDev_draws (v : Byte) : (setLastDev v s).draws = s.draws := rfl
@[simp] theorem setLastDev_timing (v : Byte) : (setLastDev v s).timing = s.timing := rfl
@[simp] theorem setLastDev_lines (v : Byte) : (setLastDev v s).lines = s.lines := rfl

@[simp] theorem bindPin_ctl (ddr port pin : Ref) (idx : PinIndex) : (bindPin ddr port pin idx s).ctl = { s.ctl with ddrRef := ddr, portRef := port, pinRef := pin, pinIdx := idx } := rfl
@[simp] theorem bindPin_parked (ddr port pin : Ref) (idx : PinIndex) : (bindPin ddr port pin idx s).parked = s.parked := rfl
@[simp] theorem bindPin_gie (ddr port pin : Ref) (idx : PinIndex) : (bindPin ddr port pin idx s).gie = s.gie := rfl
@[simp] theorem bindPin_io (ddr port pin : Ref) (idx : PinIndex) : (bindPin ddr port pin idx s).io = s.io := rfl
@[simp] theorem bindPin_rw (ddr port pin : Ref) (idx : PinIndex) : (bindPin ddr port pin idx s).rw = s.rw := rfl
@[simp] theorem bindPin_inbox (ddr port pin : Ref) (idx : PinIndex) : (bindPin ddr port pin idx s).inbox = s.inbox := rfl
@[simp] theorem bindPin_handlers (ddr port pin : Ref) (idx : PinIndex) : (bindPin ddr port pin idx s).handlers = s.handlers := rfl
@[simp] theorem bindPin_draws (ddr port pin : Ref) (idx : PinIndex) : (bindPin ddr port pin idx s).draws = s.draws := rfl
@[simp] theorem bindPin_timing (ddr port pin : Ref) (idx : PinIndex) : (bindPin ddr port pin idx s).timing = s.timing := rfl
@[simp] theorem bindPin_lines (ddr port pin : Ref) (idx : PinIndex) : (bindPin ddr port pin idx s).lines = s.lines := rfl

@[simp] theorem setConfigured_ctl : (setConfigured s).ctl = { s.ctl with configured := true } := rfl
@[simp] theorem setConfigured_parked : (setConfigured s).parked = s.parked := rfl
@[simp] theorem setConfigured_gie : (setConfigured s).gie = s.gie := rfl
@[simp] theorem setConfigured_io : (setConfigured s).io = s.io := rfl
@[simp] theorem setConfigured_rw : (setConfigured s).rw = s.rw := rfl
@[simp] theorem setConfigured_inbox : (setConfigured s).inbox = s.inbox := rfl
@[simp] theorem setConfigured_handlers : (setConfigured s).handlers = s.handlers := rfl
@[simp] theorem setConfigured_draws : (setConfigured s).draws = s.draws := rfl
@[simp] theorem setConfigured_timing : (setConfigured s).timing = s.timing := rfl
@[simp] theorem setConfigured_lines : (setConfigured s).lines = s.lines := rfl

@[simp] theorem setPulling_ctl (b : Bool) : (setPulling b s).ctl = { s.ctl with pulling := b } := rfl
@[simp] theorem setPulling_parked (b : Bool) : (setPulling b s).parked = s.parked := rfl
@[simp] theorem setPulling_gie (b : Bool) : (setPulling b s).gie = s.gie := rfl
@[simp] theorem setPulling_io (b : Bool) : (setPulling b s).io = s.io := rfl
@[simp] theorem setPulling_rw (b : Bool) : (setPulling b s).rw = s.rw := rfl
@[simp] theorem setPulling_inbox (b : Bool) : (setPulling b s).inbox = s.inbox := rfl
@[simp] theorem setPulling_handlers (b : Bool) : (setPulling b s).handlers = s.handlers := rfl
@[simp] theorem setPulling_draws (b : Bool) : (setPulling b s).draws = s.draws := rfl
@[simp] theorem setPulling_timing (b : Bool) : (setPulling b s).timing = s.timing := rfl
@[simp] theorem setPulling_lines (b : Bool) : (setPulling b s).lines = s.lines := rfl

@[simp] theorem setI_ctl (i : Fin 8) : (setI i s).ctl = { s.ctl with seq := { s.ctl.seq with i := i } } := rfl
@[simp] theorem setI_parked (i : Fin 8) : (setI i s).parked = s.parked := rfl
@[simp] theorem setI_gie (i : Fin 8) : (setI i s).gie = s.gie := rfl
@[simp] theorem setI_io (i : Fin 8) : (setI i s).io = s.io := rfl
@[simp] theorem setI_rw (i : Fin 8) : (setI i s).rw = s.rw := rfl
@[simp] theorem setI_inbox (i : Fin 8) : (setI i s).inbox = s.inbox := rfl
@[simp] theorem setI_handlers (i : Fin 8) : (setI i s).handlers = s.handlers := rfl
@[simp] theorem setI_draws (i : Fin 8) : (setI i s).draws = s.draws := rfl
@[simp] theorem setI_timing (i : Fin 8) : (setI i s).timing = s.timing := rfl
@[simp] theorem setI_lines (i : Fin 8) : (setI i s).lines = s.lines := rfl

@[simp] theorem setK_ctl (k : Fin 8) : (setK k s).ctl = { s.ctl with seq := { s.ctl.seq with k := k } } := rfl
@[simp] theorem setK_parked (k : Fin 8) : (setK k s).parked = s.parked := rfl
@[simp] theorem setK_gie (k : Fin 8) : (setK k s).gie = s.gie := rfl
@[simp] theorem setK_io (k : Fin 8) : (setK k s).io = s.io := rfl
@[simp] theorem setK_rw (k : Fin 8) : (setK k s).rw = s.rw := rfl
@[simp] theorem setK_inbox (k : Fin 8) : (setK k s).inbox = s.inbox := rfl
@[simp] theorem setK_handlers (k : Fin 8) : (setK k s).handlers = s.handlers := rfl
@[simp] theorem setK_draws (k : Fin 8) : (setK k s).draws = s.draws := rfl
@[simp] theorem setK_timing (k : Fin 8) : (setK k s).timing = s.timing := rfl
@[simp] theorem setK_lines (k : Fin 8) : (setK k s).lines = s.lines := rfl

@[simp] theorem setAcc_ctl (v : Byte) : (setAcc v s).ctl = { s.ctl with seq := { s.ctl.seq with acc := v } } := rfl
@[simp] theorem setAcc_parked (v : Byte) : (setAcc v s).parked = s.parked := rfl
@[simp] theorem setAcc_gie (v : Byte) : (setAcc v s).gie = s.gie := rfl
@[simp] theorem setAcc_io (v : Byte) : (setAcc v s).io = s.io := rfl
@[simp] theorem setAcc_rw (v : Byte) : (setAcc v s).rw = s.rw := rfl
@[simp] theorem setAcc_inbox (v : Byte) : (setAcc v s).inbox = s.inbox := rfl
@[simp] theorem setAcc_handlers (v : Byte) : (setAcc v s).handlers = s.handlers := rfl
@[simp] theorem setAcc_draws (v : Byte) : (setAcc v s).draws = s.draws := rfl
@[simp] theorem setAcc_timing (v : Byte) : (setAcc v s).timing = s.timing := rfl
@[simp] theorem setAcc_lines (v : Byte) : (setAcc v s).lines = s.lines := rfl

@[simp] theorem setP_ctl (p : Position) : (setP p s).ctl = { s.ctl with seq := { s.ctl.seq with p := p } } := rfl
@[simp] theorem setP_parked (p : Position) : (setP p s).parked = s.parked := rfl
@[simp] theorem setP_gie (p : Position) : (setP p s).gie = s.gie := rfl
@[simp] theorem setP_io (p : Position) : (setP p s).io = s.io := rfl
@[simp] theorem setP_rw (p : Position) : (setP p s).rw = s.rw := rfl
@[simp] theorem setP_inbox (p : Position) : (setP p s).inbox = s.inbox := rfl
@[simp] theorem setP_handlers (p : Position) : (setP p s).handlers = s.handlers := rfl
@[simp] theorem setP_draws (p : Position) : (setP p s).draws = s.draws := rfl
@[simp] theorem setP_timing (p : Position) : (setP p s).timing = s.timing := rfl
@[simp] theorem setP_lines (p : Position) : (setP p s).lines = s.lines := rfl

@[simp] theorem setA_ctl (v : Bool) : (setA v s).ctl = { s.ctl with seq := { s.ctl.seq with a := v } } := rfl
@[simp] theorem setA_parked (v : Bool) : (setA v s).parked = s.parked := rfl
@[simp] theorem setA_gie (v : Bool) : (setA v s).gie = s.gie := rfl
@[simp] theorem setA_io (v : Bool) : (setA v s).io = s.io := rfl
@[simp] theorem setA_rw (v : Bool) : (setA v s).rw = s.rw := rfl
@[simp] theorem setA_inbox (v : Bool) : (setA v s).inbox = s.inbox := rfl
@[simp] theorem setA_handlers (v : Bool) : (setA v s).handlers = s.handlers := rfl
@[simp] theorem setA_draws (v : Bool) : (setA v s).draws = s.draws := rfl
@[simp] theorem setA_timing (v : Bool) : (setA v s).timing = s.timing := rfl
@[simp] theorem setA_lines (v : Bool) : (setA v s).lines = s.lines := rfl

@[simp] theorem setB_ctl (v : Bool) : (setB v s).ctl = { s.ctl with seq := { s.ctl.seq with b := v } } := rfl
@[simp] theorem setB_parked (v : Bool) : (setB v s).parked = s.parked := rfl
@[simp] theorem setB_gie (v : Bool) : (setB v s).gie = s.gie := rfl
@[simp] theorem setB_io (v : Bool) : (setB v s).io = s.io := rfl
@[simp] theorem setB_rw (v : Bool) : (setB v s).rw = s.rw := rfl
@[simp] theorem setB_inbox (v : Bool) : (setB v s).inbox = s.inbox := rfl
@[simp] theorem setB_handlers (v : Bool) : (setB v s).handlers = s.handlers := rfl
@[simp] theorem setB_draws (v : Bool) : (setB v s).draws = s.draws := rfl
@[simp] theorem setB_timing (v : Bool) : (setB v s).timing = s.timing := rfl
@[simp] theorem setB_lines (v : Bool) : (setB v s).lines = s.lines := rfl

@[simp] theorem setNewDev_ctl (v : Byte) : (setNewDev v s).ctl = { s.ctl with seq := { s.ctl.seq with newDev := v } } := rfl
@[simp] theorem setNewDev_parked (v : Byte) : (setNewDev v s).parked = s.parked := rfl
@[simp] theorem setNewDev_gie (v : Byte) : (setNewDev v s).gie = s.gie := rfl
@[simp] theorem setNewDev_io (v : Byte) : (setNewDev v s).io = s.io := rfl
@[simp] theorem setNewDev_rw (v : Byte) : (setNewDev v s).rw = s.rw := rfl
@[simp] theorem setNewDev_inbox (v : Byte) : (setNewDev v s).inbox = s.inbox := rfl
@[simp] theorem setNewDev_handlers (v : Byte) : (setNewDev v s).handlers = s.handlers := rfl
@[simp] theorem setNewDev_draws (v : Byte) : (setNewDev v s).draws = s.draws := rfl
@[simp] theorem setNewDev_timing (v : Byte) : (setNewDev v s).timing = s.timing := rfl
@[simp] theorem setNewDev_lines (v : Byte) : (setNewDev v s).lines = s.lines := rfl

@[simp] theorem memWrite_io (r : Ref) (v : Byte) : (memWrite r v s).io = s.io.write r.toNat v := rfl
@[simp] theorem memWrite_ctl (r : Ref) (v : Byte) : (memWrite r v s).ctl = s.ctl := rfl
@[simp] theorem memWrite_parked (r : Ref) (v : Byte) : (memWrite r v s).parked = s.parked := rfl
@[simp] theorem memWrite_gie (r : Ref) (v : Byte) : (memWrite r v s).gie = s.gie := rfl
@[simp] theorem memWrite_rw (r : Ref) (v : Byte) : (memWrite r v s).rw = s.rw := rfl
@[simp] theorem memWrite_inbox (r : Ref) (v : Byte) : (memWrite r v s).inbox = s.inbox := rfl
@[simp] theorem memWrite_handlers (r : Ref) (v : Byte) : (memWrite r v s).handlers = s.handlers := rfl
@[simp] theorem memWrite_draws (r : Ref) (v : Byte) : (memWrite r v s).draws = s.draws := rfl
@[simp] theorem memWrite_timing (r : Ref) (v : Byte) : (memWrite r v s).timing = s.timing := rfl
@[simp] theorem memWrite_lines (r : Ref) (v : Byte) : (memWrite r v s).lines = s.lines := rfl

@[simp] theorem irqSave_ctl : (irqSave s).ctl =
    { s.ctl with savedIe := s.gie, trace := s.ctl.trace ++ [.irqSave s.gie] } := rfl
@[simp] theorem irqSave_gie : (irqSave s).gie = false := rfl
@[simp] theorem irqSave_parked : (irqSave s).parked = s.parked := rfl
@[simp] theorem irqSave_io : (irqSave s).io = s.io := rfl
@[simp] theorem irqSave_rw : (irqSave s).rw = s.rw := rfl
@[simp] theorem irqSave_inbox : (irqSave s).inbox = s.inbox := rfl
@[simp] theorem irqSave_handlers : (irqSave s).handlers = s.handlers := rfl
@[simp] theorem irqSave_draws : (irqSave s).draws = s.draws := rfl
@[simp] theorem irqSave_timing : (irqSave s).timing = s.timing := rfl
@[simp] theorem irqSave_lines : (irqSave s).lines = s.lines := rfl

@[simp] theorem irqRestore_ctl : (irqRestore s).ctl =
    { s.ctl with trace := s.ctl.trace ++ [.irqRestore s.ctl.savedIe] } := rfl
@[simp] theorem irqRestore_gie : (irqRestore s).gie = s.ctl.savedIe := rfl
@[simp] theorem irqRestore_parked : (irqRestore s).parked = s.parked := rfl
@[simp] theorem irqRestore_io : (irqRestore s).io = s.io := rfl
@[simp] theorem irqRestore_rw : (irqRestore s).rw = s.rw := rfl
@[simp] theorem irqRestore_inbox : (irqRestore s).inbox = s.inbox := rfl
@[simp] theorem irqRestore_handlers : (irqRestore s).handlers = s.handlers := rfl
@[simp] theorem irqRestore_draws : (irqRestore s).draws = s.draws := rfl
@[simp] theorem irqRestore_timing : (irqRestore s).timing = s.timing := rfl
@[simp] theorem irqRestore_lines : (irqRestore s).lines = s.lines := rfl

@[simp] theorem respond_ctl (st : Status) (v : Byte) : (respond st v s).ctl = { s.ctl with seq := Sequencer.idle } := rfl
@[simp] theorem respond_rw (st : Status) (v : Byte) : (respond st v s).rw = some (responseWord st v) := rfl
@[simp] theorem respond_parked (st : Status) (v : Byte) : (respond st v s).parked = s.parked := rfl
@[simp] theorem respond_gie (st : Status) (v : Byte) : (respond st v s).gie = s.gie := rfl
@[simp] theorem respond_io (st : Status) (v : Byte) : (respond st v s).io = s.io := rfl
@[simp] theorem respond_inbox (st : Status) (v : Byte) : (respond st v s).inbox = s.inbox := rfl
@[simp] theorem respond_handlers (st : Status) (v : Byte) : (respond st v s).handlers = s.handlers := rfl
@[simp] theorem respond_draws (st : Status) (v : Byte) : (respond st v s).draws = s.draws := rfl
@[simp] theorem respond_timing (st : Status) (v : Byte) : (respond st v s).timing = s.timing := rfl
@[simp] theorem respond_lines (st : Status) (v : Byte) : (respond st v s).lines = s.lines := rfl

@[simp] theorem refuse_ctl (st : Status) : (refuse st s).ctl = { s.ctl with seq := Sequencer.idle } := rfl
@[simp] theorem refuse_rw (st : Status) : (refuse st s).rw = some (responseWord st 0x00#8) := rfl
@[simp] theorem refuse_parked (st : Status) : (refuse st s).parked = s.parked := rfl
@[simp] theorem refuse_gie (st : Status) : (refuse st s).gie = s.gie := rfl
@[simp] theorem refuse_io (st : Status) : (refuse st s).io = s.io := rfl
@[simp] theorem refuse_inbox (st : Status) : (refuse st s).inbox = s.inbox := rfl
@[simp] theorem refuse_handlers (st : Status) : (refuse st s).handlers = s.handlers := rfl
@[simp] theorem refuse_draws (st : Status) : (refuse st s).draws = s.draws := rfl
@[simp] theorem refuse_timing (st : Status) : (refuse st s).timing = s.timing := rfl
@[simp] theorem refuse_lines (st : Status) : (refuse st s).lines = s.lines := rfl

@[simp] theorem accept_ctl (i : Instr) : (accept i s).ctl =
    { s.ctl with seq := { Sequencer.idle with op := some i } } := rfl
@[simp] theorem accept_parked (i : Instr) : (accept i s).parked = s.parked := rfl
@[simp] theorem accept_gie (i : Instr) : (accept i s).gie = s.gie := rfl
@[simp] theorem accept_io (i : Instr) : (accept i s).io = s.io := rfl
@[simp] theorem accept_rw (i : Instr) : (accept i s).rw = s.rw := rfl
@[simp] theorem accept_inbox (i : Instr) : (accept i s).inbox = s.inbox := rfl
@[simp] theorem accept_handlers (i : Instr) : (accept i s).handlers = s.handlers := rfl
@[simp] theorem accept_draws (i : Instr) : (accept i s).draws = s.draws := rfl
@[simp] theorem accept_timing (i : Instr) : (accept i s).timing = s.timing := rfl
@[simp] theorem accept_lines (i : Instr) : (accept i s).lines = s.lines := rfl

/-! The environment of the pin in use moves (R85): nothing but the lines. -/

theorem setEnv_eq (e : Environment) : setEnv e s = { s with lines := (setEnv e s).lines } := by
  unfold setEnv
  split <;> rfl

@[simp] theorem setEnv_ctl (e : Environment) : (setEnv e s).ctl = s.ctl := by rw [setEnv_eq]
@[simp] theorem setEnv_parked (e : Environment) : (setEnv e s).parked = s.parked := by rw [setEnv_eq]
@[simp] theorem setEnv_gie (e : Environment) : (setEnv e s).gie = s.gie := by rw [setEnv_eq]
@[simp] theorem setEnv_io (e : Environment) : (setEnv e s).io = s.io := by rw [setEnv_eq]
@[simp] theorem setEnv_rw (e : Environment) : (setEnv e s).rw = s.rw := by rw [setEnv_eq]
@[simp] theorem setEnv_inbox (e : Environment) : (setEnv e s).inbox = s.inbox := by rw [setEnv_eq]
@[simp] theorem setEnv_handlers (e : Environment) : (setEnv e s).handlers = s.handlers := by rw [setEnv_eq]
@[simp] theorem setEnv_draws (e : Environment) : (setEnv e s).draws = s.draws := by rw [setEnv_eq]
@[simp] theorem setEnv_timing (e : Environment) : (setEnv e s).timing = s.timing := by rw [setEnv_eq]

end Sys2Proof.Machine
end

