-- ==== Sys2Proof/Laws/Lines.lean ====
section
/-! SUPPORT. The laws of the lines: what is on a pin after another was put on it, that every operation keeps the canonical
form, and what moving the environment of the pin in use leaves alone (20_memory.md rules R85, R90, 40_line_control.md rule
R146). -/

namespace Sys2Proof.Machine

theorem Pin.key_inj {p q : Pin} (h : p.key = q.key) : p = q := by
  obtain ⟨a, b, c, d⟩ := p
  obtain ⟨a', b', c', d'⟩ := q
  simp only [key, Pin.mk.injEq, BitVec.toNat_eq] at h ⊢
  omega

@[simp] theorem Pin.touches_self (p : Pin) : p.touches p = false := by simp [touches]

/-! ## What is on a pin -/

variable (ls : List Line)

@[simp] theorem linesAt_nil (p : Pin) : linesAt p [] = .answers [] := rfl

theorem linesAt_cons (p : Pin) (l : Line) :
    linesAt p (l :: ls) = if l.pin = p then l.env else linesAt p ls := rfl

theorem linesAt_absent (p : Pin) (h : ∀ l ∈ ls, l.pin ≠ p) : linesAt p ls = .answers [] := by
  induction ls with
  | nil => rfl
  | cons l rest ih => rw [linesAt_cons, if_neg (h l (by simp)), ih fun m hm => h m (by simp [hm])]

theorem linesAt_filter (f : Line → Bool) (p : Pin) (h : ∀ l, l.pin = p → f l = true) :
    linesAt p (ls.filter f) = linesAt p ls := by
  induction ls with
  | nil => rfl
  | cons l rest ih =>
    rw [List.filter_cons, linesAt_cons]
    by_cases hp : l.pin = p
    · rw [if_pos (h l hp), linesAt_cons, if_pos hp, if_pos hp]
    · split
      · rw [linesAt_cons, if_neg hp, ih]
      · exact ih

theorem linesErase_absent (p : Pin) : ∀ l ∈ linesErase p ls, l.pin ≠ p := by
  intro l hl
  simpa using (List.mem_filter.mp hl).2

theorem linesAt_erase (p q : Pin) : linesAt q (linesErase p ls) = if q = p then .answers [] else linesAt q ls := by
  split
  · rename_i h
    exact linesAt_absent _ _ (h ▸ linesErase_absent ls p)
  · rename_i h
    exact linesAt_filter ls _ q fun l hl => by simpa [hl] using h

theorem mem_linesInsert (l m : Line) : m ∈ linesInsert l ls ↔ m = l ∨ m ∈ ls := by
  induction ls with
  | nil => simp [linesInsert]
  | cons x rest ih =>
    unfold linesInsert
    split
    · simp
    · simp only [List.mem_cons, ih]
      tauto

theorem linesAt_insert (l : Line) (q : Pin) (h : ∀ m ∈ ls, m.pin ≠ l.pin) :
    linesAt q (linesInsert l ls) = if q = l.pin then l.env else linesAt q ls := by
  induction ls with
  | nil => simp [linesInsert, linesAt_cons, eq_comm]
  | cons x rest ih =>
    unfold linesInsert
    split
    · simp [linesAt_cons, eq_comm]
    · have hx := h x (by simp)
      rw [linesAt_cons, linesAt_cons, ih fun m hm => h m (by simp [hm])]
      by_cases hq : x.pin = q
      · rw [if_pos hq, if_neg fun hql => hx (hq.trans hql), if_pos hq]
      · rw [if_neg hq, if_neg hq]

/-- What is on a pin after something was put on one. -/
@[simp] theorem linesAt_put (p q : Pin) (e : Environment) :
    linesAt q (linesPut p e ls) = if q = p then e else linesAt q ls := by
  unfold linesPut
  split
  · rename_i he
    rw [linesAt_erase, he]
  · rw [linesAt_insert _ _ _ (linesErase_absent ls p), linesAt_erase]
    split
    · rfl
    · rfl

/-- A pin none of whose bits is moved keeps what is on it (R146). -/
theorem linesAt_disturb {p q : Pin} (h : p.touches q = false) : linesAt q (linesDisturb p ls) = linesAt q ls :=
  linesAt_filter ls _ q fun l hl => by simp [hl, h]

/-- A line whose bits are moved is unspecified (R146, U9). -/
theorem linesAt_disturbed {p q : Pin} (h : p.touches q = true) : linesAt q (linesDisturb p ls) = .answers [] := by
  refine linesAt_absent _ _ fun l hl hq => ?_
  have := (List.mem_filter.mp hl).2
  rw [hq, h] at this
  exact Bool.noConfusion this

/-! ## The canonical form -/

variable {ls}

theorem LinesWf.nil : LinesWf [] := by simp [LinesWf]

theorem LinesWf.filter (h : LinesWf ls) (f : Line → Bool) : LinesWf (ls.filter f) :=
  ⟨h.1.sublist List.filter_sublist, fun l hl => h.2 l (List.mem_filter.mp hl).1⟩

theorem LinesWf.insert (h : LinesWf ls) {l : Line}
    (hl : l.pin.proper = true ∧ l.env ≠ .answers [] ∧ l.env.population.Nodup) (habs : ∀ m ∈ ls, m.pin ≠ l.pin) :
    LinesWf (linesInsert l ls) := by
  refine ⟨?_, fun m hm => ?_⟩
  · have hp := h.1
    clear h
    induction ls with
    | nil => simp [linesInsert]
    | cons x rest ih =>
      unfold linesInsert
      rw [List.pairwise_cons] at hp
      split
      · rename_i hlt
        refine List.pairwise_cons.mpr ⟨fun m hm => ?_, List.pairwise_cons.mpr hp⟩
        rcases List.mem_cons.mp hm with rfl | hm
        · exact hlt
        · exact Nat.lt_trans hlt (hp.1 m hm)
      · rename_i hlt
        have hx : x.pin.key ≠ l.pin.key := fun hk => habs x (by simp) (Pin.key_inj hk)
        refine List.pairwise_cons.mpr ⟨fun m hm => ?_, ih (fun m hm => habs m (by simp [hm])) hp.2⟩
        rcases (mem_linesInsert rest l m).mp hm with rfl | hm
        · omega
        · exact hp.1 m hm
  · rcases (mem_linesInsert ls l m).mp hm with rfl | hm
    · exact hl
    · exact h.2 m hm

/-- Putting distinct devices on a pin keeps the canonical form. -/
theorem LinesWf.put (h : LinesWf ls) {p : Pin} {e : Environment} (hp : p.proper = true) (he : e.population.Nodup) :
    LinesWf (linesPut p e ls) := by
  unfold linesPut
  split
  · exact h.filter _
  · exact (h.filter _).insert ⟨hp, by assumption, he⟩ (linesErase_absent ls p)

/-- In canonical form the devices on every pin are distinct (R90). -/
theorem LinesWf.population (h : LinesWf ls) (p : Pin) : (linesAt p ls).population.Nodup := by
  induction ls with
  | nil => exact List.nodup_nil
  | cons l rest ih =>
    rw [linesAt_cons]
    split
    · exact (h.2 l (by simp)).2.2
    · exact ih ⟨(List.pairwise_cons.mp h.1).2, fun m hm => h.2 m (by simp [hm])⟩

/-! ## The far side of the pin in use -/

theorem State.farSide_congr {s t : State} (hp : t.ctl.pin = s.ctl.pin) (hl : t.lines = s.lines) :
    t.farSide = s.farSide := by
  simp [State.farSide, hp, hl]

theorem farSide_population {s : State} (h : LinesWf s.lines) : s.farSide.population.Nodup := by
  unfold State.farSide
  split
  · exact h.population _
  · exact List.nodup_nil

/-- References that are no pin's reach an unspecified line (R146, U9). -/
theorem farSide_improper {s : State} (h : s.ctl.pin.proper = false) : s.farSide = .answers [] := by
  simp [State.farSide, h]

/-- The environment of the pin in use moves: what it becomes. An unspecified line stays one. -/
theorem farSide_setEnv {e : Environment} {s : State} (h : s.ctl.pin.proper = false → e = .answers []) :
    (setEnv e s).farSide = e := by
  unfold State.farSide
  rw [setEnv_ctl]
  split
  · rename_i hp
    simp [setEnv, hp]
  · rename_i hp
    exact (h (by simpa using hp)).symm

theorem setEnv_lines_congr (e : Environment) {s t : State} (hp : s.ctl.pin = t.ctl.pin) (hl : s.lines = t.lines) :
    (setEnv e s).lines = (setEnv e t).lines := by
  unfold setEnv
  rw [hp]
  split <;> simp [hl]

/-- The environment after its answer to a sample. -/
@[simp] theorem farSide_afterSample (s : State) :
    (setEnv s.farSide.afterSample s).farSide = s.farSide.afterSample :=
  farSide_setEnv fun h => by rw [farSide_improper h]; rfl

theorem afterSample_lines_congr {s t : State} (hp : s.ctl.pin = t.ctl.pin) (hl : s.lines = t.lines) :
    (setEnv s.farSide.afterSample s).lines = (setEnv t.farSide.afterSample t).lines := by
  rw [State.farSide_congr hp hl]
  exact setEnv_lines_congr _ hp hl

theorem setEnv_linesAt (e : Environment) (s : State) {p : Pin} (h : p ≠ s.ctl.pin) :
    linesAt p (setEnv e s).lines = linesAt p s.lines := by
  unfold setEnv
  split
  · simp [h]
  · rfl

theorem setEnv_linesWf {e : Environment} {s : State} (h : LinesWf s.lines) (he : e.population.Nodup) :
    LinesWf (setEnv e s).lines := by
  unfold setEnv
  split
  · rename_i hp
    exact h.put hp he
  · exact h

@[simp] theorem onSeq_farSide (f : Sequencer → Sequencer) (s : State) : (s.onSeq f).farSide = s.farSide := rfl
@[simp] theorem emit_farSide (e : Event) (s : State) : (emit e s).farSide = s.farSide := rfl
@[simp] theorem setRomId_farSide (id : RomId) (s : State) : (setRomId id s).farSide = s.farSide := rfl
@[simp] theorem setLastDev_farSide (v : Byte) (s : State) : (setLastDev v s).farSide = s.farSide := rfl
@[simp] theorem setPulling_farSide (b : Bool) (s : State) : (setPulling b s).farSide = s.farSide := rfl
@[simp] theorem memWrite_farSide (r : Ref) (v : Byte) (s : State) : (memWrite r v s).farSide = s.farSide := rfl
@[simp] theorem irqSave_farSide (s : State) : (irqSave s).farSide = s.farSide := rfl
@[simp] theorem irqRestore_farSide (s : State) : (irqRestore s).farSide = s.farSide := rfl
@[simp] theorem accept_farSide (i : Instr) (s : State) : (accept i s).farSide = s.farSide := rfl
@[simp] theorem respond_farSide (st : Status) (v : Byte) (s : State) : (respond st v s).farSide = s.farSide := rfl

end Sys2Proof.Machine
end

