-- ==== Sys2Proof/Laws/Memory.lean ====
section
/-! SUPPORT. The laws of the I/O space: a read after a write (20_memory.md rule R61), and that every memory operation
keeps the canonical form. -/

namespace Sys2Proof.Machine

variable (m : Memory)

@[simp] theorem Memory.read_nil (a : Nat) : Memory.read [] a = Memory.unlisted := rfl

theorem Memory.read_cons (c : Host.Cell) (a : Nat) :
    Memory.read (c :: m) a = if c.1 = a then c.2 else Memory.read m a := rfl

theorem Memory.read_erase (a b : Nat) :
    (m.erase a).read b = if b = a then Memory.unlisted else m.read b := by
  induction m with
  | nil => simp [Memory.erase]
  | cons c rest ih =>
    unfold Memory.erase at ih ⊢
    by_cases hc : c.1 = a
    · simp only [hc, List.filter_cons, bne_self_eq_false, Bool.false_eq_true, if_false, ih, Memory.read_cons]
      by_cases hb : b = a
      · simp [hb]
      · simp [hb, Ne.symm hb]
    · have hne : (c.1 != a) = true := by simpa using hc
      simp only [List.filter_cons, hne, if_true, Memory.read_cons, ih]
      by_cases hb : b = a
      · subst hb
        simp [hc]
      · simp [hb]

theorem Memory.read_insert (c : Host.Cell) (b : Nat) (h : ∀ x ∈ m, x.1 ≠ c.1) :
    (Memory.insert c m).read b = if b = c.1 then c.2 else m.read b := by
  induction m with
  | nil => simp [Memory.insert, Memory.read_cons, eq_comm]
  | cons x rest ih =>
    unfold Memory.insert
    split
    · simp [Memory.read_cons, eq_comm]
    · have hx : x.1 ≠ c.1 := h x (by simp)
      have hr := ih (fun y hy => h y (by simp [hy]))
      simp only [Memory.read_cons, hr]
      by_cases hxb : x.1 = b
      · have : b ≠ c.1 := fun hb => hx (by rw [hxb, hb])
        simp [hxb, this]
      · simp [hxb]

theorem Memory.erase_absent (a : Nat) : ∀ x ∈ m.erase a, x.1 ≠ a := by
  intro x hx
  simpa using (List.mem_filter.mp hx).2

/-- A read after a write: the value written at that address, what was there before at every other (R61). -/
@[simp] theorem Memory.read_write (a b : Nat) (v : Byte) :
    (m.write a v).read b = if b = a then v else m.read b := by
  unfold Memory.write
  split
  · rename_i hv
    rw [Memory.read_erase]
    split <;> simp_all
  · rw [Memory.read_insert _ _ _ (Memory.erase_absent m a), Memory.read_erase]
    split <;> simp_all

/-! ## The canonical form -/

theorem Memory.wf_nil : Memory.wf [] := by simp [Memory.wf]

theorem Memory.wf_erase (a : Nat) (h : m.wf) : (m.erase a).wf :=
  ⟨h.1.sublist List.filter_sublist, fun c hc => h.2 c (List.mem_filter.mp hc).1⟩

theorem Memory.mem_insert (c x : Host.Cell) : x ∈ Memory.insert c m ↔ x = c ∨ x ∈ m := by
  induction m with
  | nil => simp [Memory.insert]
  | cons y rest ih =>
    unfold Memory.insert
    split
    · simp
    · simp only [List.mem_cons, ih]
      tauto

theorem Memory.wf_insert (c : Host.Cell) (h : m.wf) (hc : c.1 < 256 ∧ c.2 ≠ Memory.unlisted)
    (habs : ∀ x ∈ m, x.1 ≠ c.1) : (Memory.insert c m).wf := by
  refine ⟨?_, fun x hx => ?_⟩
  · have hp := h.1
    clear h
    induction m with
    | nil => simp [Memory.insert]
    | cons y rest ih =>
      unfold Memory.insert
      rw [List.pairwise_cons] at hp
      split
      · rename_i hlt
        refine List.pairwise_cons.mpr ⟨fun x hx => ?_, List.pairwise_cons.mpr hp⟩
        rcases List.mem_cons.mp hx with rfl | hx
        · exact hlt
        · exact Nat.lt_trans hlt (hp.1 x hx)
      · rename_i hlt
        have hy : y.1 ≠ c.1 := habs y (by simp)
        refine List.pairwise_cons.mpr ⟨fun x hx => ?_, ih (fun x hx => habs x (by simp [hx])) hp.2⟩
        rcases (Memory.mem_insert rest c x).mp hx with rfl | hx
        · omega
        · exact hp.1 x hx
  · rcases (Memory.mem_insert m c x).mp hx with rfl | hx
    · exact hc
    · exact h.2 x hx

/-- Every write inside the address space keeps the canonical form. -/
theorem Memory.wf_write (a : Nat) (v : Byte) (ha : a < 256) (h : m.wf) : (m.write a v).wf := by
  unfold Memory.write
  split
  · exact Memory.wf_erase m a h
  · exact Memory.wf_insert _ _ (Memory.wf_erase m a h) ⟨ha, by assumption⟩ (Memory.erase_absent m a)

/-- Two memories in canonical form that read alike at every address are the same list. -/
theorem Memory.wf_ext {m n : Memory} (hm : m.wf) (hn : n.wf) (h : ∀ a, m.read a = n.read a) : m = n := by
  have read_of_lt : ∀ (l : Memory) (a : Nat), (∀ x ∈ l, a < x.1) → l.read a = Memory.unlisted := by
    intro l a hl
    induction l with
    | nil => rfl
    | cons x rest ih =>
      have hx := hl x (by simp)
      rw [Memory.read_cons, if_neg (by omega), ih (fun y hy => hl y (by simp [hy]))]
  induction m generalizing n with
  | nil =>
    cases n with
    | nil => rfl
    | cons c rest =>
      have := h c.1
      simp only [Memory.read_nil, Memory.read_cons, if_true] at this
      exact absurd this.symm (hn.2 c (by simp)).2
  | cons c rest ih =>
    have hc := (List.pairwise_cons.mp hm.1).1
    cases n with
    | nil =>
      have := h c.1
      simp only [Memory.read_nil, Memory.read_cons, if_true] at this
      exact absurd this (hm.2 c (by simp)).2
    | cons d rest' =>
      have hd := (List.pairwise_cons.mp hn.1).1
      have hcd : c.1 = d.1 := by
        rcases Nat.lt_trichotomy c.1 d.1 with hlt | heq | hgt
        · have h1 := h c.1
          rw [Memory.read_cons, if_pos rfl, Memory.read_cons, if_neg (by omega),
            read_of_lt rest' c.1 (fun x hx => Nat.lt_trans hlt (hd x hx))] at h1
          exact absurd h1 (hm.2 c (by simp)).2
        · exact heq
        · have h1 := h d.1
          rw [Memory.read_cons, if_neg (by omega), Memory.read_cons, if_pos rfl,
            read_of_lt rest d.1 (fun x hx => Nat.lt_trans hgt (hc x hx))] at h1
          exact absurd h1.symm (hn.2 d (by simp)).2
      have hv : c.2 = d.2 := by
        have h1 := h c.1
        rwa [Memory.read_cons, if_pos rfl, Memory.read_cons, if_pos hcd.symm] at h1
      have hcell : c = d := Prod.ext hcd hv
      subst hcell
      congr 1
      apply ih ⟨(List.pairwise_cons.mp hm.1).2, fun x hx => hm.2 x (by simp [hx])⟩
        ⟨(List.pairwise_cons.mp hn.1).2, fun x hx => hn.2 x (by simp [hx])⟩
      intro a
      by_cases ha : c.1 = a
      · subst ha
        rw [read_of_lt rest _ hc, read_of_lt rest' _ hd]
      · have h1 := h a
        rwa [Memory.read_cons, if_neg ha, Memory.read_cons, if_neg ha] at h1

end Sys2Proof.Machine
end

