-- ==== Sys2Proof/Laws/Ops.lean ====
section
/-! SUPPORT. One lemma per shared operation, saying everything it does: the bit helpers, the pin actions, the two masked
primitives, the three slots, and the host's windows. -/

namespace Sys2Proof.Machine

variable (s : State)

theorem pinIdx_lt (c : Controller) : c.pinIdx.toNat < 8 := c.pinIdx.isLt

/-! ## The I/O registers -/

@[simp] theorem ioSetBit_ctl (r : Ref) (k : PinIndex) : (ioSetBit r k s).ctl = s.ctl := rfl
@[simp] theorem ioClrBit_ctl (r : Ref) (k : PinIndex) : (ioClrBit r k s).ctl = s.ctl := rfl
@[simp] theorem ioClrBit_timing (r : Ref) (k : PinIndex) : (ioClrBit r k s).timing = s.timing := rfl
@[simp] theorem release_timing : (release s).timing = s.timing := rfl

/-- The I/O space after `IoSetBit` and `IoClrBit`, bit by bit (R62, R63). -/
theorem ioSetBit_read (r : Ref) (k : PinIndex) (a j : Nat) :
    ((ioSetBit r k s).io.read a).getLsbD j =
      if a = r.toNat ∧ j = k.toNat then true else (s.io.read a).getLsbD j := by
  have hk : k.toNat < 8 := k.isLt
  simp only [ioSetBit, memWrite_io, Memory.read_write, memRead]
  by_cases ha : a = r.toNat
  · simp [ha, withBit_getLsbD _ _ _ _ hk]
  · simp [ha]

theorem ioClrBit_read (r : Ref) (k : PinIndex) (a j : Nat) :
    ((ioClrBit r k s).io.read a).getLsbD j =
      if a = r.toNat ∧ j = k.toNat then false else (s.io.read a).getLsbD j := by
  have hk : k.toNat < 8 := k.isLt
  simp only [ioClrBit, memWrite_io, Memory.read_write, memRead]
  by_cases ha : a = r.toNat
  · simp [ha, withBit_getLsbD _ _ _ _ hk]
  · simp [ha]

/-- `IoTestBit` on the byte read from the sense register is the level of the line: the other seven bits do not matter
(R61, R64, R68). -/
@[simp] theorem testBit_readSense (slot : SlotKind) :
    testBit (readSense slot s) s.ctl.pinIdx = lineLevel slot s := by
  simp [testBit, readSense, withBit_getLsbD _ _ _ _ (pinIdx_lt s.ctl)]

/-- The I/O space after the pin of `c` was driven low and released: the accesses of R66 and R67. -/
def pulseIo (c : Controller) (m : Memory) : Memory :=
  let m := m.write c.portRef.toNat (withBit (m.read c.portRef.toNat) c.pinIdx.toNat false)
  let m := m.write c.ddrRef.toNat (withBit (m.read c.ddrRef.toNat) c.pinIdx.toNat true)
  m.write c.ddrRef.toNat (withBit (m.read c.ddrRef.toNat) c.pinIdx.toNat false)

/-- A pulse leaves the bound bits 0 and every other bit as it was (R141, R144). -/
theorem pulseIo_read (c : Controller) (m : Memory) (a : Nat) :
    (pulseIo c m).read a =
      if a = c.ddrRef.toNat ∨ a = c.portRef.toNat then withBit (m.read a) c.pinIdx.toNat false
      else m.read a := by
  have hk := pinIdx_lt c
  simp only [pulseIo, Memory.read_write]
  by_cases hd : a = c.ddrRef.toNat
  · by_cases hp : c.ddrRef.toNat = c.portRef.toNat
    · simp [hd, hp, withBit_withBit _ _ _ _ hk]
    · simp [hd, hp, withBit_withBit _ _ _ _ hk]
  · by_cases hp : a = c.portRef.toNat
    · have hpd : c.portRef.toNat ≠ c.ddrRef.toNat := fun h => hd (hp.trans h)
      simp [hp, hpd]
    · simp [hd, hp]

theorem pulseIo_wf (c : Controller) (m : Memory) (h : m.wf) : (pulseIo c m).wf :=
  Memory.wf_write _ _ _ c.ddrRef.isLt (Memory.wf_write _ _ _ c.ddrRef.isLt (Memory.wf_write _ _ _ c.portRef.isLt h))

/-! ## The primitives -/

theorem waits_eq (tls : List Nat) :
    waits tls s = s.onCtl fun c => { c with trace := c.trace ++ tls.map Event.wait } := by
  induction tls generalizing s with
  | nil => simp [waits, State.onCtl]
  | cons t rest ih =>
    have := ih (wait t s)
    simp only [waits] at this ⊢
    rw [List.foldl_cons, this]
    simp [State.onCtl, wait, emit]

/-- The controller after `PulseLow` (R141). -/
theorem pulseLow_ctl (tls : List Nat) (tr : Nat) :
    (pulseLow tls tr s).ctl =
      { s.ctl with
        savedIe := s.gie
        pulling := false
        trace := s.ctl.trace ++
          (.irqSave s.gie :: .low :: (tls.map Event.wait ++ [.rel, .wait tr, .irqRestore s.gie])) } := by
  simp [pulseLow, waits_eq, wait, release, driveLow, State.onCtl]

/-- Everything else after `PulseLow`: the I/O space as after a pulse, `GIE` as it was (R141, R143). -/
theorem pulseLow_rest (tls : List Nat) (tr : Nat) :
    pulseLow tls tr s = { s with io := pulseIo s.ctl s.io, ctl := (pulseLow tls tr s).ctl } := by
  simp only [pulseLow, waits_eq, wait, release, driveLow, State.onCtl, pulseIo, irqSave, irqRestore, emit, setPulling,
    ioSetBit, ioClrBit, memWrite, memRead]

/-- The sample of `PulseSample` is the environment's answer: the master has released the line (R68, R85). -/
theorem pulseSample_fst (slot : SlotKind) (tl tw tr : Nat) :
    (pulseSample slot tl tw tr s).1 = s.farSide.level slot s.draws := by
  simp only [pulseSample, sample, testBit_readSense, lineLevel]
  simp [wait, release, driveLow, ioSetBit, ioClrBit]

/-- The controller after `PulseSample` (R142). -/
theorem pulseSample_ctl (slot : SlotKind) (tl tw tr : Nat) :
    (pulseSample slot tl tw tr s).2.ctl =
      { s.ctl with
        savedIe := s.gie
        pulling := false
        trace := s.ctl.trace ++
          [.irqSave s.gie, .low, .wait tl, .rel, .wait tw, .samp (s.farSide.level slot s.draws), .wait tr,
            .irqRestore s.gie] } := by
  rw [← pulseSample_fst s slot tl tw tr]
  simp [pulseSample, sample, wait, release, driveLow, ioSetBit, ioClrBit]

/-- The lines after a sample: the environment has answered (R85). -/
theorem sample_lines (slot : SlotKind) : (sample slot s).2.lines = (setEnv s.farSide.afterSample s).lines := by
  simp only [sample, emit_lines]
  exact setEnv_lines_congr _ rfl rfl

/-- Everything else after `PulseSample` (R142, R143). -/
theorem pulseSample_rest (slot : SlotKind) (tl tw tr : Nat) :
    (pulseSample slot tl tw tr s).2 =
      { s with
        io := pulseIo s.ctl s.io
        draws := s.draws + 1
        lines := (setEnv s.farSide.afterSample s).lines
        ctl := (pulseSample slot tl tw tr s).2.ctl } := by
  have hl : (sample slot (wait tw (release (wait tl (driveLow (irqSave s)))))).2.lines =
      (setEnv s.farSide.afterSample s).lines := by
    rw [sample_lines]
    apply afterSample_lines_congr <;> simp [wait, release, driveLow, ioSetBit, ioClrBit, Controller.pin]
  apply State.ext_fields
  case io => simp [pulseSample, sample, wait, release, driveLow, ioSetBit, ioClrBit, memRead, pulseIo]
  case lines => simpa [pulseSample, wait] using hl
  all_goals simp [pulseSample, sample, wait, release, driveLow, ioSetBit, ioClrBit]

/-! ## The slots -/

/-- The end of a slot moves nothing but the lines. -/
theorem endSlot_eq (slot : SlotKind) : endSlot slot s = { s with lines := (endSlot slot s).lines } := by
  unfold endSlot
  rw [setEnv_eq]

theorem endSlot_lines_congr (slot : SlotKind) {s t : State} (hp : s.ctl.pin = t.ctl.pin) (hl : s.lines = t.lines) :
    (endSlot slot s).lines = (endSlot slot t).lines := by
  unfold endSlot
  rw [State.farSide_congr hp hl]
  exact setEnv_lines_congr _ hp (by rw [hp, hl])

/-- The end of a slot, by what it does to another state with the same pin and lines. -/
theorem endSlot_of (slot : SlotKind) {s t : State} (hp : s.ctl.pin = t.ctl.pin) (hl : s.lines = t.lines) :
    endSlot slot s = { s with lines := (endSlot slot t).lines } := by
  rw [endSlot_eq, endSlot_lines_congr _ hp hl]

@[simp] theorem endSlot_ctl (slot : SlotKind) : (endSlot slot s).ctl = s.ctl := by rw [endSlot_eq]

/-- The environment of the pin after a slot (R90). -/
@[simp] theorem endSlot_farSide (slot : SlotKind) : (endSlot slot s).farSide = s.farSide.afterSlot slot :=
  farSide_setEnv fun h => by rw [farSide_improper (s := s) h]; rfl

/-- A slot leaves alone every other pin none of whose bits it moves (R146). -/
theorem endSlot_linesAt (slot : SlotKind) {p : Pin} (hp : p ≠ s.ctl.pin) (ht : s.ctl.pin.touches p = false) :
    linesAt p (endSlot slot s).lines = linesAt p s.lines := by
  rw [endSlot, setEnv_linesAt _ _ (by exact hp)]
  exact linesAt_disturb _ ht

/-- The line of a pin whose bits a slot moves is unspecified after it (R146, U9). -/
theorem endSlot_touched (slot : SlotKind) {p : Pin} (ht : s.ctl.pin.touches p = true) :
    linesAt p (endSlot slot s).lines = .answers [] := by
  have hp : p ≠ s.ctl.pin := by
    rintro rfl
    simp at ht
  rw [endSlot, setEnv_linesAt _ _ (by exact hp)]
  exact linesAt_disturbed _ ht

theorem endSlot_linesWf (slot : SlotKind) (h : LinesWf s.lines) : LinesWf (endSlot slot s).lines :=
  setEnv_linesWf (h.filter _) (by simpa using farSide_population h)

/-- All that `WriteBit(b)` does (R150). -/
theorem writeBit_eq (b : Bool) :
    writeBit b s =
      { s with
        io := pulseIo s.ctl s.io
        lines := (endSlot (.write b) s).lines
        ctl :=
          { s.ctl with
            savedIe := s.gie
            pulling := false
            trace := s.ctl.trace ++ (Slot.write b).segment s.timing s.gie } } := by
  rw [writeBit]
  cases b
  · rw [if_neg (by simp), pulseLow_rest, pulseLow_ctl]
    refine (endSlot_of (t := s) _ (by rfl) (by rfl)).trans ?_
    simp [Slot.segment, Slot.body]
  · rw [if_pos rfl, pulseLow_rest, pulseLow_ctl]
    refine (endSlot_of (t := s) _ (by rfl) (by rfl)).trans ?_
    simp [Slot.segment, Slot.body]

/-- The bit `ReadBit()` returns is the environment's answer (R152). -/
theorem readBit_fst : (readBit s).1 = s.farSide.level .read s.draws := by
  rw [readBit, pulseSample_fst]

/-- All that `ReadBit()` does beside returning the bit (R152). -/
theorem readBit_snd :
    (readBit s).2 =
      { s with
        io := pulseIo s.ctl s.io
        draws := s.draws + 1
        lines := (endSlot .read (setEnv s.farSide.afterSample s)).lines
        ctl :=
          { s.ctl with
            savedIe := s.gie
            pulling := false
            trace := s.ctl.trace ++ (Slot.read (s.farSide.level .read s.draws)).segment s.timing s.gie } } := by
  rw [readBit]
  dsimp only
  rw [pulseSample_rest, pulseSample_ctl]
  refine (endSlot_of (t := setEnv s.farSide.afterSample s) _ (by rw [setEnv_ctl]; rfl) (by rfl)).trans ?_
  simp [Slot.segment, Slot.body]

/-- The level a reset slot samples (R171). -/
theorem resetSlot_fst : (resetSlot s).1 = s.farSide.level .reset s.draws := by
  rw [resetSlot, pulseSample_fst]

/-- All that a reset slot does beside returning the level (R171, R172). -/
theorem resetSlot_snd :
    (resetSlot s).2 =
      { s with
        io := pulseIo s.ctl s.io
        draws := s.draws + 1
        lines := (endSlot .reset (setEnv s.farSide.afterSample s)).lines
        ctl :=
          { s.ctl with
            savedIe := s.gie
            pulling := false
            trace := s.ctl.trace ++ (Slot.reset (s.farSide.level .reset s.draws)).segment s.timing s.gie } } := by
  rw [resetSlot]
  dsimp only
  rw [pulseSample_rest, pulseSample_ctl]
  refine (endSlot_of (t := setEnv s.farSide.afterSample s) _ (by rw [setEnv_ctl]; rfl) (by rfl)).trans ?_
  simp [Slot.segment, Slot.body]

/-! ## The host's windows (R241) -/

theorem runHandler_io_only (ws : List IoWrite) :
    runHandler ws s = { s with io := (runHandler ws s).io } := by
  induction ws generalizing s with
  | nil => rfl
  | cons w rest ih =>
    have h := ih (hostWrite w s)
    simp only [runHandler, List.foldl_cons] at h ⊢
    rw [h]
    rfl

/-- A window changes nothing but the I/O space and the list of handlers still to run. -/
theorem window_eq : window s = { s with io := (window s).io, handlers := (window s).handlers } := by
  unfold window
  split
  · split
    · rfl
    · rw [runHandler_io_only]
  · rfl

@[simp] theorem window_ctl : (window s).ctl = s.ctl := by rw [window_eq]
@[simp] theorem window_parked : (window s).parked = s.parked := by rw [window_eq]
@[simp] theorem window_gie : (window s).gie = s.gie := by rw [window_eq]
@[simp] theorem window_rw : (window s).rw = s.rw := by rw [window_eq]
@[simp] theorem window_inbox : (window s).inbox = s.inbox := by rw [window_eq]
@[simp] theorem window_draws : (window s).draws = s.draws := by rw [window_eq]
@[simp] theorem window_timing : (window s).timing = s.timing := by rw [window_eq]
@[simp] theorem window_lines : (window s).lines = s.lines := by rw [window_eq]
@[simp] theorem window_farSide : (window s).farSide = s.farSide := by rw [window_eq]; rfl

/-- With the interrupts disabled no handler runs (R241). -/
theorem window_masked (h : s.gie = false) : window s = s := by simp [window, h]

/-- With no handler left nothing happens in a window. -/
theorem window_nil (h : s.handlers = []) : window s = s := by
  unfold window
  split
  · rw [h]
  · rfl

/-- A window takes at most one entry off the list of handlers. -/
theorem window_handlers : (window s).handlers <:+ s.handlers := by
  unfold window
  split
  · split
    · exact List.suffix_rfl
    · rename_i ws rest h
      rw [runHandler_io_only, h]
      exact List.suffix_cons ws rest
  · exact List.suffix_rfl

theorem hostKeeps_congr (t : State) (r : Ref) (hc : t.ctl = s.ctl) (hp : t.parked = s.parked) :
    hostKeeps r t = hostKeeps r s := by simp [hostKeeps, hc, hp]

/-- A host write, bit by bit: a kept bit stays, every other bit takes the host's value (R241). -/
theorem hostWrite_read (w : IoWrite) (a j : Nat) :
    ((hostWrite w s).io.read a).getLsbD j =
      if a = w.ref.toNat ∧ (hostKeeps w.ref s).getLsbD j = false then w.value.getLsbD j
      else (s.io.read a).getLsbD j := by
  simp only [hostWrite, memWrite_io, Memory.read_write, memRead]
  by_cases ha : a = w.ref.toNat
  · by_cases hj : j < 8
    · simp only [ha, if_true, true_and, BitVec.getLsbD_or, BitVec.getLsbD_and, BitVec.getLsbD_not, hj, decide_true]
      cases (hostKeeps w.ref s).getLsbD j <;> simp
    · simp [ha, BitVec.getLsbD_of_ge _ _ (Nat.le_of_not_lt hj)]
  · simp [ha]

theorem hostWrite_wf (w : IoWrite) (h : s.io.wf) : (hostWrite w s).io.wf := Memory.wf_write _ _ _ w.ref.isLt h

end Sys2Proof.Machine
end

