-- ==== Sys2Proof/Laws/Slots.lean ====
section
/-! SUPPORT. What a run of slots with the host's windows between them can do, said once: the relation `Slots sls s t`,
that it composes, and that every shared operation of the bus commands is one. -/

namespace Sys2Proof.Machine

/-- From `s` to `t` the I/O space changed only in the bits bound to the controller in use, which may have been cleared,
and in bits a handler wrote; the host's state, the other controllers, the binding and the command being run are the
same. -/
structure IoStep (s t : State) : Prop where
  parked : t.parked = s.parked
  gie : t.gie = s.gie
  inbox : t.inbox = s.inbox
  timing : t.timing = s.timing
  binding : SameBinding s.ctl t.ctl
  op : t.ctl.seq.op = s.ctl.seq.op
  handlers : t.handlers <:+ s.handlers
  masked : s.gie = false → t.handlers = s.handlers
  io : ∀ a k, (t.io.read a).getLsbD k = (s.io.read a).getLsbD k ∨
    s.ctl.binds a k ∧ (t.io.read a).getLsbD k = false ∨ HandlerWrites s a k ((t.io.read a).getLsbD k)
  wf : s.io.wf → t.io.wf

/-- From `s` to `t` the controller in use ran the slots `sls`, and in the windows between them the host's handlers ran.
`ROM_ID`, `LASTDEV` and the sequencer's counters are not spoken of. -/
structure Slots (sls : List Slot) (s t : State) : Prop extends IoStep s t where
  trace : t.ctl.trace = s.ctl.trace ++ segments s.timing s.gie sls
  env : t.farSide = s.farSide.run sls
  answers : s.farSide.Answers s.draws sls
  lines : ∀ p, p ≠ s.ctl.pin → s.ctl.pin.touches p = false → linesAt p t.lines = linesAt p s.lines
  linesWf : LinesWf s.lines → LinesWf t.lines
  noSlot : sls = [] → t.lines = s.lines
  disturbed : sls ≠ [] → ∀ p, s.ctl.pin.touches p = true → linesAt p t.lines = .answers []
  draws : t.draws = s.draws + sampleCount sls
  pulling : s.ctl.pulling = false → t.ctl.pulling = false
  notPulling : sls ≠ [] → t.ctl.pulling = false
  cleared : sls ≠ [] → s.ctl.bound = true → s.ctl.released t.io

/-! ## Consequences -/

theorem bound_congr {c d : Controller} (h : SameBinding c d) (ho : d.seq.op = c.seq.op) : d.bound = c.bound := by
  simp [Controller.bound, h.configured, ho]

theorem boundMask_congr {c d : Controller} (h : SameBinding c d) (ho : d.seq.op = c.seq.op) (r : Ref) :
    d.boundMask r = c.boundMask r := by
  simp [Controller.boundMask, Controller.mask, bound_congr h ho, h.ddrRef, h.portRef, h.pinIdx]

theorem IoStep.hostKeeps_eq {s t : State} (h : IoStep s t) (r : Ref) :
    hostKeeps r t = hostKeeps r s := by
  simp [hostKeeps, h.parked, boundMask_congr h.binding h.op]

theorem foldl_or_bit (cs : List Controller) (r : Ref) (m : Byte) (k : Nat) :
    (cs.foldl (fun m c => m ||| c.boundMask r) m).getLsbD k =
      (m.getLsbD k || cs.any fun c => (c.boundMask r).getLsbD k) := by
  induction cs generalizing m with
  | nil => simp
  | cons c rest ih => simp [ih, Bool.or_assoc]

/-- The bits the host keeps: those bound to a controller (R241, R253). -/
theorem hostKeeps_bit (r : Ref) (s : State) (k : Nat) :
    (hostKeeps r s).getLsbD k = (s.ctl :: s.parked).any fun c => (c.boundMask r).getLsbD k := by
  rw [hostKeeps, foldl_or_bit]
  simp

theorem mask_bit (c : Controller) (k : Nat) : c.mask.getLsbD k = decide (k = c.pinIdx.toNat) := by
  have hk := pinIdx_lt c
  rw [Controller.mask, BitVec.getLsbD_shiftLeft, BitVec.getLsbD_one]
  by_cases h : k = c.pinIdx.toNat
  · simp [h, hk]
  · by_cases hlt : k < c.pinIdx.toNat
    · simp [h, hlt]
    · have : k - c.pinIdx.toNat ≠ 0 := by omega
      simp [h, this]

/-- A bound bit is kept from the host (R241). -/
theorem hostKeeps_bound {s : State} {c : Controller} (hc : c ∈ s.ctl :: s.parked) (hb : c.bound = true) (r : Ref)
    (hr : r = c.ddrRef ∨ r = c.portRef) : (hostKeeps r s).getLsbD c.pinIdx.toNat = true := by
  rw [hostKeeps_bit, List.any_eq_true]
  refine ⟨c, hc, ?_⟩
  have : (r == c.ddrRef || r == c.portRef) = true := by rcases hr with h | h <;> simp [h]
  simp [Controller.boundMask, hb, this, mask_bit]

/-- No handler writes a bound bit. -/
theorem HandlerWrites.not_bound {s : State} {c : Controller} (hc : c ∈ s.ctl :: s.parked) (hb : c.bound = true)
    {a k : Nat} (hk : c.binds a k) (v : Bool) : ¬ HandlerWrites s a k v := by
  rintro ⟨-, ws, -, w, -, ha, hkeep, -⟩
  obtain ⟨har, rfl⟩ := hk
  have hr : w.ref = c.ddrRef ∨ w.ref = c.portRef := by
    rcases har with h | h
    · exact .inl (BitVec.eq_of_toNat_eq (ha.symm.trans h))
    · exact .inr (BitVec.eq_of_toNat_eq (ha.symm.trans h))
  rw [hostKeeps_bound hc hb w.ref hr] at hkeep
  exact Bool.noConfusion hkeep

/-- A released pin of a bound controller stays released, whichever controller it is (R144, R241, R253). -/
theorem IoStep.keeps_released {s t : State} (h : IoStep s t) {c : Controller}
    (hc : c ∈ s.ctl :: s.parked) (hb : c.bound = true) (hr : c.released s.io) : c.released t.io := by
  refine ⟨?_, ?_⟩
  · rcases h.io c.ddrRef.toNat c.pinIdx.toNat with h1 | ⟨-, h1⟩ | h1
    · rw [h1, hr.1]
    · exact h1
    · exact absurd h1 (HandlerWrites.not_bound hc hb ⟨.inl rfl, rfl⟩ _)
  · rcases h.io c.portRef.toNat c.pinIdx.toNat with h1 | ⟨-, h1⟩ | h1
    · rw [h1, hr.2]
    · exact h1
    · exact absurd h1 (HandlerWrites.not_bound hc hb ⟨.inr rfl, rfl⟩ _)

theorem Controller.released_congr {c d : Controller} (h : SameBinding c d) (m : Memory) :
    d.released m ↔ c.released m := by
  simp [Controller.released, h.ddrRef, h.portRef, h.pinIdx]

theorem Controller.binds_congr {c d : Controller} (h : SameBinding c d) (a k : Nat) :
    d.binds a k ↔ c.binds a k := by
  simp [Controller.binds, h.ddrRef, h.portRef, h.pinIdx]

theorem Controller.pin_congr {c d : Controller} (h : SameBinding c d) : d.pin = c.pin := by
  simp [Controller.pin, h.ddrRef, h.portRef, h.pinRef, h.pinIdx]

theorem SameBinding.refl (c : Controller) : SameBinding c c := ⟨rfl, rfl, rfl, rfl, rfl⟩

theorem SameBinding.trans {c d e : Controller} (h1 : SameBinding c d) (h2 : SameBinding d e) : SameBinding c e :=
  ⟨h2.ddrRef.trans h1.ddrRef, h2.portRef.trans h1.portRef, h2.pinRef.trans h1.pinRef, h2.pinIdx.trans h1.pinIdx,
    h2.configured.trans h1.configured⟩

theorem IoStep.handlerWrites {s t : State} (h : IoStep s t) {a k : Nat} {v : Bool}
    (hw : HandlerWrites t a k v) : HandlerWrites s a k v := by
  obtain ⟨hg, ws, hws, w, hw, ha, hk, hv⟩ := hw
  exact ⟨h.gie ▸ hg, ws, h.handlers.subset hws, w, hw, ha, h.hostKeeps_eq w.ref ▸ hk, hv⟩

theorem IoStep.trans {s t u : State} (h1 : IoStep s t) (h2 : IoStep t u) : IoStep s u where
  parked := h2.parked.trans h1.parked
  gie := h2.gie.trans h1.gie
  inbox := h2.inbox.trans h1.inbox
  timing := h2.timing.trans h1.timing
  binding := h1.binding.trans h2.binding
  op := h2.op.trans h1.op
  handlers := h2.handlers.trans h1.handlers
  masked := fun h => (h2.masked (h1.gie.trans h)).trans (h1.masked h)
  io := by
    intro a k
    rcases h2.io a k with h | ⟨hb, h⟩ | h
    · rw [h]
      exact h1.io a k
    · exact .inr (.inl ⟨(Controller.binds_congr h1.binding a k).mp hb, h⟩)
    · exact .inr (.inr (h1.handlerWrites h))
  wf := fun h => h2.wf (h1.wf h)

/-- Runs of slots compose. -/
theorem Slots.trans {x y : List Slot} {s t u : State} (h1 : Slots x s t) (h2 : Slots y t u) : Slots (x ++ y) s u where
  toIoStep := h1.toIoStep.trans h2.toIoStep
  trace := by rw [h2.trace, h1.trace, h1.gie, h1.timing, segments_append, List.append_assoc]
  env := by rw [h2.env, h1.env, Environment.run_append]
  answers := (Environment.answers_append _ _ _ _).mpr ⟨h1.answers, h1.env ▸ h1.draws ▸ h2.answers⟩
  lines := by
    intro p hp ht
    have hpin := Controller.pin_congr h1.binding
    exact (h2.lines p (hpin ▸ hp) (hpin ▸ ht)).trans (h1.lines p hp ht)
  linesWf := fun h => h2.linesWf (h1.linesWf h)
  noSlot := by
    intro h
    obtain ⟨hx, hy⟩ := List.append_eq_nil_iff.mp h
    exact (h2.noSlot hy).trans (h1.noSlot hx)
  disturbed := by
    intro hne p hp
    by_cases hy : y = []
    · rw [h2.noSlot hy]
      exact h1.disturbed (by simpa [hy] using hne) p hp
    · exact h2.disturbed hy p (Controller.pin_congr h1.binding ▸ hp)
  draws := by rw [h2.draws, h1.draws, sampleCount_append, Nat.add_assoc]
  pulling := fun h => h2.pulling (h1.pulling h)
  notPulling := by
    intro hne
    by_cases hy : y = []
    · subst hy
      exact h2.pulling (h1.notPulling (by simpa using hne))
    · exact h2.notPulling hy
  cleared := by
    intro hne hb
    have hb' : t.ctl.bound = true := (bound_congr h1.binding h1.op).trans hb
    by_cases hy : y = []
    · subst hy
      have h3 := (Controller.released_congr h1.binding t.io).mpr (h1.cleared (by simpa using hne) hb)
      exact (Controller.released_congr h1.binding u.io).mp (h2.keeps_released (by simp) hb' h3)
    · exact (Controller.released_congr h1.binding u.io).mp (h2.cleared hy hb')

/-- A change of nothing but the controller's other registers. -/
theorem IoStep.of_eq {s t : State} (h : t = { s with ctl := t.ctl, rw := t.rw, draws := t.draws, lines := t.lines })
    (hb : SameBinding s.ctl t.ctl) (ho : t.ctl.seq.op = s.ctl.seq.op) : IoStep s t := by
  rw [h]
  exact ⟨rfl, rfl, rfl, rfl, hb, ho, List.suffix_rfl, fun _ => rfl, fun _ _ => .inl rfl, id⟩

/-- What does not touch the line, the host or the I/O space is no slot. -/
theorem Slots.of_eq {s t : State} (h : t = { s with ctl := t.ctl }) (hb : SameBinding s.ctl t.ctl)
    (ho : t.ctl.seq.op = s.ctl.seq.op) (ht : t.ctl.trace = s.ctl.trace)
    (hp : t.ctl.pulling = s.ctl.pulling) : Slots [] s t where
  toIoStep := IoStep.of_eq (by rw [h]) hb ho
  trace := by simpa using ht
  env := State.farSide_congr (Controller.pin_congr hb) (by rw [h])
  answers := trivial
  lines := fun _ _ _ => by rw [h]
  linesWf := fun hw => by rw [h]; exact hw
  noSlot := fun _ => by rw [h]
  disturbed := fun h => absurd rfl h
  draws := by rw [h]; rfl
  pulling := fun h => hp.trans h
  notPulling := fun h => absurd rfl h
  cleared := fun h => absurd rfl h

theorem Slots.refl (s : State) : Slots [] s s := Slots.of_eq rfl (SameBinding.refl _) rfl rfl rfl

/-- An update of the sequencer's counters. -/
theorem Slots.onSeq (f : Sequencer → Sequencer) (s : State) (h : (f s.ctl.seq).op = s.ctl.seq.op) :
    Slots [] s (s.onSeq f) :=
  Slots.of_eq rfl ⟨rfl, rfl, rfl, rfl, rfl⟩ h rfl rfl

theorem Slots.setRomId (id : RomId) (s : State) : Slots [] s (setRomId id s) :=
  Slots.of_eq rfl ⟨rfl, rfl, rfl, rfl, rfl⟩ rfl rfl rfl

theorem Slots.setLastDev (v : Byte) (s : State) : Slots [] s (setLastDev v s) :=
  Slots.of_eq rfl ⟨rfl, rfl, rfl, rfl, rfl⟩ rfl rfl rfl

/-! ## The windows -/

theorem runHandler_wf (ws : List IoWrite) (s : State) (h : s.io.wf) : (runHandler ws s).io.wf := by
  induction ws generalizing s with
  | nil => exact h
  | cons w rest ih => exact ih _ (hostWrite_wf s w h)

theorem hostWrite_hostKeeps (w : IoWrite) (s : State) (r : Ref) : hostKeeps r (hostWrite w s) = hostKeeps r s :=
  hostKeeps_congr _ _ _ rfl rfl

/-- A handler's run changes only bits it writes and is free to write. -/
theorem runHandler_read (ws : List IoWrite) (s : State) (a k : Nat) :
    ((runHandler ws s).io.read a).getLsbD k = (s.io.read a).getLsbD k ∨
      ∃ w ∈ ws, a = w.ref.toNat ∧ (hostKeeps w.ref s).getLsbD k = false ∧
        w.value.getLsbD k = ((runHandler ws s).io.read a).getLsbD k := by
  induction ws generalizing s with
  | nil => exact .inl rfl
  | cons w rest ih =>
    have hstep : runHandler (w :: rest) s = runHandler rest (hostWrite w s) := rfl
    rw [hstep]
    rcases ih (hostWrite w s) with h | ⟨w', hw', ha, hk, hv⟩
    · rw [h, hostWrite_read]
      split
      · rename_i hcond
        exact .inr ⟨w, by simp, hcond.1, hcond.2, rfl⟩
      · exact .inl rfl
    · exact .inr ⟨w', by simp [hw'], ha, hostWrite_hostKeeps w s w'.ref ▸ hk, hv⟩

theorem window_read (s : State) (a k : Nat) :
    ((window s).io.read a).getLsbD k = (s.io.read a).getLsbD k ∨
      HandlerWrites s a k (((window s).io.read a).getLsbD k) := by
  unfold window
  split
  · rename_i hg
    split
    · exact .inl rfl
    · rename_i ws rest hh
      rcases runHandler_read ws { s with handlers := rest } a k with h | ⟨w, hw, ha, hk, hv⟩
      · exact .inl h
      · exact .inr ⟨hg, ws, by simp [hh], w, hw, ha, hk, hv⟩
  · exact .inl rfl

theorem window_wf (s : State) (h : s.io.wf) : (window s).io.wf := by
  unfold window
  split
  · split
    · exact h
    · exact runHandler_wf _ _ h
  · exact h

theorem IoStep.window (s : State) : IoStep s (window s) where
  parked := by simp
  gie := by simp
  inbox := by simp
  timing := by simp
  binding := by
    rw [window_ctl]
    exact SameBinding.refl _
  op := by simp
  handlers := window_handlers s
  masked := fun h => by rw [window_masked s h]
  io := fun a k => (window_read s a k).imp id .inr
  wf := window_wf s

/-- A window is no slot (R241). -/
theorem Slots.window (s : State) : Slots [] s (window s) where
  toIoStep := IoStep.window s
  trace := by simp
  env := by simp
  answers := trivial
  lines := by simp
  linesWf := by simp
  noSlot := by simp
  disturbed := fun h => absurd rfl h
  draws := by simp
  pulling := by simp
  notPulling := fun h => absurd rfl h
  cleared := fun h => absurd rfl h

/-! ## The slots -/

theorem pulseIo_bit (c : Controller) (m : Memory) (a k : Nat) :
    ((pulseIo c m).read a).getLsbD k = (m.read a).getLsbD k ∨
      c.binds a k ∧ ((pulseIo c m).read a).getLsbD k = false := by
  rw [pulseIo_read]
  split
  · rename_i ha
    rw [withBit_getLsbD _ _ _ _ (pinIdx_lt c)]
    split
    · exact .inr ⟨⟨ha, by assumption⟩, rfl⟩
    · exact .inl rfl
  · exact .inl rfl

theorem pulseIo_released (c : Controller) (m : Memory) : c.released (pulseIo c m) := by
  constructor <;> simp [pulseIo_read, withBit_getLsbD _ _ _ _ (pinIdx_lt c)]

/-- A pulse of the bound pin, whatever it does to the controller's other registers. -/
theorem IoStep.pulse {s t : State} (h : t = { s with io := pulseIo s.ctl s.io, ctl := t.ctl, draws := t.draws, lines := t.lines })
    (hb : SameBinding s.ctl t.ctl) (ho : t.ctl.seq.op = s.ctl.seq.op) : IoStep s t := by
  rw [h]
  exact ⟨rfl, rfl, rfl, rfl, hb, ho, List.suffix_rfl, fun _ => rfl,
    fun a k => (pulseIo_bit s.ctl s.io a k).imp id .inl, pulseIo_wf s.ctl s.io⟩

/-- A slot, from what it leaves of the pin, the trace and the line. -/
theorem Slots.slot {sl : Slot} {s t u : State} (h : IoStep s t) (ht : t.ctl.trace = s.ctl.trace ++ sl.segment s.timing s.gie)
    (hio : t.io = pulseIo s.ctl s.io) (hp : t.ctl.pulling = false) (hd : t.draws = s.draws + sampleCount [sl])
    (ha : s.farSide.Answers s.draws [sl]) (hu : u.ctl.pin = s.ctl.pin) (hl : t.lines = (endSlot sl.kind u).lines)
    (hf : u.farSide.afterSlot sl.kind = s.farSide.next sl) (ho : ∀ p, p ≠ s.ctl.pin → linesAt p u.lines = linesAt p s.lines)
    (hw : LinesWf s.lines → LinesWf u.lines) : Slots [sl] s t where
  toIoStep := h
  trace := by rw [segments_singleton, ht]
  env := (State.farSide_congr (s := endSlot sl.kind u)
    (by rw [endSlot_ctl, hu]; exact Controller.pin_congr h.binding) hl).trans (by rw [endSlot_farSide, hf]; rfl)
  answers := ha
  lines := fun p hp ht => by rw [hl, endSlot_linesAt u _ (hu ▸ hp) (hu ▸ ht), ho p hp]
  linesWf := fun h => by rw [hl]; exact endSlot_linesWf u _ (hw h)
  noSlot := fun h => by simp at h
  disturbed := fun _ p hp => by rw [hl]; exact endSlot_touched u _ (hu ▸ hp)
  draws := hd
  pulling := fun _ => hp
  notPulling := fun _ => hp
  cleared := fun _ _ => by rw [hio]; exact pulseIo_released s.ctl s.io

theorem Slots.writeBit (b : Bool) (s : State) : Slots [.write b] s (writeBit b s) := by
  rw [writeBit_eq]
  exact Slots.slot (u := s) (IoStep.pulse rfl ⟨rfl, rfl, rfl, rfl, rfl⟩ rfl) rfl rfl rfl rfl trivial rfl rfl rfl
    (fun _ _ => rfl) id

/-- The lines after a sample, before the end of its slot. -/
theorem afterSample_linesWf {s : State} (h : LinesWf s.lines) : LinesWf (setEnv s.farSide.afterSample s).lines :=
  setEnv_linesWf h (by simpa using farSide_population h)

theorem Slots.readBit (s : State) : Slots [.read (readBit s).1] s (readBit s).2 := by
  rw [readBit_snd, readBit_fst]
  exact Slots.slot (u := setEnv s.farSide.afterSample s) (IoStep.pulse rfl ⟨rfl, rfl, rfl, rfl, rfl⟩ rfl) rfl rfl rfl rfl
    ⟨rfl, trivial⟩ (by simp) rfl (by rw [farSide_afterSample]; rfl) (fun _ => setEnv_linesAt _ s) afterSample_linesWf

theorem Slots.resetSlot (s : State) : Slots [.reset (resetSlot s).1] s (resetSlot s).2 := by
  rw [resetSlot_snd, resetSlot_fst]
  exact Slots.slot (u := setEnv s.farSide.afterSample s) (IoStep.pulse rfl ⟨rfl, rfl, rfl, rfl, rfl⟩ rfl) rfl rfl rfl rfl
    ⟨rfl, trivial⟩ (by simp) rfl (by rw [farSide_afterSample]; rfl) (fun _ => setEnv_linesAt _ s) afterSample_linesWf

/-! ## What a run of slots leaves of the I/O space when no handler runs -/

theorem IoStep.io_quiet {s t : State} (h : IoStep s t) (hq : Quiet s) (hc : s.ctl.released t.io) :
    IoAfterPin s.ctl s.io t.io := by
  have nohandler : ∀ a k v, ¬ HandlerWrites s a k v := by
    rintro a k v ⟨hg, ws, hws, -⟩
    rcases hq with h | h
    · rw [h] at hg
      exact Bool.noConfusion hg
    · rw [h] at hws
      simp at hws
  intro a
  apply byte_ext
  intro k
  have key : (t.io.read a).getLsbD k.val =
      if s.ctl.binds a k.val then false else (s.io.read a).getLsbD k.val := by
    by_cases hbind : s.ctl.binds a k.val
    · rw [if_pos hbind]
      obtain ⟨ha | ha, hk⟩ := hbind
      · rw [ha, hk]
        exact hc.1
      · rw [ha, hk]
        exact hc.2
    · rw [if_neg hbind]
      rcases h.io a k.val with h1 | ⟨h1, -⟩ | h1
      · exact h1
      · exact absurd h1 hbind
      · exact absurd h1 (nohandler _ _ _)
  rw [key]
  by_cases ha : a = s.ctl.ddrRef.toNat ∨ a = s.ctl.portRef.toNat
  · rw [if_pos ha, withBit_getLsbD _ _ _ _ (pinIdx_lt s.ctl)]
    by_cases hk : k.val = s.ctl.pinIdx.toNat
    · simp [Controller.binds, ha, hk]
    · simp [Controller.binds, hk]
  · rw [if_neg ha]
    simp [Controller.binds, ha]

end Sys2Proof.Machine
end

