-- ==== Sys2Proof/Laws/Bytes.lean ====
section
/-! SUPPORT. The byte layer: `SendByte` and `ReceiveByte` are eight slots in bus order, and touch neither `ROM_ID` nor
`LASTDEV` (42_byte_transfer.md rules R181, R183). -/

namespace Sys2Proof.Machine

/-! ## The registers a slot leaves alone -/

@[simp] theorem writeBit_seq (b : Bool) (s : State) : (writeBit b s).ctl.seq = s.ctl.seq := by rw [writeBit_eq]
@[simp] theorem writeBit_romId (b : Bool) (s : State) : (writeBit b s).ctl.romId = s.ctl.romId := by rw [writeBit_eq]
@[simp] theorem writeBit_lastDev (b : Bool) (s : State) : (writeBit b s).ctl.lastDev = s.ctl.lastDev := by
  rw [writeBit_eq]

@[simp] theorem readBit_seq (s : State) : (readBit s).2.ctl.seq = s.ctl.seq := by rw [readBit_snd]
@[simp] theorem readBit_romId (s : State) : (readBit s).2.ctl.romId = s.ctl.romId := by rw [readBit_snd]
@[simp] theorem readBit_lastDev (s : State) : (readBit s).2.ctl.lastDev = s.ctl.lastDev := by rw [readBit_snd]

@[simp] theorem slotGap_ctl (k : Fin 8) (s : State) : (slotGap k s).ctl = s.ctl := by
  unfold slotGap
  split <;> simp

theorem Slots.slotGap (k : Fin 8) (s : State) : Slots [] s (slotGap k s) := by
  unfold Machine.slotGap
  split
  · exact Slots.refl s
  · exact Slots.window s

/-! ## SendByte -/

@[simp] theorem sendBitStep_acc (s : State) (k : Fin 8) : (sendBitStep s k).ctl.seq.acc = s.ctl.seq.acc := by
  simp [sendBitStep]

@[simp] theorem sendBitStep_romId (s : State) (k : Fin 8) : (sendBitStep s k).ctl.romId = s.ctl.romId := by
  simp [sendBitStep]

@[simp] theorem sendBitStep_lastDev (s : State) (k : Fin 8) : (sendBitStep s k).ctl.lastDev = s.ctl.lastDev := by
  simp [sendBitStep]

theorem Slots.sendBitStep (s : State) (k : Fin 8) :
    Slots [.write (s.ctl.seq.acc.getLsbD k.val)] s (sendBitStep s k) := by
  have h := ((Slots.slotGap k s).trans (Slots.onSeq (fun q => { q with k := k }) _ rfl)).trans
    (Slots.writeBit (s.ctl.seq.acc.getLsbD k.val) (setK k (Machine.slotGap k s)))
  simpa [Machine.sendBitStep] using h

/-- The turns of `SendByte` over any list of bit indices. -/
theorem sendBits_spec (ks : List (Fin 8)) (s : State) :
    Slots (ks.map fun k => .write (s.ctl.seq.acc.getLsbD k.val)) s (ks.foldl Machine.sendBitStep s) ∧
      (ks.foldl Machine.sendBitStep s).ctl.romId = s.ctl.romId ∧
      (ks.foldl Machine.sendBitStep s).ctl.lastDev = s.ctl.lastDev := by
  induction ks generalizing s with
  | nil => exact ⟨Slots.refl s, rfl, rfl⟩
  | cons k rest ih =>
    obtain ⟨h1, h2, h3⟩ := ih (Machine.sendBitStep s k)
    rw [sendBitStep_acc] at h1
    exact ⟨(Slots.sendBitStep s k).trans h1, h2.trans (sendBitStep_romId s k), h3.trans (sendBitStep_lastDev s k)⟩

/-- `SendByte(v)` is the eight write slots of `v`, least significant bit first (R181). -/
theorem Slots.sendByte (v : Byte) (s : State) : Slots (byteWriteSlots v) s (sendByte v s) := by
  have h := (Slots.onSeq (fun q => { q with acc := v }) s rfl).trans
    (sendBits_spec (List.finRange 8) (setAcc v s)).1
  simpa [Machine.sendByte, byteWriteSlots, byteBits, Function.comp_def] using h

@[simp] theorem sendByte_romId (v : Byte) (s : State) : (sendByte v s).ctl.romId = s.ctl.romId :=
  (sendBits_spec _ (setAcc v s)).2.1

@[simp] theorem sendByte_lastDev (v : Byte) (s : State) : (sendByte v s).ctl.lastDev = s.ctl.lastDev :=
  (sendBits_spec _ (setAcc v s)).2.2

/-! ## ReceiveByte -/

/-- One turn of `ReceiveByte`: one read slot, whose sample becomes bit `k` of the byte being assembled. -/
theorem receiveBitStep_spec (s : State) (k : Fin 8) :
    Slots [.read ((receiveBitStep s k).ctl.seq.acc.getLsbD k.val)] s (receiveBitStep s k) ∧
      (∀ j : Fin 8, j ≠ k → (receiveBitStep s k).ctl.seq.acc.getLsbD j.val = s.ctl.seq.acc.getLsbD j.val) ∧
      (receiveBitStep s k).ctl.romId = s.ctl.romId ∧ (receiveBitStep s k).ctl.lastDev = s.ctl.lastDev := by
  have hacc : (receiveBitStep s k).ctl.seq.acc =
      withBit s.ctl.seq.acc k.val (readBit (setK k (slotGap k s))).1 := by
    simp [receiveBitStep]
  refine ⟨?_, fun j hj => ?_, by simp [receiveBitStep], by simp [receiveBitStep]⟩
  · have h := (((Slots.slotGap k s).trans (Slots.onSeq (fun q => { q with k := k }) _ rfl)).trans
      (Slots.readBit (setK k (Machine.slotGap k s)))).trans
      (Slots.onSeq (fun q => { q with acc := withBit q.acc k.val (readBit (setK k (Machine.slotGap k s))).1 }) _ rfl)
    rw [hacc, withBit_getLsbD _ _ _ _ k.isLt, if_pos rfl]
    exact h
  · have : j.val ≠ k.val := fun h => hj (Fin.ext h)
    rw [hacc, withBit_getLsbD _ _ _ _ k.isLt, if_neg this]

/-- The turns of `ReceiveByte` over any list of different bit indices: the bits read are those the byte ends with. -/
theorem receiveBits_spec (ks : List (Fin 8)) (hks : ks.Nodup) (s : State) :
    Slots (ks.map fun k => .read ((ks.foldl receiveBitStep s).ctl.seq.acc.getLsbD k.val)) s (ks.foldl receiveBitStep s) ∧
      (∀ j : Fin 8, j ∉ ks → (ks.foldl receiveBitStep s).ctl.seq.acc.getLsbD j.val = s.ctl.seq.acc.getLsbD j.val) ∧
      (ks.foldl receiveBitStep s).ctl.romId = s.ctl.romId ∧
      (ks.foldl receiveBitStep s).ctl.lastDev = s.ctl.lastDev := by
  induction ks generalizing s with
  | nil => exact ⟨Slots.refl s, fun _ _ => rfl, rfl, rfl⟩
  | cons k rest ih =>
    obtain ⟨hk, hrest⟩ := List.nodup_cons.mp hks
    obtain ⟨h1, h2, h3, h4⟩ := ih hrest (receiveBitStep s k)
    obtain ⟨g1, g2, g3, g4⟩ := receiveBitStep_spec s k
    refine ⟨?_, fun j hj => ?_, h3.trans g3, h4.trans g4⟩
    · have := g1.trans h1
      rw [← h2 k hk] at this
      exact this
    · obtain ⟨hjk, hjr⟩ : j ≠ k ∧ j ∉ rest := by simpa using hj
      exact (h2 j hjr).trans (g2 j hjk)

/-- `ReceiveByte()` is eight read slots, whose samples are the byte's bits, least significant first (R183). -/
theorem Slots.receiveByte (s : State) : Slots (byteReadSlots (receiveByte s).1) s (receiveByte s).2 := by
  have h := (Slots.onSeq (fun q => { q with acc := 0x00#8 }) s rfl).trans
    (receiveBits_spec (List.finRange 8) (List.nodup_finRange 8) (setAcc 0x00#8 s)).1
  simpa [Machine.receiveByte, byteReadSlots, byteBits, Function.comp_def] using h

@[simp] theorem receiveByte_romId (s : State) : (receiveByte s).2.ctl.romId = s.ctl.romId :=
  (receiveBits_spec _ (List.nodup_finRange 8) (setAcc 0x00#8 s)).2.2.1

@[simp] theorem receiveByte_lastDev (s : State) : (receiveByte s).2.ctl.lastDev = s.ctl.lastDev :=
  (receiveBits_spec _ (List.nodup_finRange 8) (setAcc 0x00#8 s)).2.2.2

end Sys2Proof.Machine
end

