-- ==== Sys2Proof/Laws/Rom.lean ====
section
/-! SUPPORT. `RDROM` and `MATCHROM` as runs of slots (43_rom_commands.md rules R191, R193): the command byte, then the 64
identifier positions in bus order. -/

namespace Sys2Proof.Machine

/-- The write slots of an identifier, position 1 first (R71, R193). -/
theorem idWriteSlots_eq (id : RomId) :
    (idBits id).map Slot.write = (List.finRange 8).flatMap fun i => byteWriteSlots id[i] := by
  simp [idBits_eq_bytes, byteWriteSlots, List.map_flatMap]

theorem idReadSlots_eq (id : RomId) :
    (idBits id).map Slot.read = (List.finRange 8).flatMap fun i => byteReadSlots id[i] := by
  simp [idBits_eq_bytes, byteReadSlots, List.map_flatMap]

/-! ## MATCHROM -/

theorem matchRomStep_spec (s : State) (i : Fin 8) :
    Slots (byteWriteSlots s.ctl.romId[i]) s (matchRomStep s i) ∧
      (matchRomStep s i).ctl.romId = s.ctl.romId ∧ (matchRomStep s i).ctl.lastDev = s.ctl.lastDev := by
  refine ⟨?_, by simp [matchRomStep], by simp [matchRomStep]⟩
  have h := ((Slots.window s).trans (Slots.onSeq (fun q => { q with i := i }) _ rfl)).trans
    (Slots.sendByte s.ctl.romId[i] (setI i (Machine.window s)))
  simpa [matchRomStep] using h

theorem matchRomLoop_spec (is : List (Fin 8)) (s : State) :
    Slots (is.flatMap fun i => byteWriteSlots s.ctl.romId[i]) s (is.foldl matchRomStep s) ∧
      (is.foldl matchRomStep s).ctl.romId = s.ctl.romId ∧
      (is.foldl matchRomStep s).ctl.lastDev = s.ctl.lastDev := by
  induction is generalizing s with
  | nil => exact ⟨Slots.refl s, rfl, rfl⟩
  | cons i rest ih =>
    obtain ⟨g1, g2, g3⟩ := matchRomStep_spec s i
    obtain ⟨h1, h2, h3⟩ := ih (matchRomStep s i)
    rw [g2] at h1
    exact ⟨g1.trans h1, h2.trans g2, h3.trans g3⟩

/-- `MATCHROM`'s slots: 0x55, then the identifier (R193). -/
theorem matchRomBody_spec (s : State) :
    Slots (byteWriteSlots Config.matchRomByte ++ (idBits s.ctl.romId).map .write) s (matchRomBody s).2 ∧
      (matchRomBody s).1 = 0x00#8 ∧ (matchRomBody s).2.ctl.romId = s.ctl.romId ∧
      (matchRomBody s).2.ctl.lastDev = s.ctl.lastDev := by
  obtain ⟨h1, h2, h3⟩ := matchRomLoop_spec (List.finRange 8) (sendByte Config.matchRomByte s)
  rw [sendByte_romId] at h1 h2
  rw [sendByte_lastDev] at h3
  rw [idWriteSlots_eq]
  exact ⟨(Slots.sendByte Config.matchRomByte s).trans h1, rfl, h2, h3⟩

/-! ## RDROM -/

theorem readRomStep_spec (s : State) (i : Fin 8) :
    Slots (byteReadSlots (readRomStep s i).ctl.romId[i]) s (readRomStep s i) ∧
      (∀ j : Fin 8, j ≠ i → (readRomStep s i).ctl.romId[j] = s.ctl.romId[j]) ∧
      (readRomStep s i).ctl.lastDev = s.ctl.lastDev := by
  have hid : (readRomStep s i).ctl.romId =
      s.ctl.romId.set i (receiveByte (setI i (window s))).1 := by
    simp [readRomStep, setRomByte]
  refine ⟨?_, fun j hj => ?_, by simp [readRomStep, setRomByte]⟩
  · have h := (((Slots.window s).trans (Slots.onSeq (fun q => { q with i := i }) _ rfl)).trans
      (Slots.receiveByte (setI i (Machine.window s)))).trans (Slots.setRomId
        ((receiveByte (setI i (Machine.window s))).2.ctl.romId.set i (receiveByte (setI i (Machine.window s))).1) _)
    have hbyte : (readRomStep s i).ctl.romId[i] = (receiveByte (setI i (Machine.window s))).1 := by
      rw [hid, romByte_set, if_pos rfl]
    rw [hbyte]
    simpa [readRomStep, setRomByte, setI] using h
  · rw [hid, romByte_set, if_neg hj]

theorem readRomLoop_spec (is : List (Fin 8)) (his : is.Nodup) (s : State) :
    Slots (is.flatMap fun i => byteReadSlots (is.foldl readRomStep s).ctl.romId[i]) s (is.foldl readRomStep s) ∧
      (∀ j : Fin 8, j ∉ is → (is.foldl readRomStep s).ctl.romId[j] = s.ctl.romId[j]) ∧
      (is.foldl readRomStep s).ctl.lastDev = s.ctl.lastDev := by
  induction is generalizing s with
  | nil => exact ⟨Slots.refl s, fun _ _ => rfl, rfl⟩
  | cons i rest ih =>
    obtain ⟨hi, hrest⟩ := List.nodup_cons.mp his
    obtain ⟨h1, h2, h3⟩ := ih hrest (readRomStep s i)
    obtain ⟨g1, g2, g3⟩ := readRomStep_spec s i
    rw [List.foldl_cons]
    refine ⟨?_, fun j hj => ?_, h3.trans g3⟩
    · rw [← h2 i hi] at g1
      exact g1.trans h1
    · obtain ⟨hji, hjr⟩ : j ≠ i ∧ j ∉ rest := by simpa using hj
      exact (h2 j hjr).trans (g2 j hji)

/-- `RDROM`'s slots: 0x33, then 64 read slots whose samples are the identifier it leaves (R191). -/
theorem readRomBody_spec (s : State) :
    Slots (byteWriteSlots Config.readRomByte ++ (idBits (readRomBody s).2.ctl.romId).map .read) s (readRomBody s).2 ∧
      (readRomBody s).1 = 0x00#8 ∧ (readRomBody s).2.ctl.lastDev = s.ctl.lastDev := by
  obtain ⟨h1, -, h3⟩ :=
    readRomLoop_spec (List.finRange 8) (List.nodup_finRange 8) (sendByte Config.readRomByte s)
  rw [idReadSlots_eq]
  exact ⟨(Slots.sendByte Config.readRomByte s).trans h1, rfl, h3.trans (sendByte_lastDev _ s)⟩

end Sys2Proof.Machine
end

