-- ==== Sys2Proof/Laws/Search.lean ====
section
/-! SUPPORT. `SRCHROM` as a run of slots (43_rom_commands.md rule R200): what one position does, and what the loop leaves
at the end of a full pass and at an abort. -/

namespace Sys2Proof.Machine

/-- The bit a position ends with, from the two bits read, `LASTDEV` and the bit the previous pass left (R200 steps 3 and
4, R204 to R207). -/
def chosenBit (ld : Byte) (p : Position) (a b old : Bool) : Bool :=
  if a ≠ b then a else if p.number = ld then true else if p.number > ld then false else old

/-- Does a position record itself as the new deviation point (branches 4b and 4c, R205, R206)? -/
def recordsDeviation (ld : Byte) (p : Position) (a b old : Bool) : Bool :=
  decide (a = b) && (decide (p.number > ld) || (decide (p.number < ld) && !old))

/-- A turn of the search: the position and the two bits read there. -/
abbrev Turn := Position × Bool × Bool

/-- The slots of a turn that was not the abort (R200): two reads and the write of the chosen bit. -/
def turnSlots (ld : Byte) (id : RomId) (x : Turn) : List Slot :=
  [.read x.2.1, .read x.2.2, .write (chosenBit ld x.1 x.2.1 x.2.2 (idBit id x.1))]

/-- The deviation recorded after some turns, `nd` before them: the last turn that records wins (R205). -/
def recordedDev (ld : Byte) (id : RomId) (nd : Byte) (turns : List Turn) : Byte :=
  turns.foldl (fun nd x => if recordsDeviation ld x.1 x.2.1 x.2.2 (idBit id x.1) then x.1.number else nd) nd

theorem withIdBit_self (id : RomId) (p : Position) : withIdBit id p (idBit id p) = id :=
  romId_ext fun q => by
    rw [idBit_withIdBit]
    split <;> simp_all

/-! ## One position -/

theorem searchRead_spec (p : Position) (s : State) :
    Slots [.read (searchRead p s).ctl.seq.a, .read (searchRead p s).ctl.seq.b] s (searchRead p s) ∧
      (searchRead p s).ctl.romId = s.ctl.romId ∧ (searchRead p s).ctl.lastDev = s.ctl.lastDev ∧
      (searchRead p s).ctl.seq.newDev = s.ctl.seq.newDev := by
  refine ⟨?_, by simp [searchRead], by simp [searchRead], by simp [searchRead]⟩
  have h1 := (((Slots.onSeq (fun q => { q with p := p }) s rfl).trans (Slots.window _)).trans
    (Slots.readBit (window (setP p s)))).trans
    (Slots.onSeq (fun q => { q with a := (readBit (Machine.window (setP p s))).1 }) _ rfl)
  have h2 := (Slots.window (setA (readBit (Machine.window (setP p s))).1 (readBit (Machine.window (setP p s))).2)).trans
    (Slots.readBit _)
  have h3 := h2.trans (Slots.onSeq (fun q =>
    { q with b := (readBit (Machine.window (setA (readBit (Machine.window (setP p s))).1
      (readBit (Machine.window (setP p s))).2))).1 }) _ rfl)
  have ha : (searchRead p s).ctl.seq.a = (readBit (window (setP p s))).1 := by simp [searchRead]
  have hb : (searchRead p s).ctl.seq.b =
      (readBit (window (setA (readBit (window (setP p s))).1 (readBit (window (setP p s))).2))).1 := by
    simp [searchRead]
  rw [ha, hb]
  exact h1.trans h3

theorem searchChoose_spec (p : Position) (s : State) :
    Slots [] s (searchChoose p s) ∧
      (searchChoose p s).ctl.romId = withIdBit s.ctl.romId p
        (chosenBit s.ctl.lastDev p s.ctl.seq.a s.ctl.seq.b (idBit s.ctl.romId p)) ∧
      (searchChoose p s).ctl.lastDev = s.ctl.lastDev ∧
      (searchChoose p s).ctl.seq.newDev =
        if recordsDeviation s.ctl.lastDev p s.ctl.seq.a s.ctl.seq.b (idBit s.ctl.romId p) then p.number
        else s.ctl.seq.newDev := by
  unfold searchChoose recordsDeviation
  by_cases hab : s.ctl.seq.a = s.ctl.seq.b
  · rw [if_neg (by simpa using hab)]
    by_cases heq : p.number = s.ctl.lastDev
    · have hng : ¬ p.number > s.ctl.lastDev := by rw [heq]; exact BitVec.lt_irrefl _
      have hnl : ¬ p.number < s.ctl.lastDev := by rw [heq]; exact BitVec.lt_irrefl _
      have hc : chosenBit s.ctl.lastDev p s.ctl.seq.a s.ctl.seq.b (idBit s.ctl.romId p) = true := by
        simp [chosenBit, hab, heq]
      rw [if_pos heq, hc]
      refine ⟨Slots.setRomId _ _, rfl, rfl, ?_⟩
      simp [hng, hnl, setIdBit]
    · rw [if_neg heq]
      by_cases hgt : p.number > s.ctl.lastDev
      · have hc : chosenBit s.ctl.lastDev p s.ctl.seq.a s.ctl.seq.b (idBit s.ctl.romId p) = false := by
          simp [chosenBit, hab, heq, hgt]
        rw [if_pos hgt, hc]
        refine ⟨(Slots.setRomId _ _).trans (Slots.onSeq _ _ rfl), rfl, rfl, ?_⟩
        simp [hgt, hab]
      · have hlt : p.number < s.ctl.lastDev := by
          simp only [gt_iff_lt, BitVec.lt_def] at hgt ⊢
          have : p.number.toNat ≠ s.ctl.lastDev.toNat := fun h => heq (BitVec.eq_of_toNat_eq h)
          omega
        have hc : chosenBit s.ctl.lastDev p s.ctl.seq.a s.ctl.seq.b (idBit s.ctl.romId p) = idBit s.ctl.romId p := by
          simp [chosenBit, hab, heq, hgt]
        rw [if_neg hgt, hc, withIdBit_self]
        by_cases hold : idBit s.ctl.romId p = false
        · rw [if_pos hold]
          refine ⟨Slots.onSeq _ _ rfl, rfl, rfl, ?_⟩
          simp [hlt, hab, hold]
        · rw [if_neg hold]
          refine ⟨Slots.refl _, rfl, rfl, ?_⟩
          simp [hgt, hold]
  · have hc : chosenBit s.ctl.lastDev p s.ctl.seq.a s.ctl.seq.b (idBit s.ctl.romId p) = s.ctl.seq.a := by
      simp [chosenBit, hab]
    rw [if_pos (by simpa using hab), hc]
    refine ⟨Slots.setRomId _ _, rfl, rfl, ?_⟩
    simp [hab, setIdBit]

theorem searchWrite_spec (p : Position) (s : State) :
    Slots [.write (idBit s.ctl.romId p)] s (searchWrite p s) ∧ (searchWrite p s).ctl.romId = s.ctl.romId ∧
      (searchWrite p s).ctl.lastDev = s.ctl.lastDev ∧ (searchWrite p s).ctl.seq.newDev = s.ctl.seq.newDev := by
  refine ⟨?_, by simp [searchWrite], by simp [searchWrite], by simp [searchWrite]⟩
  have h := (Slots.window s).trans (Slots.writeBit (idBit s.ctl.romId p) (window s))
  simpa [searchWrite] using h

/-- A whole turn: what the loop does at a position where somebody answered. -/
theorem searchTurn_spec (p : Position) (s : State) :
    let a := (searchRead p s).ctl.seq.a
    let b := (searchRead p s).ctl.seq.b
    let t := searchWrite p (searchChoose p (searchRead p s))
    Slots (turnSlots s.ctl.lastDev s.ctl.romId (p, a, b)) s t ∧
      t.ctl.romId = withIdBit s.ctl.romId p (chosenBit s.ctl.lastDev p a b (idBit s.ctl.romId p)) ∧
      t.ctl.lastDev = s.ctl.lastDev ∧
      t.ctl.seq.newDev = recordedDev s.ctl.lastDev s.ctl.romId s.ctl.seq.newDev [(p, a, b)] := by
  obtain ⟨r1, r2, r3, r4⟩ := searchRead_spec p s
  obtain ⟨c1, c2, c3, c4⟩ := searchChoose_spec p (searchRead p s)
  obtain ⟨w1, w2, w3, w4⟩ := searchWrite_spec p (searchChoose p (searchRead p s))
  rw [r2, r3] at c2
  dsimp only
  generalize searchWrite p (searchChoose p (searchRead p s)) = w at *
  generalize searchChoose p (searchRead p s) = v at *
  generalize searchRead p s = u at *
  refine ⟨?_, w2.trans c2, w3.trans (c3.trans r3), ?_⟩
  · rw [c2, idBit_withIdBit, if_pos rfl] at w1
    exact (r1.trans c1).trans w1
  · rw [w4, c4, r2, r3, r4]
    rfl

/-! ## The loop -/

/-- What the search loop leaves after the turns `turns` over the first positions of its list. -/
structure AfterTurns (ps : List Position) (s t : State) (turns : List Turn) : Prop where
  positions : turns.map Prod.fst = ps.take turns.length
  someone : ∀ x ∈ turns, ¬ (x.2.1 = true ∧ x.2.2 = true)
  found : ∀ x ∈ turns, idBit t.ctl.romId x.1 =
    chosenBit s.ctl.lastDev x.1 x.2.1 x.2.2 (idBit s.ctl.romId x.1)
  kept : ∀ q, q ∉ turns.map Prod.fst → idBit t.ctl.romId q = idBit s.ctl.romId q

theorem turnSlots_congr (ld : Byte) (x y : RomId) (turns : List Turn)
    (h : ∀ z ∈ turns, idBit x z.1 = idBit y z.1) :
    turns.flatMap (turnSlots ld x) = turns.flatMap (turnSlots ld y) := by
  induction turns with
  | nil => rfl
  | cons z rest ih =>
    simp only [List.flatMap_cons, turnSlots, h z (by simp), ih fun w hw => h w (by simp [hw])]

theorem recordedDev_congr (ld : Byte) (x y : RomId) (nd : Byte) (turns : List Turn)
    (h : ∀ z ∈ turns, idBit x z.1 = idBit y z.1) : recordedDev ld x nd turns = recordedDev ld y nd turns := by
  induction turns generalizing nd with
  | nil => rfl
  | cons z rest ih =>
    simp only [recordedDev, List.foldl_cons, h z (by simp)] at ih ⊢
    exact ih _ fun w hw => h w (by simp [hw])

/-- All that the search loop does: it takes a turn at each position in order, and either runs out of positions or aborts
at one where nobody answers (R200, R202, R203). -/
theorem searchLoop_spec (ps : List Position) (hps : ps.Nodup) (s : State) :
    ∃ turns : List Turn, AfterTurns ps s (searchLoop ps s).2 turns ∧
      (turns.length = ps.length ∧
          Slots (turns.flatMap (turnSlots s.ctl.lastDev s.ctl.romId)) s (searchLoop ps s).2 ∧
          (searchLoop ps s).1 = recordedDev s.ctl.lastDev s.ctl.romId s.ctl.seq.newDev turns ∧
          (searchLoop ps s).2.ctl.lastDev = (searchLoop ps s).1 ∨
        turns.length < ps.length ∧
          Slots (turns.flatMap (turnSlots s.ctl.lastDev s.ctl.romId) ++ [.read true, .read true]) s (searchLoop ps s).2 ∧
          (searchLoop ps s).1 = Config.devNoDevice ∧
          (searchLoop ps s).2.ctl.lastDev = s.ctl.lastDev) := by
  induction ps generalizing s with
  | nil =>
    exact ⟨[], ⟨rfl, by simp, by simp, fun _ _ => rfl⟩, .inl ⟨rfl, Slots.setLastDev _ _, rfl, rfl⟩⟩
  | cons p rest ih =>
    obtain ⟨hp, hrest⟩ := List.nodup_cons.mp hps
    by_cases hab : (searchRead p s).ctl.seq.a = true ∧ (searchRead p s).ctl.seq.b = true
    · have hloop : searchLoop (p :: rest) s = (Config.devNoDevice, searchRead p s) := by
        simp [searchLoop, hab.1, hab.2]
      obtain ⟨r1, r2, r3, -⟩ := searchRead_spec p s
      rw [hab.1, hab.2] at r1
      rw [hloop]
      exact ⟨[], ⟨rfl, by simp, by simp, fun q _ => by rw [r2]⟩,
        .inr ⟨by simp, r1, rfl, r3⟩⟩
    · have hloop : searchLoop (p :: rest) s =
          searchLoop rest (searchWrite p (searchChoose p (searchRead p s))) := by
        have : ((searchRead p s).ctl.seq.a && (searchRead p s).ctl.seq.b) = false := by
          simpa using hab
        simp [searchLoop, this]
      obtain ⟨t1, t2, t3, t4⟩ := searchTurn_spec p s
      obtain ⟨turns, ha, hend⟩ := ih hrest (searchWrite p (searchChoose p (searchRead p s)))
      rw [hloop]
      generalize (searchRead p s).ctl.seq.a = a at *
      generalize (searchRead p s).ctl.seq.b = b at *
      generalize searchWrite p (searchChoose p (searchRead p s)) = u at *
      have hpos : ∀ z ∈ turns, z.1 ≠ p := by
        intro z hz hzp
        have : z.1 ∈ rest.take turns.length := ha.positions ▸ List.mem_map_of_mem hz
        exact hp (hzp ▸ List.mem_of_mem_take this)
      have hsame : ∀ z ∈ turns, idBit u.ctl.romId z.1 = idBit s.ctl.romId z.1 := by
        intro z hz
        rw [t2, idBit_withIdBit, if_neg (hpos z hz)]
      have hnotin : p ∉ turns.map Prod.fst := by
        intro h
        obtain ⟨z, hz, hzp⟩ := List.mem_map.mp h
        exact hpos z hz hzp
      refine ⟨(p, a, b) :: turns, ⟨?_, ?_, ?_, ?_⟩, ?_⟩
      · simp [ha.positions]
      · intro x hx
        rcases List.mem_cons.mp hx with rfl | hx
        · exact hab
        · exact ha.someone x hx
      · intro x hx
        rcases List.mem_cons.mp hx with rfl | hx
        · rw [ha.kept p hnotin, t2, idBit_withIdBit, if_pos rfl]
        · rw [ha.found x hx, t3, hsame x hx]
      · intro q hq
        obtain ⟨hqp, hqt⟩ : q ≠ p ∧ q ∉ turns.map Prod.fst := by simpa using hq
        rw [ha.kept q hqt, t2, idBit_withIdBit, if_neg hqp]
      · rw [t3, turnSlots_congr _ _ _ turns hsame, recordedDev_congr _ _ _ _ turns hsame] at hend
        rcases hend with ⟨h1, h2, h3, h4⟩ | ⟨h1, h2, h3, h4⟩
        · refine .inl ⟨by simp [h1], t1.trans h2, ?_, h4⟩
          rw [h3, t4]
          rfl
        · refine .inr ⟨by simpa using h1, ?_, h3, h4⟩
          have := t1.trans h2
          rw [← List.append_assoc] at this
          exact this

/-- All that `SRCHROM`'s body does (R200): 0xF0, then the turns. -/
theorem searchBody_spec (s : State) :
    ∃ turns : List Turn, AfterTurns (List.finRange 64) s (searchBody s).2 turns ∧
      (turns.length = 64 ∧
          Slots (byteWriteSlots Config.searchRomByte ++ turns.flatMap (turnSlots s.ctl.lastDev s.ctl.romId)) s
            (searchBody s).2 ∧
          (searchBody s).1 = recordedDev s.ctl.lastDev s.ctl.romId Config.devNone turns ∧
          (searchBody s).2.ctl.lastDev = (searchBody s).1 ∨
        turns.length < 64 ∧
          Slots (byteWriteSlots Config.searchRomByte ++ turns.flatMap (turnSlots s.ctl.lastDev s.ctl.romId) ++
            [.read true, .read true]) s (searchBody s).2 ∧
          (searchBody s).1 = Config.devNoDevice ∧
          (searchBody s).2.ctl.lastDev = s.ctl.lastDev) := by
  obtain ⟨turns, ha, h⟩ := searchLoop_spec (List.finRange 64) (List.nodup_finRange 64)
    (setNewDev Config.devNone (sendByte Config.searchRomByte s))
  have hsend := (Slots.sendByte Config.searchRomByte s).trans (Slots.onSeq (fun q => { q with newDev := Config.devNone }) _ rfl)
  rw [List.append_nil] at hsend
  have hid : (setNewDev Config.devNone (sendByte Config.searchRomByte s)).ctl.romId = s.ctl.romId := by simp
  have hld : (setNewDev Config.devNone (sendByte Config.searchRomByte s)).ctl.lastDev = s.ctl.lastDev := by simp
  have hnd : (setNewDev Config.devNone (sendByte Config.searchRomByte s)).ctl.seq.newDev = Config.devNone := by simp
  rw [hid, hld, hnd, List.length_finRange] at h
  rw [show searchBody s = searchLoop (List.finRange 64)
    (setNewDev Config.devNone (sendByte Config.searchRomByte s)) from rfl]
  refine ⟨turns, ⟨ha.positions, ha.someone, ?_, ?_⟩, ?_⟩
  · rw [← hid, ← hld]
    exact ha.found
  · rw [← hid]
    exact ha.kept
  · rcases h with ⟨h1, h2, h3, h4⟩ | ⟨h1, h2, h3, h4⟩
    · have h := hsend.trans h2
      exact .inl ⟨h1, h, h3, h4⟩
    · refine .inr ⟨h1, ?_, h3, h4⟩
      have h := hsend.trans h2
      rw [← List.append_assoc] at h
      exact h

/-! ## The turns under listed answers -/

/-- The turns a list of positions gives when the two bits read at `p` are `a p` and `b p`. -/
def turnsOf (a b : Position → Bool) (ps : List Position) : List Turn := ps.map fun p => (p, a p, b p)

theorem turnsOf_fst (a b : Position → Bool) (ps : List Position) : (turnsOf a b ps).map Prod.fst = ps := by
  simp [turnsOf, Function.comp_def]

/-- Under listed answers, two for each position, the turns read the listed bits and leave the rest of the list (R85,
R200). -/
theorem turns_answers (a b : Position → Bool) (ld : Byte) (id : RomId) (later : List Bool) (turns : List Turn)
    (ps : List Position) (n : Nat) (hpos : turns.map Prod.fst = ps.take turns.length)
    (ha : (Environment.answers (ps.flatMap (fun p => [a p, b p]) ++ later)).Answers n
      (turns.flatMap (turnSlots ld id))) :
    turns = turnsOf a b (ps.take turns.length) ∧
      (Environment.answers (ps.flatMap (fun p => [a p, b p]) ++ later)).run (turns.flatMap (turnSlots ld id)) =
        .answers ((ps.drop turns.length).flatMap (fun p => [a p, b p]) ++ later) := by
  induction turns generalizing ps n with
  | nil => exact ⟨rfl, by simp⟩
  | cons x rest ih =>
    cases ps with
    | nil => simp at hpos
    | cons p ps =>
      obtain ⟨q, u, v⟩ := x
      simp only [List.map_cons, List.length_cons, List.take_succ_cons, List.cons.injEq] at hpos
      obtain ⟨rfl, hpos⟩ := hpos
      simp only [List.flatMap_cons, turnSlots, List.cons_append, List.nil_append, Environment.answers_read,
        Environment.answers_write] at ha
      obtain ⟨hu, hv, ha⟩ := ha
      have hu : u = a q := hu
      have hv : v = b q := hv
      have ha : (Environment.answers (ps.flatMap (fun p => [a p, b p]) ++ later)).Answers (n + 1 + 1)
        (rest.flatMap (turnSlots ld id)) := ha
      obtain ⟨h1, h2⟩ := ih ps _ hpos ha
      refine ⟨?_, ?_⟩
      · rw [List.length_cons, List.take_succ_cons]
        simp only [turnsOf, List.map_cons]
        rw [hu, hv]
        exact congrArg _ h1
      · simp only [List.length_cons, List.drop_succ_cons]
        rw [← h2]
        rfl

end Sys2Proof.Machine
end

