-- ==== Sys2Proof/Laws/BusRuns.lean ====
section
/-! SUPPORT. The reference environment along the slots of READ ROM, MATCH ROM and SEARCH ROM (20_memory.md rules R92 to R99):
which devices end up where, and what the samples were. -/

namespace Sys2Proof.Machine

/-! ## Walking through the positions -/

theorem finRange_drop (k : Nat) (h : k < 64) :
    (List.finRange 64).drop k = (⟨k, h⟩ : Position) :: (List.finRange 64).drop (k + 1) := by
  have hlt : k < (List.finRange 64).length := by simpa using h
  rw [List.drop_eq_getElem_cons hlt]
  simp

theorem nextPosition_lt (f : Position → DeviceState) (k : Nat) (h : k + 1 < 64) :
    nextPosition f ⟨k, Nat.lt_of_succ_lt h⟩ = f ⟨k + 1, h⟩ := by simp [nextPosition, h]

theorem nextPosition_last (f : Position → DeviceState) : nextPosition f ⟨63, by decide⟩ = .selected := by
  simp [nextPosition]

/-- All 64 bits agree exactly when the identifiers are the same. -/
theorem all_bits_eq (x y : RomId) :
    ((List.finRange 64).all fun q => idBit x q == idBit y q) = decide (y = x) := by
  rw [Bool.eq_iff_iff, List.all_eq_true]
  simp only [List.mem_finRange, beq_iff_eq, forall_const, decide_eq_true_eq]
  constructor
  · intro h
    exact (romId_ext h).symm
  · rintro rfl
    simp

/-! ## MATCH ROM -/

/-- The devices that stay with the master's bits from position `k` on are selected, all others are idle (R96). -/
theorem run_bus_matching (id : RomId) (devs : List Device) (m k : Nat) (h : k < 64) (P : RomId → Bool)
    (hk : k + m = 63) :
    (Environment.bus (among P (.matching ⟨k, h⟩) devs)).run
        ((((List.finRange 64).drop k).map (idBit id)).map .write) =
      .bus (among (fun rom => P rom && ((List.finRange 64).drop k).all fun q => idBit id q == idBit rom q)
        .selected devs) := by
  induction m generalizing k P with
  | zero =>
    obtain rfl : k = 63 := by omega
    have hd : (List.finRange 64).drop 64 = [] := by simp
    rw [finRange_drop 63 h, hd]
    simp only [List.map_cons, List.map_nil, Environment.run_cons, Environment.run_nil, Environment.next_bus, Slot.kind,
      busAfter_matching]
    rw [nextPosition_last]
    simp
  | succ m ih =>
    rw [finRange_drop k h]
    simp only [List.map_cons, Environment.run_cons, Environment.next_bus, Slot.kind, busAfter_matching]
    rw [nextPosition_lt _ _ (by omega), ih (k + 1) (by omega) _ (by omega)]
    simp [Bool.and_assoc]

/-! ## READ ROM -/

/-- Every sample from position `k` on is the AND of the devices' bits, and every device ends selected (R92, R93). -/
theorem run_bus_readRom (devs : List Device) (id : RomId) (m k : Nat) (h : k < 64) (n : Nat) (hk : k + m = 63)
    (ha : (Environment.bus (among (fun _ => true) (.readRom ⟨k, h⟩) devs)).Answers n
      ((((List.finRange 64).drop k).map (idBit id)).map .read)) :
    (Environment.bus (among (fun _ => true) (.readRom ⟨k, h⟩) devs)).run
        ((((List.finRange 64).drop k).map (idBit id)).map .read) = .bus (among (fun _ => true) .selected devs) ∧
      ∀ q : Position, k ≤ q.val → idBit id q = devs.all fun d => idBit d.rom q := by
  induction m generalizing k n with
  | zero =>
    obtain rfl : k = 63 := by omega
    have hd : (List.finRange 64).drop 64 = [] := by simp
    rw [finRange_drop 63 h, hd] at ha ⊢
    simp only [List.map_cons, List.map_nil, Environment.run_cons, Environment.run_nil, Environment.next_bus, Slot.kind,
      busAfter_readRom, Environment.answers_read, Environment.level_bus, busAnswer_readRom] at ha ⊢
    rw [nextPosition_last]
    refine ⟨rfl, fun q hq => ?_⟩
    obtain rfl : q = ⟨63, h⟩ := Fin.ext (by simp; omega)
    simpa using ha.1
  | succ m ih =>
    rw [finRange_drop k h] at ha ⊢
    simp only [List.map_cons, Environment.run_cons, Environment.next_bus, Slot.kind, busAfter_readRom,
      Environment.answers_read, Environment.level_bus, busAnswer_readRom] at ha ⊢
    obtain ⟨ha, hb⟩ := ha
    rw [nextPosition_lt _ _ (by omega)] at hb ⊢
    obtain ⟨h1, h2⟩ := ih (k + 1) (by omega) _ (by omega) hb
    refine ⟨h1, fun q hq => ?_⟩
    by_cases hqk : q.val = k
    · obtain rfl : q = ⟨k, h⟩ := Fin.ext hqk
      simpa using ha
    · exact h2 q (by omega)

/-! ## SEARCH ROM -/

/-- A device has bit `b` at position `p` after the bits of `id` before it: it takes part there, and answers `b`. -/
def answersAt (devs : List Device) (id : RomId) (p : Position) (b : Bool) : Prop :=
  ∃ d ∈ devs, (∀ q, q < p → idBit d.rom q = idBit id q) ∧ idBit d.rom p = b

/-- What a turn does when somebody takes part in it: the chosen bit is some participant's, nobody-answered does not occur,
and the two samples are equal exactly when the participants disagree (R99, R201). -/
theorem turn_participants (ld : Byte) (devs : List Device) (P : RomId → Bool) (p : Position) (a b old : Bool)
    (hP : ∃ d ∈ devs, P d.rom = true) (ha : a = devs.all fun d => !(P d.rom) || idBit d.rom p)
    (hb : b = devs.all fun d => !(P d.rom) || !(idBit d.rom p)) :
    (∃ d ∈ devs, P d.rom = true ∧ idBit d.rom p = chosenBit ld p a b old) ∧ ¬ (a = true ∧ b = true) ∧
      (a = b ↔ (∃ d ∈ devs, P d.rom = true ∧ idBit d.rom p = false) ∧
        ∃ d ∈ devs, P d.rom = true ∧ idBit d.rom p = true) := by
  obtain ⟨d0, hd0, hPd0⟩ := hP
  have someone_low : a = false ↔ ∃ d ∈ devs, P d.rom = true ∧ idBit d.rom p = false := by
    rw [ha, List.all_eq_false]
    simp
  have someone_high : b = false ↔ ∃ d ∈ devs, P d.rom = true ∧ idBit d.rom p = true := by
    rw [hb, List.all_eq_false]
    simp
  rw [← someone_low, ← someone_high]
  have hd0low : a = true → idBit d0.rom p = true := by
    intro h
    by_contra hne
    have := someone_low.mpr ⟨d0, hd0, hPd0, by simpa using hne⟩
    simp [h] at this
  have hd0high : b = true → idBit d0.rom p = false := by
    intro h
    by_contra hne
    have := someone_high.mpr ⟨d0, hd0, hPd0, by simpa using hne⟩
    simp [h] at this
  have hnot : ¬ (a = true ∧ b = true) := by
    rintro ⟨h1, h2⟩
    have := hd0low h1
    rw [hd0high h2] at this
    cases this
  refine ⟨?_, hnot, ?_⟩
  · cases a <;> cases b
    · cases chosenBit ld p false false old
      · exact someone_low.mp rfl
      · exact someone_high.mp rfl
    · exact ⟨d0, hd0, hPd0, by simp [chosenBit, hd0high rfl]⟩
    · exact ⟨d0, hd0, hPd0, by simp [chosenBit, hd0low rfl]⟩
    · exact absurd ⟨rfl, rfl⟩ hnot
  · cases a <;> cases b <;> simp_all

/-- The turns of a search from position `k` on, when the devices that agree with the found identifier `id'` before `k`, at
least one, take part: there is no abort, some device has that identifier, exactly its bearers end selected, and a position
saw both samples equal exactly when the participants disagreed there (R97, R99, R208). -/
theorem run_bus_search (ld : Byte) (id id' : RomId) (devs : List Device) (m k : Nat) (h : k < 64) (P : RomId → Bool)
    (turns : List Turn) (n : Nat) (tail : List Slot) (hk : k + m = 63)
    (hPk : ∀ rom, P rom = true ↔ ∀ q : Position, q.val < k → idBit rom q = idBit id' q)
    (hP : ∃ d ∈ devs, P d.rom = true)
    (hpos : turns.map Prod.fst = ((List.finRange 64).drop k).take turns.length)
    (htail : tail = [] ∧ turns.length = 64 - k ∨ tail = [.read true, .read true] ∧ turns.length < 64 - k)
    (hfound : ∀ x ∈ turns, idBit id' x.1 = chosenBit ld x.1 x.2.1 x.2.2 (idBit id x.1))
    (ha : (Environment.bus (among P (.searchA ⟨k, h⟩) devs)).Answers n (turns.flatMap (turnSlots ld id) ++ tail)) :
    tail = [] ∧ (∃ d ∈ devs, d.rom = id') ∧
      (Environment.bus (among P (.searchA ⟨k, h⟩) devs)).run (turns.flatMap (turnSlots ld id)) =
        .bus (among (fun rom => decide (rom = id')) .selected devs) ∧
      ∀ x ∈ turns, (x.2.1 = x.2.2 ↔ answersAt devs id' x.1 false ∧ answersAt devs id' x.1 true) := by
  induction m generalizing k P turns n with
  | zero =>
    obtain rfl : k = 63 := by omega
    cases turns with
    | nil =>
      exfalso
      rcases htail with ⟨-, h2⟩ | ⟨h1, h2⟩
      · simp at h2
      · subst h1
        simp only [List.flatMap_nil, List.nil_append, answers_bus_turn] at ha
        exact (turn_participants ld devs P _ _ _ false hP ha.1 ha.2.1).2.1 ⟨rfl, rfl⟩
    | cons x rest =>
      obtain ⟨q, a, b⟩ := x
      rw [finRange_drop 63 h] at hpos
      simp only [List.map_cons, List.length_cons, List.take_succ_cons, List.cons.injEq] at hpos
      obtain ⟨rfl, hpos⟩ := hpos
      simp only [List.flatMap_cons, turnSlots, List.cons_append, List.nil_append] at ha
      rw [answers_bus_turn] at ha
      obtain ⟨hu, hv, -⟩ := ha
      have hr : rest = [] := by
        have hl : rest.length = 0 := by
          rcases htail with ⟨-, h2⟩ | ⟨-, h2⟩
          · simpa using h2
          · simp at h2
        exact List.length_eq_zero_iff.mp hl
      subst hr
      obtain ⟨⟨d, e1, e2, e3⟩, -, e4⟩ := turn_participants ld devs P _ _ _ (idBit id ⟨63, h⟩) hP hu hv
      have hbit := hfound (⟨63, h⟩, a, b) (by simp)
      dsimp only at hbit
      have hrom : ∀ rom, (P rom = true ∧ idBit rom ⟨63, h⟩ = idBit id' ⟨63, h⟩) ↔ rom = id' := by
        intro rom
        constructor
        · rintro ⟨h1, h2⟩
          apply romId_ext
          intro q
          by_cases hq : q.val = 63
          · obtain rfl : q = ⟨63, h⟩ := Fin.ext hq
            exact h2
          · exact (hPk rom).mp h1 q (by omega)
        · rintro rfl
          exact ⟨(hPk _).mpr fun _ _ => rfl, rfl⟩
      refine ⟨?_, ⟨d, e1, (hrom _).mp ⟨e2, e3.trans hbit.symm⟩⟩, ?_, ?_⟩
      · rcases htail with ⟨h1, -⟩ | ⟨-, h2⟩
        · exact h1
        · simp at h2
      · simp only [List.flatMap_cons, turnSlots, List.flatMap_nil, List.append_nil]
        rw [run_bus_turn, nextPosition_last, ← hbit]
        congr 3
        funext rom
        rw [Bool.eq_iff_iff, Bool.and_eq_true, beq_iff_eq, decide_eq_true_eq, ← hrom rom, eq_comm (a := idBit rom _)]
      · intro x hx
        obtain rfl : x = (⟨63, h⟩, a, b) := by simpa using hx
        rw [e4]
        simp only [answersAt, hPk, Fin.lt_def]
  | succ m ih =>
    cases turns with
    | nil =>
      exfalso
      rcases htail with ⟨-, h2⟩ | ⟨h1, h2⟩
      · simp only [List.length_nil] at h2
        omega
      · subst h1
        simp only [List.flatMap_nil, List.nil_append, answers_bus_turn] at ha
        exact (turn_participants ld devs P _ _ _ false hP ha.1 ha.2.1).2.1 ⟨rfl, rfl⟩
    | cons x rest =>
      obtain ⟨q, a, b⟩ := x
      rw [finRange_drop k h] at hpos
      simp only [List.map_cons, List.length_cons, List.take_succ_cons, List.cons.injEq] at hpos
      obtain ⟨rfl, hpos⟩ := hpos
      simp only [List.flatMap_cons, turnSlots, List.cons_append, List.nil_append] at ha
      rw [answers_bus_turn] at ha
      obtain ⟨hu, hv, ha⟩ := ha
      obtain ⟨⟨d, e1, e2, e3⟩, -, e4⟩ := turn_participants ld devs P _ _ _ (idBit id ⟨k, h⟩) hP hu hv
      have hbit := hfound (⟨k, h⟩, a, b) (by simp)
      dsimp only at hbit
      rw [← hbit] at e3 ha
      simp only [Environment.answers_write, Environment.next_bus, Slot.kind, busAfter_searchW] at ha
      rw [nextPosition_lt _ _ (by omega)] at ha
      have hP' : ∀ rom, (P rom && (idBit id' ⟨k, h⟩ == idBit rom ⟨k, h⟩)) = true ↔
          ∀ q : Position, q.val < k + 1 → idBit rom q = idBit id' q := by
        intro rom
        rw [Bool.and_eq_true, beq_iff_eq, hPk rom]
        constructor
        · rintro ⟨h1, h2⟩ q hq
          by_cases hqk : q.val = k
          · obtain rfl : q = ⟨k, h⟩ := Fin.ext hqk
            exact h2.symm
          · exact h1 q (by omega)
        · intro hq
          exact ⟨fun q hqk => hq q (by omega), (hq ⟨k, h⟩ (Nat.lt_succ_self k)).symm⟩
      obtain ⟨h1, h2, h3, h4⟩ := ih (k + 1) (by omega) _ rest _ (by omega) hP'
        ⟨d, e1, by rw [Bool.and_eq_true, beq_iff_eq]; exact ⟨e2, e3.symm⟩⟩ hpos
        (by
          simp only [List.length_cons] at htail
          rcases htail with ⟨h1, h2⟩ | ⟨h1, h2⟩
          · exact .inl ⟨h1, by omega⟩
          · exact .inr ⟨h1, by omega⟩)
        (fun x hx => hfound x (by simp [hx])) ha
      refine ⟨h1, h2, ?_, ?_⟩
      · rw [List.flatMap_cons, Environment.run_append]
        simp only [turnSlots]
        rw [run_bus_turn, nextPosition_lt _ _ (by omega), ← hbit]
        exact h3
      · intro x hx
        rcases List.mem_cons.mp hx with rfl | hx
        · rw [e4]
          simp only [answersAt, hPk, Fin.lt_def]
        · exact h4 x hx

end Sys2Proof.Machine
end

