-- ==== Sys2Proof/Laws/Commands.lean ====
section
/-! SUPPORT. The commands: what a bus command that is a run of slots leaves (`RanSlots` with its I/O space), the refusals,
and `CONFIG`. -/

namespace Sys2Proof.Machine

/-! ## Bus commands -/

theorem accept_slots_bound (i : Instr) (s : State) : (accept i s).ctl.bound = true := by simp [Controller.bound]

theorem hostKeeps_accept (i : Instr) (s : State) (h : s.ctl.configured = true) (r : Ref) :
    hostKeeps r (accept i s) = hostKeeps r s := by
  simp [hostKeeps, Controller.boundMask, Controller.bound, Controller.mask, h]

theorem HandlerWrites.of_accept {i : Instr} {s : State} (h : s.ctl.configured = true) {a k : Nat} {v : Bool}
    (hw : HandlerWrites (accept i s) a k v) : HandlerWrites s a k v := by
  obtain ⟨hg, ws, hws, w, hw, ha, hk, hv⟩ := hw
  exact ⟨hg, ws, hws, w, hw, ha, hostKeeps_accept i s h w.ref ▸ hk, hv⟩

/-- Everything a completed bus command leaves, from its slots. -/
theorem ranSlots_of_slots {i : Instr} {sls : List Slot} {s u : State} (st : Status) (v : Byte)
    (h : Slots sls (accept i s) u) (hne : sls ≠ []) : RanSlots sls s (respond st v u) where
  host := ⟨h.parked, h.gie, h.inbox, h.timing⟩
  binding := ⟨h.binding.ddrRef, h.binding.portRef, h.binding.pinRef, h.binding.pinIdx, h.binding.configured⟩
  idle := rfl
  notPulling := h.notPulling hne
  released := (Controller.released_congr h.binding u.io).mpr (h.cleared hne (accept_slots_bound i s))
  trace := h.trace
  env := h.env
  answers := h.answers
  lines := h.lines
  draws := h.draws
  handlers := h.handlers

/-- A bus command whose body is a run of slots, as one next state (R151 to R200). -/
theorem busCommand_spec {i : Instr} {body : State → Byte × State} {s : State} {sls : List Slot}
    (hc : s.ctl.configured = true) (h : Slots sls (accept i s) (body (accept i s)).2) (hne : sls ≠ []) :
    RanSlots sls s (busCommand i body s) ∧
      (busCommand i body s).rw = some (responseWord .done (body (accept i s)).1) ∧
      (busCommand i body s).ctl.romId = (body (accept i s)).2.ctl.romId ∧
      (busCommand i body s).ctl.lastDev = (body (accept i s)).2.ctl.lastDev := by
  have hrun : busCommand i body s = respond .done (body (accept i s)).1 (body (accept i s)).2 := by
    simp [busCommand, complete, hc]
  rw [hrun]
  exact ⟨ranSlots_of_slots _ _ h hne, rfl, rfl, rfl⟩

/-- The I/O space after a bus command: no handler ran. -/
theorem busCommand_io_quiet {i : Instr} {body : State → Byte × State} {s : State} {sls : List Slot}
    (hc : s.ctl.configured = true) (h : Slots sls (accept i s) (body (accept i s)).2) (hne : sls ≠ [])
    (hq : Quiet s) : IoAfterPin s.ctl s.io (busCommand i body s).io := by
  have hrun : busCommand i body s = respond .done (body (accept i s)).1 (body (accept i s)).2 := by
    simp [busCommand, complete, hc]
  rw [hrun]
  exact h.toIoStep.io_quiet hq (h.cleared hne (accept_slots_bound i s))

/-- The I/O space after a bus command, whatever the handlers did, bit by bit. -/
theorem busCommand_io {i : Instr} {body : State → Byte × State} {s : State} {sls : List Slot}
    (hc : s.ctl.configured = true) (h : Slots sls (accept i s) (body (accept i s)).2) (a k : Nat) :
    ((busCommand i body s).io.read a).getLsbD k = (s.io.read a).getLsbD k ∨
      s.ctl.binds a k ∧ ((busCommand i body s).io.read a).getLsbD k = false ∨
      HandlerWrites s a k (((busCommand i body s).io.read a).getLsbD k) := by
  have hrun : busCommand i body s = respond .done (body (accept i s)).1 (body (accept i s)).2 := by
    simp [busCommand, complete, hc]
  rw [hrun]
  exact (h.io a k).imp id (Or.imp id fun hw => HandlerWrites.of_accept hc hw)

theorem busCommand_refused {i : Instr} {body : State → Byte × State} {s : State} (hc : s.ctl.configured = false) :
    busCommand i body s = refuse .notConfigured s := by simp [busCommand, hc]

/-! ## The bodies of the eight bus commands as runs of slots -/

theorem wbit_slots (b : Bool) (s : State) : Slots [.write b] s (noResult (writeBit b s)).2 := Slots.writeBit b s

theorem rbit_slots (s : State) : Slots [.read (s.farSide.level .read s.draws)] s (readBit s).2 :=
  readBit_fst s ▸ Slots.readBit s

theorem pres_slots (s : State) : Slots [.reset (s.farSide.level .reset s.draws)] s (resetSlot s).2 :=
  resetSlot_fst s ▸ Slots.resetSlot s

theorem sendb_slots (v : Byte) (s : State) : Slots (byteWriteSlots v) s (noResult (sendByte v s)).2 :=
  Slots.sendByte v s

theorem byteWriteSlots_ne (v : Byte) : byteWriteSlots v ≠ [] := by simp [byteWriteSlots, byteBits_eq]

theorem byteReadSlots_ne (v : Byte) : byteReadSlots v ≠ [] := by simp [byteReadSlots, byteBits_eq]

theorem byteWriteSlots_append_ne (v : Byte) (x : List Slot) : byteWriteSlots v ++ x ≠ [] := by
  simp [byteWriteSlots_ne]

theorem turnSlots_length (ld : Byte) (id : RomId) (turns : List Turn) :
    (turns.flatMap (turnSlots ld id)).length = 3 * turns.length := by
  induction turns with
  | nil => rfl
  | cons x rest ih =>
    rw [List.flatMap_cons, List.length_append, ih]
    simp only [turnSlots, List.length_cons, List.length_nil]
    omega

@[simp] theorem byteWriteSlots_length (v : Byte) : (byteWriteSlots v).length = 8 := by simp [byteWriteSlots]

@[simp] theorem byteReadSlots_length (v : Byte) : (byteReadSlots v).length = 8 := by simp [byteReadSlots]

theorem recordedDev_le (ld : Byte) (id : RomId) (nd : Byte) (turns : List Turn) (h : nd ≤ Config.devMax) :
    recordedDev ld id nd turns ≤ Config.devMax := by
  induction turns generalizing nd with
  | nil => exact h
  | cons x rest ih =>
    refine ih _ ?_
    dsimp only
    split
    · exact x.1.number_le
    · exact h

/-- Every bus command is a body under `busCommand`, and the body is a run of at least one and at most 200 slots that leaves
`LASTDEV` legal (R151 to R200, R237). -/
theorem exec_bus (i : Instr) (hi : i.isBusCommand = true) :
    ∃ body : State → Byte × State, (∀ s, exec i s = .next (busCommand i body s)) ∧
      ∀ s, (s.ctl.lastDev ≤ Config.devMax → (body s).2.ctl.lastDev ≤ Config.devMax) ∧
        ∃ sls, sls ≠ [] ∧ sls.length ≤ 200 ∧ Slots sls s (body s).2 := by
  cases i with
  | config ddr port pin idx => cases hi
  | rdreg reg => cases hi
  | wrreg reg val => cases hi
  | wbit b => exact ⟨_, fun _ => rfl, fun s => ⟨fun h => by simpa [noResult], _, by simp, by simp, wbit_slots b s⟩⟩
  | rbit => exact ⟨_, fun _ => rfl, fun s => ⟨fun h => by simpa, _, by simp, by simp, rbit_slots s⟩⟩
  | pres =>
    exact ⟨_, fun _ => rfl, fun s => ⟨fun h => by simpa [resetSlot_snd], _, by simp, by simp, pres_slots s⟩⟩
  | sendb v =>
    exact ⟨_, fun _ => rfl, fun s => ⟨fun h => by simpa [noResult], _, byteWriteSlots_ne v, by simp, sendb_slots v s⟩⟩
  | recvb =>
    exact ⟨_, fun _ => rfl, fun s => ⟨fun h => by simpa, _, byteReadSlots_ne _, by simp, Slots.receiveByte s⟩⟩
  | rdrom =>
    exact ⟨_, fun _ => rfl, fun s => ⟨fun h => by rwa [(readRomBody_spec s).2.2], _, byteWriteSlots_append_ne _ _, by simp,
      (readRomBody_spec s).1⟩⟩
  | matchrom =>
    exact ⟨_, fun _ => rfl, fun s => ⟨fun h => by rwa [(matchRomBody_spec s).2.2.2], _, byteWriteSlots_append_ne _ _,
      by simp, (matchRomBody_spec s).1⟩⟩
  | srchrom =>
    refine ⟨_, fun _ => rfl, fun s => ?_⟩
    obtain ⟨turns, -, ⟨h1, h2, h3, h4⟩ | ⟨h1, h2, -, h4⟩⟩ := searchBody_spec s
    · refine ⟨fun _ => ?_, _, byteWriteSlots_append_ne _ _, ?_, h2⟩
      · rw [h4, h3]
        exact recordedDev_le _ _ _ _ (by decide)
      · rw [List.length_append, turnSlots_length, byteWriteSlots_length]
        omega
    · refine ⟨fun h => by rwa [h4], _, ?_, ?_, h2⟩
      · rw [List.append_assoc]
        exact byteWriteSlots_append_ne _ _
      · rw [List.length_append, List.length_append, turnSlots_length, byteWriteSlots_length, List.length_cons,
          List.length_cons, List.length_nil]
        omega

/-! ## CONFIG -/

theorem ioClrBit_bit (s : State) (r : Ref) (k : PinIndex) (hr : r = s.ctl.ddrRef ∨ r = s.ctl.portRef)
    (hk : k = s.ctl.pinIdx) (a j : Nat) :
    ((ioClrBit r k s).io.read a).getLsbD j = (s.io.read a).getLsbD j ∨
      s.ctl.binds a j ∧ ((ioClrBit r k s).io.read a).getLsbD j = false := by
  rw [ioClrBit_read]
  split
  · rename_i h
    refine .inr ⟨⟨?_, by rw [h.2, hk]⟩, rfl⟩
    rcases hr with hr | hr
    · exact .inl (by rw [h.1, hr])
    · exact .inr (by rw [h.1, hr])
  · exact .inl rfl

/-- Clearing a bound bit. -/
theorem IoStep.ioClrBit (s : State) (r : Ref) (hr : r = s.ctl.ddrRef ∨ r = s.ctl.portRef) :
    IoStep s (ioClrBit r s.ctl.pinIdx s) :=
  ⟨rfl, rfl, rfl, rfl, SameBinding.refl _, rfl, List.suffix_rfl, fun _ => rfl,
    fun a k => (ioClrBit_bit s r _ hr rfl a k).imp id .inl, fun h => Memory.wf_write _ _ _ r.isLt h⟩

/-- The steps of `CONFIG` after the binding and its window, up to the last window (R145). -/
def configTail (s : State) : State :=
  let s := window (release s)
  let s := window (ioClrBit s.ctl.portRef s.ctl.pinIdx s)
  let s := window (setLastDev Config.devNone s)
  window (wait s.timing.tSettle s)

/-- The steps of `CONFIG` after the binding: the I/O space changes in the bits now bound, both of which end 0, and where
a handler wrote (R145). -/
theorem configTail_spec (s : State) (hb : s.ctl.bound = true) :
    IoStep s (configTail s) ∧ s.ctl.released (configTail s).io := by
  have h1 : IoStep s (release s) :=
    (IoStep.ioClrBit s s.ctl.ddrRef (.inl rfl)).trans (IoStep.of_eq rfl ⟨rfl, rfl, rfl, rfl, rfl⟩ rfl)
  have hctl : (window (release s)).ctl = { s.ctl with pulling := false, trace := s.ctl.trace ++ [.rel] } := by
    simp [release]
  have htail : configTail s = window (wait s.timing.tSettle (window (setLastDev Config.devNone (window
      (Machine.ioClrBit s.ctl.portRef s.ctl.pinIdx (window (release s))))))) := by
    simp only [configTail, window_timing, setLastDev_timing, ioClrBit_timing, release_timing]
    rw [hctl]
  rw [htail]
  have h2 := h1.trans (IoStep.window (release s))
  have h3 : IoStep s (Machine.ioClrBit s.ctl.portRef s.ctl.pinIdx (window (release s))) := by
    have := IoStep.ioClrBit (window (release s)) s.ctl.portRef (.inr (by rw [hctl]))
    rw [hctl] at this
    exact h2.trans this
  have hd : ((window (release s)).io.read s.ctl.ddrRef.toNat).getLsbD s.ctl.pinIdx.toNat = false := by
    have hrel : ((release s).io.read s.ctl.ddrRef.toNat).getLsbD s.ctl.pinIdx.toNat = false := by
      simp [release, ioClrBit_read]
    rcases window_read (release s) s.ctl.ddrRef.toNat s.ctl.pinIdx.toNat with h | h
    · rw [h, hrel]
    · exact absurd (h1.handlerWrites h) (HandlerWrites.not_bound (by simp) hb ⟨.inl rfl, rfl⟩ _)
  have hr3 : s.ctl.released (Machine.ioClrBit s.ctl.portRef s.ctl.pinIdx (window (release s))).io := by
    constructor
    · rw [ioClrBit_read]
      split
      · rfl
      · exact hd
    · rw [ioClrBit_read, if_pos ⟨rfl, rfl⟩]
  have h4 := ((((IoStep.window (Machine.ioClrBit s.ctl.portRef s.ctl.pinIdx (window (release s)))).trans
    (IoStep.of_eq (t := setLastDev Config.devNone _) rfl ⟨rfl, rfl, rfl, rfl, rfl⟩ rfl)).trans
    (IoStep.window _)).trans (IoStep.of_eq (t := wait s.timing.tSettle _) rfl ⟨rfl, rfl, rfl, rfl, rfl⟩ rfl)).trans
    (IoStep.window _)
  refine ⟨h3.trans h4, ?_⟩
  have hb3 := (bound_congr h3.binding h3.op).trans hb
  exact (Controller.released_congr h3.binding _).mp
    (h4.keeps_released (by simp) hb3 ((Controller.released_congr h3.binding _).mpr hr3))

/-- The state in which the steps of `CONFIG` after the binding begin. -/
def configStart (ddr port pin : Ref) (idx : PinIndex) (s : State) : State :=
  bindPin ddr port pin idx (accept (.config ddr port pin idx) s)

/-- All that `CONFIG` does (R145). -/
theorem config_spec (ddr port pin : Ref) (idx : PinIndex) (s : State) :
    let t := complete (.config ddr port pin idx) (configBody ddr port pin idx) s
    t.ctl =
        { s.ctl with
          ddrRef := ddr
          portRef := port
          pinRef := pin
          pinIdx := idx
          lastDev := Config.devNone
          configured := true
          seq := Sequencer.idle
          pulling := false
          trace := s.ctl.trace ++ [.rel, .wait s.timing.tSettle] } ∧
      t.rw = some (responseWord .done 0x00#8) ∧ t.draws = s.draws ∧ t.lines = s.lines ∧
      ∃ u, t = { u with ctl := t.ctl, rw := t.rw } ∧ u.draws = s.draws ∧
        IoStep (configStart ddr port pin idx s) u ∧
        (configStart ddr port pin idx s).ctl.released u.io := by
  have hb : (window (configStart ddr port pin idx s)).ctl.bound = true := by
    simp [configStart, Controller.bound]
  obtain ⟨h1, h2⟩ := configTail_spec (window (configStart ddr port pin idx s)) hb
  have hctl : (window (configStart ddr port pin idx s)).ctl = (configStart ddr port pin idx s).ctl := by simp
  rw [hctl] at h2
  refine ⟨?_, rfl, ?_, ?_, configTail (window (configStart ddr port pin idx s)), rfl, ?_, (IoStep.window _).trans h1, h2⟩
  · simp [complete, configBody, noResult, wait, release, Machine.ioClrBit]
  · simp [complete, configBody, noResult, wait, release, Machine.ioClrBit]
  · simp [complete, configBody, noResult, wait, release, Machine.ioClrBit]
  · simp [configTail, configStart, wait, release, Machine.ioClrBit]

end Sys2Proof.Machine
end

