-- ==== Sys2Proof/Laws/Encoding.lean ====
section
/-! SUPPORT. Fields of concatenated words: what the decoder reads back from a word the encoder put together. -/

namespace Sys2Proof

/-- A field that lies in the low part of a concatenation. -/
theorem extract_append_low {m n : Nat} (x : BitVec m) (y : BitVec n) (lo len : Nat) (h : lo + len ≤ n) :
    (x ++ y).extractLsb' lo len = y.extractLsb' lo len := by
  apply BitVec.eq_of_getLsbD_eq
  intro i hi
  have : lo + i < n := by omega
  simp [BitVec.getLsbD_append, hi, this]

/-- A field that lies in the high part of a concatenation. -/
theorem extract_append_high {m n : Nat} (x : BitVec m) (y : BitVec n) (lo len : Nat) (h : n ≤ lo) :
    (x ++ y).extractLsb' lo len = x.extractLsb' (lo - n) len := by
  apply BitVec.eq_of_getLsbD_eq
  intro i hi
  have h1 : ¬ lo + i < n := by omega
  have h2 : lo + i - n = lo - n + i := by omega
  simp [BitVec.getLsbD_append, hi, h1, h2]

theorem extract_self {n : Nat} (y : BitVec n) : y.extractLsb' 0 n = y := by
  apply BitVec.eq_of_getLsbD_eq
  intro i hi
  simp [hi]

/-- A concatenation as a number. -/
theorem toNat_append_add {m n : Nat} (x : BitVec m) (y : BitVec n) :
    (x ++ y).toNat = x.toNat * 2 ^ n + y.toNat := by
  rw [BitVec.toNat_append, ← Nat.shiftLeft_add_eq_or_of_lt y.isLt, Nat.shiftLeft_eq]

/-- A field as a number. -/
theorem field_toNat (lo len : Nat) (cw : CommandWord) :
    (field lo len cw).toNat = cw.toNat / 2 ^ lo % 2 ^ len := by
  simp [field, Nat.shiftRight_eq_div_pow]

theorem zeroField_iff (lo len : Nat) (cw : CommandWord) :
    zeroField lo len cw = true ↔ cw.toNat / 2 ^ lo % 2 ^ len = 0 := by
  rw [zeroField, beq_iff_eq, ← field_toNat, ← BitVec.toNat_inj]
  simp

/-- A word under a mask that covers all bits from `lo` up (the masks of R114, but for `RDREG`'s). -/
theorem and_high_mask (cw : CommandWord) (lo : Nat) :
    (cw &&& (BitVec.allOnes 32 <<< lo)).toNat = cw.toNat / 2 ^ lo * 2 ^ lo := by
  have h : cw &&& (BitVec.allOnes 32 <<< lo) = (cw >>> lo) <<< lo := by
    apply BitVec.eq_of_getLsbD_eq
    intro i hi
    rw [BitVec.getLsbD_and, BitVec.getLsbD_shiftLeft, BitVec.getLsbD_shiftLeft, BitVec.getLsbD_allOnes,
      BitVec.getLsbD_ushiftRight]
    by_cases hlo : i < lo
    · simp [hlo]
    · have h1 : i - lo < 32 := by omega
      have h2 : lo + (i - lo) = i := by omega
      simp [hlo, h1, h2, hi]
  rw [h, BitVec.toNat_shiftLeft, BitVec.toNat_ushiftRight, Nat.shiftLeft_eq, Nat.shiftRight_eq_div_pow]
  exact Nat.mod_eq_of_lt (Nat.lt_of_le_of_lt (Nat.div_mul_le_self _ _) cw.isLt)

theorem checked_eq {zero : Bool} {i j : Instr} : checked zero i = .command j ↔ zero = true ∧ i = j := by
  cases zero <;> simp [checked]

theorem decode_branch {c : Prop} [Decidable c] {zero : Bool} {i j : Instr} {other : Decoded}
    (h : (if c then checked zero j else other) = .command i) : (c ∧ zero = true ∧ j = i) ∨ other = .command i := by
  split at h
  · exact .inl ⟨by assumption, checked_eq.mp h⟩
  · exact .inr h

/-- Everything a word that decodes to a command can be: one opcode, its zero fields zero, its operands the fields (R112,
R114). -/
theorem decode_cases {cw : CommandWord} {i : Instr} (h : decode cw = .command i) :
    ((field 28 4 cw).toNat = 1 ∧ zeroField 27 1 cw = true ∧
        .config (field 16 8 cw) (field 8 8 cw) (field 0 8 cw) (field 24 3 cw) = i) ∨
      ((field 28 4 cw).toNat = 2 ∧ zeroField 1 27 cw = true ∧ .wbit (field 0 1 cw == 1#1) = i) ∨
      ((field 28 4 cw).toNat = 3 ∧ zeroField 0 28 cw = true ∧ .rbit = i) ∨
      ((field 28 4 cw).toNat = 4 ∧ zeroField 0 28 cw = true ∧ .pres = i) ∨
      ((field 28 4 cw).toNat = 5 ∧ zeroField 8 20 cw = true ∧ .sendb (field 0 8 cw) = i) ∨
      ((field 28 4 cw).toNat = 6 ∧ zeroField 0 28 cw = true ∧ .recvb = i) ∨
      ((field 28 4 cw).toNat = 7 ∧ zeroField 0 28 cw = true ∧ .rdrom = i) ∨
      ((field 28 4 cw).toNat = 8 ∧ zeroField 0 28 cw = true ∧ .matchrom = i) ∨
      ((field 28 4 cw).toNat = 9 ∧ zeroField 0 28 cw = true ∧ .srchrom = i) ∨
      ((field 28 4 cw).toNat = 10 ∧ (zeroField 12 16 cw && zeroField 0 8 cw) = true ∧ .rdreg (field 8 4 cw) = i) ∨
      ((field 28 4 cw).toNat = 11 ∧ zeroField 12 16 cw = true ∧ .wrreg (field 8 4 cw) (field 0 8 cw) = i) := by
  unfold decode at h
  dsimp only at h
  iterate 10 refine (decode_branch h).imp_right fun h => ?_
  exact (decode_branch h).resolve_right (by simp)

end Sys2Proof
end

