-- ==== Sys2Proof/Laws/Enumeration.lean ====
section
/-! SUPPORT. The combinatorics of an enumeration (43_rom_commands.md rules R204 to R210), about identifiers and positions
alone: the order of identifiers, the positions that still have an unexplored branch, and why a pass finds the next
identifier in that order. -/

namespace Sys2Proof.Machine

/-! ## The order of identifiers -/

/-- Two different identifiers have a first position where they differ. -/
theorem first_diff {x y : RomId} (h : x ≠ y) : ∃ p, (∀ q, q < p → idBit x q = idBit y q) ∧ idBit x p ≠ idBit y p := by
  have : ∃ p : Position, idBit x p ≠ idBit y p := by
    by_contra hne
    push Not at hne
    exact h (romId_ext hne)
  obtain ⟨p, hp⟩ := this
  have key : ∀ n, ∀ p : Position, p.val = n → idBit x p ≠ idBit y p → ∃ p, (∀ q, q < p → idBit x q = idBit y q) ∧ idBit x p ≠ idBit y p := by
    intro n
    induction n using Nat.strong_induction_on with
    | _ n ih =>
      intro p hpn hp
      by_cases hall : ∀ q, q < p → idBit x q = idBit y q
      · exact ⟨p, hall, hp⟩
      · push Not at hall
        obtain ⟨q, hq, hne⟩ := hall
        exact ih q.val (by rw [← hpn]; exact hq) q rfl hne
  exact key _ p rfl hp

theorem comesBefore_asymm {x y : RomId} (h : comesBefore x y) (h' : comesBefore y x) : False := by
  obtain ⟨p, h1, h2, h3⟩ := h
  obtain ⟨q, k1, k2, k3⟩ := h'
  rcases lt_trichotomy p q with h | h | h
  · rw [k1 p h] at h3; rw [h2] at h3; cases h3
  · subst h; rw [k2] at h3; cases h3
  · rw [h1 q h] at k3; rw [k2] at k3; cases k3
theorem comesBefore_trans {x y z : RomId} (h : comesBefore x y) (h' : comesBefore y z) : comesBefore x z := by
  obtain ⟨p, h1, h2, h3⟩ := h
  obtain ⟨q, k1, k2, k3⟩ := h'
  rcases lt_trichotomy p q with h | h | h
  · exact ⟨p, fun r hr => (h1 r hr).trans (k1 r (lt_trans hr h)), h2, by rw [← k1 p h]; exact h3⟩
  · subst h; rw [k2] at h3; cases h3
  · exact ⟨q, fun r hr => (h1 r (lt_trans hr h)).trans (k1 r hr), by rw [h1 q h]; exact k2, k3⟩
theorem comesBefore_total {x y : RomId} (h : x ≠ y) : comesBefore x y ∨ comesBefore y x := by
  obtain ⟨p, h1, h2⟩ := first_diff h
  cases hx : idBit x p
  · left; exact ⟨p, h1, hx, by rw [hx] at h2; simpa using h2.symm⟩
  · right; exact ⟨p, fun q hq => (h1 q hq).symm, by rw [hx] at h2; simpa using h2.symm, hx⟩

theorem number_lt (p q : Position) : p.number < q.number ↔ p < q := by
  rw [BitVec.lt_def, Position.number_toNat, Position.number_toNat, Fin.lt_def]
  omega

theorem chosenBit_below (ld : Byte) (p : Position) (old : Bool) (h : p.number < ld) :
    chosenBit ld p false false old = old := by
  have h1 : p.number ≠ ld := by
    rintro rfl
    exact BitVec.lt_irrefl _ h
  have h2 : ¬ p.number > ld := by
    rw [gt_iff_lt, BitVec.lt_def]
    rw [BitVec.lt_def] at h
    omega
  simp [chosenBit, h1, h2]

theorem chosenBit_above (ld : Byte) (p : Position) (old : Bool) (h : p.number > ld) :
    chosenBit ld p false false old = false := by
  have h1 : p.number ≠ ld := by
    rintro rfl
    exact BitVec.lt_irrefl _ h
  simp [chosenBit, h1, h]

/-! ## Positions where the participants disagree, and unexplored branches -/

/-- The devices that agree with `r` before `p` disagree at `p`: a discrepancy (R99). -/
def disagreeAt (devs : List Device) (r : RomId) (p : Position) : Prop :=
  answersAt devs r p false ∧ answersAt devs r p true

/-- `r` took the 0 branch at `p`, and the 1 branch has a device. -/
def openAt (devs : List Device) (r : RomId) (p : Position) : Prop := idBit r p = false ∧ answersAt devs r p true

/-- The positions that record themselves in a pass that found `r` with `LASTDEV = ld` and `ROM_ID = old` before it (R205,
R206). -/
def recordsAt (devs : List Device) (ld : Byte) (old r : RomId) (p : Position) : Prop :=
  disagreeAt devs r p ∧ (p.number > ld ∨ p.number < ld ∧ idBit old p = false)

/-- For the identifier of a device: an open position is a discrepancy where it has 0. -/
theorem openAt_iff {devs : List Device} {r : RomId} (hr : ∃ d ∈ devs, d.rom = r) (p : Position) : openAt devs r p ↔ disagreeAt devs r p ∧ idBit r p = false := by
  obtain ⟨d, hd, rfl⟩ := hr
  constructor
  · rintro ⟨h1, h2⟩; exact ⟨⟨⟨d, hd, fun _ _ => rfl, h1⟩, h2⟩, h1⟩
  · rintro ⟨⟨_, h2⟩, h3⟩; exact ⟨h3, h2⟩

theorem disagreeAt_congr {devs : List Device} {r r' : RomId} {p : Position} (h : ∀ q, q < p → idBit r q = idBit r' q) : disagreeAt devs r p ↔ disagreeAt devs r' p := by
  have : ∀ b, answersAt devs r p b ↔ answersAt devs r' p b := by
    intro b
    unfold answersAt
    constructor
    · rintro ⟨d, hd, h1, h2⟩; exact ⟨d, hd, fun q hq => (h1 q hq).trans (h q hq), h2⟩
    · rintro ⟨d, hd, h1, h2⟩; exact ⟨d, hd, fun q hq => (h1 q hq).trans (h q hq).symm, h2⟩
  unfold disagreeAt; rw [this, this]

/-- Where two devices first differ the participants disagree. -/
theorem disagreeAt_of_diff {devs : List Device} {x r : RomId} {p : Position} (hx : ∃ d ∈ devs, d.rom = x) (hr : ∃ d ∈ devs, d.rom = r)
    (h : ∀ q, q < p → idBit x q = idBit r q) (hne : idBit x p ≠ idBit r p) : disagreeAt devs r p := by
  obtain ⟨d, hd, rfl⟩ := hx
  obtain ⟨e, he, rfl⟩ := hr
  have h1 : ∀ b, idBit d.rom p = b → answersAt devs e.rom p b := fun b hb => ⟨d, hd, h, hb⟩
  have h2 : ∀ b, idBit e.rom p = b → answersAt devs e.rom p b := fun b hb => ⟨e, he, fun _ _ => rfl, hb⟩
  cases hb : idBit d.rom p
  · cases hb2 : idBit e.rom p
    · exact absurd (hb.trans hb2.symm) hne
    · exact ⟨h1 _ hb, h2 _ hb2⟩
  · cases hb2 : idBit e.rom p
    · exact ⟨h2 _ hb2, h1 _ hb⟩
    · exact absurd (hb.trans hb2.symm) hne

/-- The deviation a pass records is its highest open position, 0x00 if there is none. -/
theorem pass_records (devs : List Device) (ld nd : Byte) (r r' : RomId) (hr' : ∃ d ∈ devs, d.rom = r')
   (hch : ∀ p, disagreeAt devs r' p → idBit r' p = chosenBit ld p false false (idBit r p))
   (hrec : (nd = 0#8 ∧ ∀ p, ¬ recordsAt devs ld r r' p) ∨ ∃ p, nd = p.number ∧ recordsAt devs ld r r' p ∧ ∀ q, recordsAt devs ld r r' q → q ≤ p) :
   (∀ q, openAt devs r' q → q.number ≤ nd) ∧ (nd = 0#8 ∨ ∃ p, nd = p.number ∧ openAt devs r' p) := by
  have hro : ∀ p, recordsAt devs ld r r' p ↔ openAt devs r' p := by
    intro p
    rw [openAt_iff hr']
    unfold recordsAt
    constructor
    · rintro ⟨h1, h2⟩
      refine ⟨h1, ?_⟩
      rw [hch p h1]
      rcases h2 with h2 | ⟨h2, h3⟩
      · exact chosenBit_above _ _ _ h2
      · rw [chosenBit_below _ _ _ h2, h3]
    · rintro ⟨h1, h2⟩
      refine ⟨h1, ?_⟩
      rw [hch p h1] at h2
      by_cases heq : p.number = ld
      · simp [chosenBit, heq] at h2
      by_cases hgt : p.number > ld
      · exact .inl hgt
      · right
        have hlt : p.number < ld := by
          simp only [gt_iff_lt, BitVec.lt_def] at hgt ⊢
          have : p.number.toNat ≠ ld.toNat := fun h => heq (BitVec.eq_of_toNat_eq h)
          omega
        rw [chosenBit_below _ _ _ hlt] at h2
        exact ⟨hlt, h2⟩
  simp only [hro] at hrec
  rcases hrec with ⟨rfl, h⟩ | ⟨p, rfl, h1, h2⟩
  · exact ⟨fun q hq => absurd hq (h q), .inl rfl⟩
  · refine ⟨fun q hq => ?_, .inr ⟨p, rfl, h1⟩⟩
    have := h2 q hq
    rw [BitVec.le_def, Position.number_toNat, Position.number_toNat]
    have : q.val ≤ p.val := this
    omega

/-- A pass from `DEV_NONE` finds the first identifier in the order. -/
theorem first_pass_finds (devs : List Device) (r r' : RomId) (hr' : ∃ d ∈ devs, d.rom = r')
   (hch : ∀ p, disagreeAt devs r' p → idBit r' p = chosenBit 0#8 p false false (idBit r p)) (x : RomId) (hx : ∃ d ∈ devs, d.rom = x) (hne : x ≠ r') : comesBefore r' x := by
  obtain ⟨p, h1, h2⟩ := first_diff hne
  have hd := disagreeAt_of_diff hx hr' h1 h2
  have hb : idBit r' p = false := by
    rw [hch p hd, chosenBit_above]
    rw [gt_iff_lt, BitVec.lt_def, Position.number_toNat]; simp
  exact ⟨p, fun q hq => (h1 q hq).symm, hb, by rw [hb] at h2; simpa using h2⟩

/-- A pass that resumes at the highest open position finds the next identifier in the order. -/
theorem next_pass_finds (devs : List Device) (l : Position) (r r' : RomId) (hr : ∃ d ∈ devs, d.rom = r) (hr' : ∃ d ∈ devs, d.rom = r')
   (hl : openAt devs r l) (hmax : ∀ q, openAt devs r q → q.number ≤ l.number)
   (hch : ∀ p, disagreeAt devs r' p → idBit r' p = chosenBit l.number p false false (idBit r p)) :
   comesBefore r r' ∧ ∀ x, (∃ d ∈ devs, d.rom = x) → comesBefore r x → x = r' ∨ comesBefore r' x := by
  have agree : ∀ q, q < l → idBit r q = idBit r' q := by
    by_contra hne
    push Not at hne
    obtain ⟨q, hq, hqne⟩ := hne
    have : r ≠ r' := fun h => hqne (by rw [h])
    obtain ⟨p, h1, h2⟩ := first_diff this
    have hpl : p < l := by
      by_contra hge
      exact hqne (h1 q (lt_of_lt_of_le hq (not_lt.mp hge)))
    have hd := disagreeAt_of_diff hr hr' h1 h2
    have := hch p hd
    rw [chosenBit_below _ _ _ ((number_lt p l).mpr hpl)] at this
    exact h2 this.symm
  have hdl : disagreeAt devs r' l := (disagreeAt_congr agree).mp ((openAt_iff hr l).mp hl).1
  have hbl : idBit r' l = true := by
    rw [hch l hdl]; simp [chosenBit]
  refine ⟨⟨l, agree, hl.1, hbl⟩, ?_⟩
  rintro x hx ⟨p, h1, h2, h3⟩
  have hop : openAt devs r p := by
    obtain ⟨d, hd, rfl⟩ := hx
    exact ⟨h2, d, hd, fun q hq => (h1 q hq).symm, h3⟩
  have hpl : p ≤ l := by
    have := hmax p hop
    rw [BitVec.le_def, Position.number_toNat, Position.number_toNat] at this
    exact Fin.le_def.mpr (by omega)
  by_cases hxe : x = r'
  · exact .inl hxe
  · right
    rcases lt_or_eq_of_le hpl with hlt | rfl
    · exact ⟨p, fun q hq => (agree q (lt_trans hq hlt)).symm.trans (h1 q hq), by rw [← agree p hlt]; exact h2, h3⟩
    · obtain ⟨q, k1, k2⟩ := first_diff hxe
      have hpq : p < q := by
        rcases lt_trichotomy p q with h | h | h
        · exact h
        · subst h; exact absurd (h3.trans hbl.symm) k2
        · exact absurd ((h1 q h).symm.trans (agree q h)) k2
      have hd := disagreeAt_of_diff hx hr' k1 k2
      have hb : idBit r' q = false := by
        rw [hch q hd, chosenBit_above]
        exact (number_lt p q).mpr hpq
      exact ⟨q, fun z hz => (k1 z hz).symm, hb, by rw [hb] at k2; simpa using k2⟩

/-- After an identifier with no open position none comes. -/
theorem none_after {devs : List Device} {r : RomId} (h : ∀ q, ¬ openAt devs r q) {x : RomId}
    (hx : ∃ d ∈ devs, d.rom = x) : ¬ comesBefore r x := by
  rintro ⟨p, h1, h2, h3⟩
  obtain ⟨d, hd, rfl⟩ := hx
  exact h p ⟨h2, d, hd, fun q hq => (h1 q hq).symm, h3⟩

/-! ## The recorded deviation -/

/-- What the turns of a pass record is the last turn that records (R205). -/
theorem recordedDev_last (ld : Byte) (id : RomId) (nd : Byte) (turns : List Turn) (hs : (turns.map Prod.fst).Pairwise (· < ·)) :
    (recordedDev ld id nd turns = nd ∧ ∀ x ∈ turns, recordsDeviation ld x.1 x.2.1 x.2.2 (idBit id x.1) = false) ∨
    ∃ x ∈ turns, recordedDev ld id nd turns = x.1.number ∧ recordsDeviation ld x.1 x.2.1 x.2.2 (idBit id x.1) = true ∧
      ∀ y ∈ turns, recordsDeviation ld y.1 y.2.1 y.2.2 (idBit id y.1) = true → y.1 ≤ x.1 := by
  induction turns generalizing nd with
  | nil => exact .inl ⟨rfl, by simp⟩
  | cons x rest ih =>
    simp only [List.map_cons, List.pairwise_cons] at hs
    have e : recordedDev ld id nd (x :: rest) = recordedDev ld id (if recordsDeviation ld x.1 x.2.1 x.2.2 (idBit id x.1) then x.1.number else nd) rest := rfl
    rw [e]
    rcases ih (if recordsDeviation ld x.1 x.2.1 x.2.2 (idBit id x.1) then x.1.number else nd) hs.2 with ⟨h1, h2⟩ | ⟨y, hy, h1, h2, h3⟩
    · cases hx : recordsDeviation ld x.1 x.2.1 x.2.2 (idBit id x.1)
      · left
        rw [hx] at h1
        refine ⟨h1, ?_⟩
        intro z hz
        rcases List.mem_cons.mp hz with rfl | hz
        · exact hx
        · exact h2 z hz
      · right
        rw [hx] at h1
        refine ⟨x, by simp, h1, hx, ?_⟩
        intro z hz hr
        rcases List.mem_cons.mp hz with rfl | hz
        · exact le_refl _
        · rw [h2 z hz] at hr; cases hr
    · right
      refine ⟨y, by simp [hy], h1, h2, ?_⟩
      intro z hz hr
      rcases List.mem_cons.mp hz with rfl | hz
      · exact le_of_lt (hs.1 _ (List.mem_map_of_mem hy))
      · exact h3 z hz hr

end Sys2Proof.Machine
end

