-- ==== Sys2Proof/Laws/Trace.lean ====
section
/-! SUPPORT. The trace of a run of slots: its discipline, its slots and its waits (20_memory.md rules R80, R81,
70_reset_and_hazards.md rule R285). -/

namespace Sys2Proof.Machine

@[simp] theorem segments_cons (tm : Timing) (ie : Bool) (sl : Slot) (rest : List Slot) :
    segments tm ie (sl :: rest) = sl.segment tm ie ++ segments tm ie rest := by simp [segments]

/-- A slot's segment keeps the discipline and ends outside. -/
theorem disciplined_segment (tm : Timing) (saved ie : Bool) (sl : Slot) (rest : List Event) :
    disciplined saved .outside (sl.segment tm ie ++ rest) = disciplined ie .outside rest := by
  cases sl with
  | write b => cases b <;> simp [Slot.segment, Slot.body, disciplined, TracePlace.after]
  | read v => simp [Slot.segment, Slot.body, disciplined, TracePlace.after]
  | reset v => simp [Slot.segment, Slot.body, disciplined, TracePlace.after]

theorem disciplined_segments (tm : Timing) (saved ie : Bool) (sls : List Slot) :
    disciplined saved .outside (segments tm ie sls) = true := by
  induction sls generalizing saved with
  | nil => rfl
  | cons sl rest ih => rw [segments_cons, disciplined_segment, ih]

/-- Every section of a run of slots saves and restores the same `GIE` (R143). -/
theorem irqSave_segments {tm : Timing} {ie e : Bool} {sls : List Slot} (h : Event.irqSave e ∈ segments tm ie sls) : e = ie := by
  obtain ⟨sl, -, h⟩ := List.mem_flatMap.mp h
  cases sl with
  | write b => cases b <;> simpa [Slot.segment, Slot.body] using h
  | read v => simpa [Slot.segment, Slot.body] using h
  | reset v => simpa [Slot.segment, Slot.body] using h

@[simp] theorem slotCount_append (x y : List Event) : slotCount (x ++ y) = slotCount x + slotCount y := by
  simp [slotCount]

@[simp] theorem waitTotal_append (x y : List Event) : waitTotal (x ++ y) = waitTotal x + waitTotal y := by
  simp [waitTotal]

/-- One slot per masked section (R81). -/
@[simp] theorem slotCount_segments (tm : Timing) (ie : Bool) (sls : List Slot) : slotCount (segments tm ie sls) = sls.length := by
  induction sls with
  | nil => rfl
  | cons sl rest ih =>
    have h : slotCount (sl.segment tm ie) = 1 := by
      cases sl with
      | write b => cases b <;> rfl
      | read v => rfl
      | reset v => rfl
    rw [segments_cons, slotCount_append, ih, h, List.length_cons, Nat.add_comm]

/-- The waits of a run of slots (R285). -/
@[simp] theorem waitTotal_segments (tm : Timing) (ie : Bool) (sls : List Slot) :
    waitTotal (segments tm ie sls) = (sls.map (Slot.micros tm)).sum := by
  induction sls with
  | nil => rfl
  | cons sl rest ih =>
    have h : waitTotal (sl.segment tm ie) = sl.micros tm := by
      cases sl with
      | write b => cases b <;> simp [waitTotal, Slot.segment, Slot.body, Slot.micros, Nat.add_assoc]
      | read v => simp [waitTotal, Slot.segment, Slot.body, Slot.micros, Nat.add_assoc]
      | reset v => simp [waitTotal, Slot.segment, Slot.body, Slot.micros, Nat.add_assoc]
    rw [segments_cons, waitTotal_append, ih, h, List.map_cons, List.sum_cons]

theorem sectionWaits_segment (tm : Timing) (ie : Bool) (sl : Slot) (rest : List Event) :
    sectionWaits none (sl.segment tm ie ++ rest) = sl.micros tm :: sectionWaits none rest := by
  cases sl with
  | write b => cases b <;> simp [sectionWaits, Slot.segment, Slot.body, Slot.micros]
  | read v => simp [sectionWaits, Slot.segment, Slot.body, Slot.micros]
  | reset v => simp [sectionWaits, Slot.segment, Slot.body, Slot.micros]

/-- Each masked section waits what its slot waits (R156). -/
theorem sectionWaits_segments (tm : Timing) (ie : Bool) (sls : List Slot) :
    sectionWaits none (segments tm ie sls) = sls.map (Slot.micros tm) := by
  induction sls with
  | nil => rfl
  | cons sl rest ih => rw [segments_cons, sectionWaits_segment, ih, List.map_cons]

/-- With the default parameters no slot waits longer than 960 (R156). -/
theorem Slot.micros_le (sl : Slot) : sl.micros Timing.default ≤ 960 := by
  cases sl with
  | write b => cases b <;> decide
  | read v => simp [Slot.micros, Timing.default]
  | reset v => simp [Slot.micros, Timing.default]

end Sys2Proof.Machine
end

