-- ==== Sys2Proof/Laws/Handlers.lean ====
section
/-! SUPPORT. The interference windows of a command, counted (60_exceptions.md rule R241): the relation `Hears m n s t`,
`m` slots with `n` windows, that it composes, and that every operation of the commands is one. -/

namespace Sys2Proof.Machine

/-! ## What several handlers leave of a bit -/

theorem bitAfter_append (r : Ref) (k : PinIndex) (v : Bool) (x y : List IoWrite) :
    bitAfter r k v (x ++ y) = bitAfter r k (bitAfter r k v x) y := by simp [bitAfter]

/-- One handler leaves an unbound bit as its writes do (R241). -/
theorem runHandler_bit (ws : List IoWrite) (s : State) (r : Ref) (k : PinIndex)
    (h : testBit (hostKeeps r s) k = false) :
    testBit (memRead r (runHandler ws s)) k = bitAfter r k (testBit (memRead r s) k) ws := by
  induction ws generalizing s with
  | nil => rfl
  | cons w rest ih =>
    show testBit (memRead r (runHandler rest (hostWrite w s))) k = _
    rw [ih _ (by rw [hostWrite_hostKeeps]; exact h)]
    simp only [bitAfter, List.foldl_cons]
    congr 1
    simp only [testBit, memRead] at h ⊢
    rw [hostWrite_read]
    by_cases hr : w.ref = r
    · simp [hr, h]
    · have : ¬ r.toNat = w.ref.toNat := fun e => hr (BitVec.eq_of_toNat_eq e.symm)
      simp [hr, this]

/-! ## Runs of windows compose -/

theorem Heard.trans {m n : Nat} {s t u : State} (h1 : Heard m s t) (h2 : Heard n t u)
    (hk : ∀ r, hostKeeps r t = hostKeeps r s) : Heard (m + n) s u where
  handlers := by rw [h2.handlers, h1.handlers, List.drop_drop]
  bits := fun r k h => by
    rw [h2.bits r k (by rw [hk]; exact h), h1.bits r k h, h1.handlers, List.take_add, List.flatten_append,
      bitAfter_append]

/-- From `s` to `t` the controller in use, whose pin is bound, took `m` slots with `n` windows between them. -/
structure Hears (m n : Nat) (s t : State) : Prop extends IoStep s t where
  slots : slotCount t.ctl.trace = slotCount s.ctl.trace + m
  heard : s.ctl.bound = true → s.gie = true → Heard n s t

theorem Hears.trans {m n m' n' : Nat} {s t u : State} (h1 : Hears m n s t) (h2 : Hears m' n' t u) :
    Hears (m + m') (n + n') s u where
  toIoStep := h1.toIoStep.trans h2.toIoStep
  slots := by rw [h2.slots, h1.slots, Nat.add_assoc]
  heard := fun hb hg => (h1.heard hb hg).trans
    (h2.heard ((bound_congr h1.binding h1.op).trans hb) (h1.gie.trans hg)) h1.hostKeeps_eq

/-- What changes bound bits only, and runs no handler, is no window. -/
theorem Hears.silent {m : Nat} {s t : State} (h : IoStep s t) (hs : slotCount t.ctl.trace = slotCount s.ctl.trace + m)
    (hh : t.handlers = s.handlers)
    (hio : ∀ a k, (t.io.read a).getLsbD k = (s.io.read a).getLsbD k ∨
      s.ctl.binds a k ∧ (t.io.read a).getLsbD k = false) : Hears m 0 s t where
  toIoStep := h
  slots := hs
  heard := by
    refine fun hb _ => ⟨hh, fun r k hk => ?_⟩
    rcases hio r.toNat k.toNat with h1 | ⟨⟨hr, hki⟩, -⟩
    · exact h1
    · have hr : r = s.ctl.ddrRef ∨ r = s.ctl.portRef := hr.imp BitVec.eq_of_toNat_eq BitVec.eq_of_toNat_eq
      have := hostKeeps_bound (List.mem_cons_self (a := s.ctl) (l := s.parked)) hb r hr
      rw [testBit, hki, this] at hk
      exact Bool.noConfusion hk

/-- A change of nothing but the controller's other registers. -/
theorem Hears.of_eq {s t : State} (h : t = { s with ctl := t.ctl }) (hb : SameBinding s.ctl t.ctl)
    (ho : t.ctl.seq.op = s.ctl.seq.op) (ht : slotCount t.ctl.trace = slotCount s.ctl.trace) : Hears 0 0 s t :=
  Hears.silent (IoStep.of_eq (by rw [h]) hb ho) ht (by rw [h]) fun _ _ => .inl (by rw [h])

theorem Hears.refl (s : State) : Hears 0 0 s s := Hears.of_eq rfl (SameBinding.refl _) rfl rfl

theorem Hears.onSeq (f : Sequencer → Sequencer) (s : State) (h : (f s.ctl.seq).op = s.ctl.seq.op) :
    Hears 0 0 s (s.onSeq f) := Hears.of_eq rfl ⟨rfl, rfl, rfl, rfl, rfl⟩ h rfl

theorem Hears.setRomId (id : RomId) (s : State) : Hears 0 0 s (setRomId id s) :=
  Hears.of_eq rfl ⟨rfl, rfl, rfl, rfl, rfl⟩ rfl rfl

theorem Hears.setLastDev (v : Byte) (s : State) : Hears 0 0 s (setLastDev v s) :=
  Hears.of_eq rfl ⟨rfl, rfl, rfl, rfl, rfl⟩ rfl rfl

/-- A window lets the next handler run, if one is waiting (R241). -/
theorem Hears.window (s : State) : Hears 0 1 s (window s) where
  toIoStep := IoStep.window s
  slots := by simp
  heard := by
    intro _ hg
    rw [Machine.window, if_pos hg]
    cases hh : s.handlers with
    | nil =>
      dsimp only
      exact ⟨by simp [hh], fun r k _ => by simp [hh, bitAfter]⟩
    | cons ws rest =>
      dsimp only
      refine ⟨by rw [runHandler_io_only]; simp [hh], fun r k hk => ?_⟩
      rw [runHandler_bit ws _ r k (by exact hk)]
      simp [hh, memRead]

theorem Hears.slot {sl : Slot} {s t : State} (h : IoStep s t)
    (ht : t.ctl.trace = s.ctl.trace ++ sl.segment s.timing s.gie) (hio : t.io = pulseIo s.ctl s.io)
    (hh : t.handlers = s.handlers) : Hears 1 0 s t :=
  Hears.silent h (by rw [ht, ← segments_singleton, slotCount_append, slotCount_segments]; rfl) hh
    fun a k => by rw [hio]; exact pulseIo_bit s.ctl s.io a k

theorem Hears.writeBit (b : Bool) (s : State) : Hears 1 0 s (writeBit b s) := by
  rw [writeBit_eq]
  exact Hears.slot (IoStep.pulse rfl ⟨rfl, rfl, rfl, rfl, rfl⟩ rfl) rfl rfl rfl

theorem Hears.readBit (s : State) : Hears 1 0 s (readBit s).2 := by
  rw [readBit_snd]
  exact Hears.slot (IoStep.pulse rfl ⟨rfl, rfl, rfl, rfl, rfl⟩ rfl) rfl rfl rfl

theorem Hears.resetSlot (s : State) : Hears 1 0 s (resetSlot s).2 := by
  rw [resetSlot_snd]
  exact Hears.slot (IoStep.pulse rfl ⟨rfl, rfl, rfl, rfl, rfl⟩ rfl) rfl rfl rfl

/-- A loop. -/
theorem Hears.foldl {α : Type} {f : State → α → State} {m n : α → Nat} (h : ∀ s x, Hears (m x) (n x) s (f s x))
    (xs : List α) (s : State) : Hears (xs.map m).sum (xs.map n).sum s (xs.foldl f s) := by
  induction xs generalizing s with
  | nil => exact Hears.refl s
  | cons x rest ih =>
    rw [List.map_cons, List.map_cons, List.sum_cons, List.sum_cons]
    exact (h s x).trans (ih _)

/-! ## The byte layer: a gap before every slot but the first (R180) -/

/-- The windows before slot `k` of a byte. -/
def gaps (k : Fin 8) : Nat := if k = 0 then 0 else 1

theorem Hears.slotGap (k : Fin 8) (s : State) : Hears 0 (gaps k) s (slotGap k s) := by
  unfold Machine.slotGap gaps
  split
  · exact Hears.refl s
  · exact Hears.window s

theorem gaps_sum : ((List.finRange 8).map gaps).sum = 7 := rfl

/-- Eight turns, one slot each, with a gap before each but the first. -/
theorem Hears.byte {f : State → Fin 8 → State} (h : ∀ s k, Hears 1 (gaps k) s (f s k)) (v : Byte) (s : State) :
    Hears 8 7 s ((List.finRange 8).foldl f (setAcc v s)) := by
  have h := (Hears.onSeq (fun q => { q with acc := v }) s rfl).trans
    (Hears.foldl (m := fun _ => 1) h (List.finRange 8) (setAcc v s))
  rw [gaps_sum] at h
  exact h

theorem Hears.sendByte (v : Byte) (s : State) : Hears 8 7 s (sendByte v s) := by
  refine Hears.byte (fun s k => ?_) v s
  have h := ((Hears.slotGap k s).trans (Hears.onSeq (fun q => { q with k := k }) _ rfl)).trans
    (Hears.writeBit ((setK k (Machine.slotGap k s)).ctl.seq.acc.getLsbD k.val) _)
  exact h

theorem Hears.receiveByte (s : State) : Hears 8 7 s (receiveByte s).2 := by
  refine Hears.byte (f := receiveBitStep) (fun s k => ?_) 0x00#8 s
  have h := (((Hears.slotGap k s).trans (Hears.onSeq (fun q => { q with k := k }) _ rfl)).trans
    (Hears.readBit (setK k (Machine.slotGap k s)))).trans (Hears.onSeq (fun q =>
      { q with acc := withBit q.acc k.val (Machine.readBit (setK k (Machine.slotGap k s))).1 }) _ rfl)
  exact h

/-! ## The ROM commands: a window between any two slots (R190, R241) -/

/-- A command byte, then eight bytes, each after a window. -/
theorem Hears.bytes {f : State → Fin 8 → State} (h : ∀ s i, Hears 8 8 s (f s i)) (v : Byte) (s : State) :
    Hears 72 71 s ((List.finRange 8).foldl f (Machine.sendByte v s)) := by
  have h := Hears.foldl (m := fun _ => 8) (n := fun _ => 8) h (List.finRange 8) (Machine.sendByte v s)
  exact (Hears.sendByte v s).trans h

theorem Hears.matchRomBody (s : State) : Hears 72 71 s (matchRomBody s).2 := by
  refine Hears.bytes (f := matchRomStep) (fun s i => ?_) Config.matchRomByte s
  have h := ((Hears.window s).trans (Hears.onSeq (fun q => { q with i := i }) _ rfl)).trans
    (Hears.sendByte (setI i (Machine.window s)).ctl.romId[i] _)
  exact h

theorem Hears.readRomBody (s : State) : Hears 72 71 s (readRomBody s).2 := by
  refine Hears.bytes (f := readRomStep) (fun s i => ?_) Config.readRomByte s
  have h := (((Hears.window s).trans (Hears.onSeq (fun q => { q with i := i }) _ rfl)).trans
    (Hears.receiveByte (setI i (Machine.window s)))).trans (Hears.setRomId
      ((Machine.receiveByte (setI i (Machine.window s))).2.ctl.romId.set i
        (Machine.receiveByte (setI i (Machine.window s))).1) _)
  exact h

/-- A window and a read slot, whose sample goes into the sequencer. -/
theorem Hears.windowRead (f : Sequencer → Sequencer) (hf : ∀ q, (f q).op = q.op) (s : State) :
    Hears 1 1 s ((Machine.readBit (Machine.window s)).2.onSeq f) :=
  ((Hears.window s).trans (Hears.readBit _)).trans (Hears.onSeq f _ (hf _))

theorem Hears.searchRead (p : Position) (s : State) : Hears 2 2 s (searchRead p s) := by
  have h1 := (Hears.onSeq (fun q => { q with p := p }) s rfl).trans (Hears.windowRead
    (fun q => { q with a := (Machine.readBit (Machine.window (setP p s))).1 }) (fun _ => rfl) (setP p s))
  have h2 := h1.trans (Hears.windowRead (fun q => { q with b := (Machine.readBit (Machine.window
    (setA (Machine.readBit (Machine.window (setP p s))).1 (Machine.readBit (Machine.window (setP p s))).2))).1 })
    (fun _ => rfl) _)
  exact h2

theorem Hears.searchChoose (p : Position) (s : State) : Hears 0 0 s (searchChoose p s) := by
  unfold Machine.searchChoose
  split
  · exact Hears.setRomId _ _
  · split
    · exact Hears.setRomId _ _
    · split
      · exact (Hears.setRomId _ _).trans (Hears.onSeq _ _ rfl)
      · split
        · exact Hears.onSeq _ _ rfl
        · exact Hears.refl s

theorem Hears.searchWrite (p : Position) (s : State) : Hears 1 1 s (searchWrite p s) :=
  (Hears.window s).trans (Hears.writeBit _ _)

/-- However long a pass lasts, it has as many windows as slots after its command byte. -/
theorem Hears.searchLoop (ps : List Position) (s : State) : ∃ m, Hears m m s (searchLoop ps s).2 := by
  induction ps generalizing s with
  | nil => exact ⟨0, Hears.setLastDev _ s⟩
  | cons p rest ih =>
    unfold Machine.searchLoop
    dsimp only
    split
    · exact ⟨2, Hears.searchRead p s⟩
    · obtain ⟨m, h⟩ := ih (Machine.searchWrite p (Machine.searchChoose p (Machine.searchRead p s)))
      exact ⟨_, (((Hears.searchRead p s).trans (Hears.searchChoose p _)).trans (Hears.searchWrite p _)).trans h⟩

theorem Hears.searchBody (s : State) : ∃ m, Hears (8 + m) (7 + m) s (searchBody s).2 := by
  obtain ⟨m, h⟩ := Hears.searchLoop (List.finRange 64)
    (setNewDev Config.devNone (Machine.sendByte Config.searchRomByte s))
  have h := ((Hears.sendByte Config.searchRomByte s).trans (Hears.onSeq (fun q => { q with newDev := Config.devNone }) _ rfl)).trans h
  exact ⟨m, h⟩

/-! ## The commands -/

/-- Every bus command has one window less than slots. -/
theorem exec_bus_hears (i : Instr) (hi : i.isBusCommand = true) :
    ∃ body : State → Byte × State, (∀ s, exec i s = .next (busCommand i body s)) ∧
      ∀ s, ∃ n, Hears (n + 1) n s (body s).2 := by
  cases i with
  | config ddr port pin idx => cases hi
  | rdreg reg => cases hi
  | wrreg reg val => cases hi
  | wbit b => exact ⟨_, fun _ => rfl, fun s => ⟨0, Hears.writeBit b s⟩⟩
  | rbit => exact ⟨_, fun _ => rfl, fun s => ⟨0, Hears.readBit s⟩⟩
  | pres => exact ⟨_, fun _ => rfl, fun s => ⟨0, Hears.resetSlot s⟩⟩
  | sendb v => exact ⟨_, fun _ => rfl, fun s => ⟨7, Hears.sendByte v s⟩⟩
  | recvb => exact ⟨_, fun _ => rfl, fun s => ⟨7, Hears.receiveByte s⟩⟩
  | rdrom => exact ⟨_, fun _ => rfl, fun s => ⟨71, Hears.readRomBody s⟩⟩
  | matchrom => exact ⟨_, fun _ => rfl, fun s => ⟨71, Hears.matchRomBody s⟩⟩
  | srchrom =>
    refine ⟨_, fun _ => rfl, fun s => ?_⟩
    obtain ⟨m, h⟩ := Hears.searchBody s
    refine ⟨7 + m, ?_⟩
    rwa [show 7 + m + 1 = 8 + m by omega]

/-- The five windows of `CONFIG` (R145, R241). -/
theorem Hears.configTail (s : State) : Hears 0 4 s (configTail s) := by
  have h1 : Hears 0 0 s (release s) := Hears.silent
    ((IoStep.ioClrBit s s.ctl.ddrRef (.inl rfl)).trans (IoStep.of_eq rfl ⟨rfl, rfl, rfl, rfl, rfl⟩ rfl))
    (by simp [release, slotCount]) rfl
    fun a k => ioClrBit_bit s _ _ (.inl rfl) rfl a k
  have clr (u : State) : Hears 0 0 u (Machine.ioClrBit u.ctl.portRef u.ctl.pinIdx u) :=
    Hears.silent (IoStep.ioClrBit u _ (.inr rfl)) rfl rfl fun a k => ioClrBit_bit u _ _ (.inr rfl) rfl a k
  have wt (n : Nat) (u : State) : Hears 0 0 u (wait n u) :=
    Hears.of_eq rfl ⟨rfl, rfl, rfl, rfl, rfl⟩ rfl (by simp [wait, slotCount])
  exact (((((((h1.trans (Hears.window _)).trans (clr _)).trans (Hears.window _)).trans (Hears.setLastDev _ _)).trans
    (Hears.window _)).trans (wt _ _)).trans (Hears.window _))

end Sys2Proof.Machine
end

