-- ==== Sys2Proof/Laws/PerInstr.lean ====
section
/-! SUPPORT. What is said of every constructor of `Instr`: the word the encoder writes, which follows the formats field by
field (30_encoding.md rule R112), is a word of the command's own row of the opcode map (rule R114), whose match and mask
are written independently. -/

namespace Sys2Proof.Laws.OwnRow

/-- The encoding of a command matches the opcode map's row of that command. -/
def Statement (i : Instr) : Prop := ∃ r ∈ opcodeRows, r.mnemonic = i.mnemonic ∧ encode i &&& r.mask = r.pattern

theorem config (ddr port pin : Ref) (idx : PinIndex) : Statement (.config ddr port pin idx) := by
  refine ⟨_, List.mem_of_getElem? (i := 0) rfl, rfl, ?_⟩
  have h : (0x1#4 ++ 0#1 ++ idx ++ ddr ++ port ++ pin) &&& (0xF#4 ++ 1#1 ++ 0#3 ++ 0#8 ++ 0#8 ++ 0#8) =
      0x1#4 ++ 0#1 ++ 0#3 ++ 0#8 ++ 0#8 ++ 0#8 := by
    simp only [BitVec.and_append, BitVec.and_zero]
    decide
  exact h.trans (by decide)

theorem wbit (bit : Bool) : Statement (.wbit bit) := by
  refine ⟨_, List.mem_of_getElem? (i := 1) rfl, rfl, ?_⟩
  cases bit <;> decide

theorem rbit : Statement .rbit := ⟨_, List.mem_of_getElem? (i := 2) rfl, rfl, by decide⟩

theorem pres : Statement .pres := ⟨_, List.mem_of_getElem? (i := 3) rfl, rfl, by decide⟩

theorem sendb (byte : Byte) : Statement (.sendb byte) := by
  refine ⟨_, List.mem_of_getElem? (i := 4) rfl, rfl, ?_⟩
  have h : (0x5#4 ++ 0#20 ++ byte) &&& (0xF#4 ++ 0xFFFFF#20 ++ 0#8) =
      0x5#4 ++ 0#20 ++ 0#8 := by
    simp only [BitVec.and_append, BitVec.and_zero]
    decide
  exact h.trans (by decide)

theorem recvb : Statement .recvb := ⟨_, List.mem_of_getElem? (i := 5) rfl, rfl, by decide⟩

theorem rdrom : Statement .rdrom := ⟨_, List.mem_of_getElem? (i := 6) rfl, rfl, by decide⟩

theorem matchrom : Statement .matchrom := ⟨_, List.mem_of_getElem? (i := 7) rfl, rfl, by decide⟩

theorem srchrom : Statement .srchrom := ⟨_, List.mem_of_getElem? (i := 8) rfl, rfl, by decide⟩

theorem rdreg (reg : BitVec 4) : Statement (.rdreg reg) := by
  refine ⟨_, List.mem_of_getElem? (i := 9) rfl, rfl, ?_⟩
  have h : (0xA#4 ++ 0#16 ++ reg ++ 0#8) &&& (0xF#4 ++ 0xFFFF#16 ++ 0#4 ++ 0xFF#8) =
      0xA#4 ++ 0#16 ++ 0#4 ++ 0#8 := by
    simp only [BitVec.and_append, BitVec.and_zero]
    decide
  exact h.trans (by decide)

theorem wrreg (reg : BitVec 4) (val : Byte) : Statement (.wrreg reg val) := by
  refine ⟨_, List.mem_of_getElem? (i := 10) rfl, rfl, ?_⟩
  have h : (0xB#4 ++ 0#16 ++ reg ++ val) &&& (0xF#4 ++ 0xFFFF#16 ++ 0#4 ++ 0#8) =
      0xB#4 ++ 0#16 ++ 0#4 ++ 0#8 := by
    simp only [BitVec.and_append, BitVec.and_zero]
    decide
  exact h.trans (by decide)

end Sys2Proof.Laws.OwnRow
end

