-- ==== Sys2Proof/Laws/Untimed.lean ====
section
/-! SUPPORT. The timing parameters and the labels of the waits decide nothing (00_scope.md rule R6, 60_exceptions.md rule
R250): operations take states that differ in nothing else to states that differ in nothing else. -/

namespace Sys2Proof.Machine

/-- The same state with other timing parameters and another trace. -/
def State.retimed (tm : Timing) (tr : List Event) (s : State) : State :=
  { s with timing := tm, ctl := { s.ctl with trace := tr } }

/-- Two states that differ in nothing but the timing parameters and the labels of the waits. -/
abbrev Alike (s u : State) : Prop := s.untimed = u.untimed

theorem alike_iff {s u : State} : Alike s u ↔ ∃ tm tr, u = s.retimed tm tr ∧
    tr.map Event.untimed = s.ctl.trace.map Event.untimed := by
  constructor
  · intro h
    refine ⟨u.timing, u.ctl.trace, ?_, (congrArg (fun s => s.ctl.trace) h).symm⟩
    obtain ⟨⟨⟩, _⟩ := s
    obtain ⟨⟨⟩, _⟩ := u
    simp only [Alike, State.untimed, State.mk.injEq, Controller.mk.injEq, true_and] at h
    obtain ⟨⟨rfl, rfl, rfl, rfl, rfl, rfl, rfl, rfl, rfl, rfl, -⟩, rfl, rfl, rfl, rfl, rfl, rfl, rfl, rfl⟩ := h
    rfl
  · rintro ⟨tm, tr, rfl, h⟩
    simp [Alike, State.untimed, State.retimed, h]

/-- An update that does not touch the trace. -/
theorem Alike.onCtl {s u : State} (h : Alike s u) (f : Controller → Controller)
    (hf : ∀ c tr, f { c with trace := tr } = { f c with trace := tr }) : Alike (s.onCtl f) (u.onCtl f) := by
  obtain ⟨tm, tr, rfl, ht⟩ := alike_iff.mp h
  refine alike_iff.mpr ⟨tm, tr, ?_, ?_⟩
  · exact State.ext_fields (hf s.ctl tr) rfl rfl rfl rfl rfl rfl rfl rfl rfl
  · rw [ht]
    exact congrArg (fun c => c.trace.map Event.untimed) (hf s.ctl s.ctl.trace).symm

theorem Alike.onSeq {s u : State} (h : Alike s u) (f : Sequencer → Sequencer) : Alike (s.onSeq f) (u.onSeq f) :=
  h.onCtl _ fun _ _ => rfl

theorem Alike.setRomId {s u : State} (h : Alike s u) (id : RomId) : Alike (setRomId id s) (setRomId id u) :=
  h.onCtl _ fun _ _ => rfl

theorem Alike.setLastDev {s u : State} (h : Alike s u) (v : Byte) : Alike (setLastDev v s) (setLastDev v u) :=
  h.onCtl _ fun _ _ => rfl

theorem Alike.wait {s u : State} (h : Alike s u) (n m : Nat) : Alike (wait n s) (wait m u) := by
  obtain ⟨tm, tr, rfl, ht⟩ := alike_iff.mp h
  refine alike_iff.mpr ⟨tm, tr ++ [.wait m], rfl, ?_⟩
  simp only [Machine.wait, emit_ctl, List.map_append, ht]
  rfl

theorem Alike.memWrite {s u : State} (h : Alike s u) (r : Ref) (v : Byte) : Alike (memWrite r v s) (memWrite r v u) := by
  obtain ⟨tm, tr, rfl, ht⟩ := alike_iff.mp h
  exact alike_iff.mpr ⟨tm, tr, rfl, ht⟩

theorem Alike.io {s u : State} (h : Alike s u) : u.io = s.io := by
  have h := congrArg State.io h
  exact h.symm

theorem Alike.romId {s u : State} (h : Alike s u) : u.ctl.romId = s.ctl.romId := by
  have h := congrArg (·.ctl.romId) h
  exact h.symm

theorem Alike.lastDev {s u : State} (h : Alike s u) : u.ctl.lastDev = s.ctl.lastDev := by
  have h := congrArg (·.ctl.lastDev) h
  exact h.symm

theorem Alike.seq {s u : State} (h : Alike s u) : u.ctl.seq = s.ctl.seq := by
  have h := congrArg (·.ctl.seq) h
  exact h.symm

theorem Alike.configured {s u : State} (h : Alike s u) : u.ctl.configured = s.ctl.configured := by
  have h := congrArg (·.ctl.configured) h
  exact h.symm

theorem Alike.ioClrBit {s u : State} (h : Alike s u) (r : Ref) (k : PinIndex) :
    Alike (ioClrBit r k s) (ioClrBit r k u) := by
  simp only [Machine.ioClrBit, memRead, h.io]
  exact h.memWrite _ _

/-! ## The windows and the slots -/

theorem Alike.runHandler {s u : State} (h : Alike s u) (ws : List IoWrite) :
    Alike (runHandler ws s) (runHandler ws u) := by
  induction ws generalizing s u with
  | nil => exact h
  | cons w rest ih =>
    refine ih (s := hostWrite w s) (u := hostWrite w u) ?_
    have hk : hostKeeps w.ref u = hostKeeps w.ref s := by
      obtain ⟨tm, tr, rfl, -⟩ := alike_iff.mp h
      rfl
    simp only [hostWrite, memRead, h.io, hk]
    exact h.memWrite _ _

theorem Alike.window {s u : State} (h : Alike s u) : Alike (window s) (window u) := by
  obtain ⟨tm, tr, rfl, ht⟩ := alike_iff.mp h
  unfold Machine.window
  rw [show (s.retimed tm tr).gie = s.gie from rfl, show (s.retimed tm tr).handlers = s.handlers from rfl]
  split
  · split
    · exact h
    · apply Alike.runHandler
      exact alike_iff.mpr ⟨tm, tr, rfl, ht⟩
  · exact h

theorem endSlot_retimed (slot : SlotKind) (tm : Timing) (tr : List Event) (s : State) :
    (endSlot slot (s.retimed tm tr)).lines = (endSlot slot s).lines := endSlot_lines_congr slot rfl rfl

/-- A slot's segment, but for the labels of its waits. -/
theorem segment_untimed (tm tm' : Timing) (ie : Bool) (sl : Slot) :
    (sl.segment tm ie).map Event.untimed = (sl.segment tm' ie).map Event.untimed := by
  cases sl with
  | write b => cases b <;> rfl
  | read v => rfl
  | reset v => rfl

theorem Alike.writeBit {s u : State} (h : Alike s u) (b : Bool) : Alike (writeBit b s) (writeBit b u) := by
  obtain ⟨tm, tr, rfl, ht⟩ := alike_iff.mp h
  rw [writeBit_eq, writeBit_eq, endSlot_retimed]
  refine alike_iff.mpr ⟨tm, tr ++ (Slot.write b).segment tm s.gie, rfl, ?_⟩
  simp only [List.map_append, ht, segment_untimed tm s.timing]

theorem afterSample_retimed (slot : SlotKind) (tm : Timing) (tr : List Event) (s : State) :
    (endSlot slot (setEnv (s.retimed tm tr).farSide.afterSample (s.retimed tm tr))).lines =
      (endSlot slot (setEnv s.farSide.afterSample s)).lines :=
  endSlot_lines_congr slot (by simp; rfl) (afterSample_lines_congr rfl rfl)

theorem farSide_retimed (tm : Timing) (tr : List Event) (s : State) : (s.retimed tm tr).farSide = s.farSide := rfl

theorem Alike.readBit {s u : State} (h : Alike s u) :
    (readBit u).1 = (readBit s).1 ∧ Alike (readBit s).2 (readBit u).2 := by
  obtain ⟨tm, tr, rfl, ht⟩ := alike_iff.mp h
  rw [readBit_fst, readBit_fst, readBit_snd, readBit_snd, afterSample_retimed, farSide_retimed]
  refine ⟨rfl, alike_iff.mpr ⟨tm, tr ++ (Slot.read (s.farSide.level .read s.draws)).segment tm s.gie, rfl, ?_⟩⟩
  simp only [List.map_append, ht, segment_untimed tm s.timing]

theorem Alike.resetSlot {s u : State} (h : Alike s u) :
    (resetSlot u).1 = (resetSlot s).1 ∧ Alike (resetSlot s).2 (resetSlot u).2 := by
  obtain ⟨tm, tr, rfl, ht⟩ := alike_iff.mp h
  rw [resetSlot_fst, resetSlot_fst, resetSlot_snd, resetSlot_snd, afterSample_retimed, farSide_retimed]
  refine ⟨rfl, alike_iff.mpr ⟨tm, tr ++ (Slot.reset (s.farSide.level .reset s.draws)).segment tm s.gie, rfl, ?_⟩⟩
  simp only [List.map_append, ht, segment_untimed tm s.timing]

/-! ## Bytes -/

theorem Alike.foldl {α : Type} {f : State → α → State} (hf : ∀ {s u}, Alike s u → ∀ x, Alike (f s x) (f u x))
    {s u : State} (h : Alike s u) (xs : List α) : Alike (xs.foldl f s) (xs.foldl f u) := by
  induction xs generalizing s u with
  | nil => exact h
  | cons x rest ih => exact ih (hf h x)

theorem Alike.slotGap {s u : State} (h : Alike s u) (k : Fin 8) : Alike (slotGap k s) (slotGap k u) := by
  unfold Machine.slotGap
  split
  · exact h
  · exact h.window

theorem Alike.sendByte {s u : State} (h : Alike s u) (v : Byte) : Alike (sendByte v s) (sendByte v u) := by
  refine Alike.foldl (fun {s u} h k => ?_) (h.onSeq _) _
  have h := (h.slotGap k).onSeq fun q => { q with k := k }
  simp only [sendBitStep, setK]
  rw [h.seq]
  exact h.writeBit _

theorem Alike.receiveByte {s u : State} (h : Alike s u) :
    (receiveByte u).1 = (receiveByte s).1 ∧ Alike (receiveByte s).2 (receiveByte u).2 := by
  have h := Alike.foldl (f := receiveBitStep) (fun {s u} h k => by
    have h := ((h.slotGap k).onSeq fun q => { q with k := k }).readBit
    simp only [receiveBitStep, setK, setAcc]
    rw [h.1, h.2.seq]
    exact h.2.onSeq _) (h.onSeq fun q => { q with acc := 0x00#8 }) (List.finRange 8)
  unfold Machine.receiveByte
  dsimp only
  unfold setAcc
  exact ⟨by rw [h.seq], h⟩

/-! ## The bodies -/

theorem Alike.readRomBody {s u : State} (h : Alike s u) :
    (readRomBody u).1 = (readRomBody s).1 ∧ Alike (readRomBody s).2 (readRomBody u).2 := by
  unfold Machine.readRomBody noResult
  dsimp only
  refine ⟨rfl, ?_⟩
  exact Alike.foldl (f := readRomStep) (fun {s u} h i => by
    have h := (h.window.onSeq fun q => { q with i := i }).receiveByte
    simp only [readRomStep, setI, setRomByte]
    rw [h.1, h.2.romId]
    exact h.2.setRomId _) (h.sendByte _) _

theorem Alike.matchRomBody {s u : State} (h : Alike s u) :
    (matchRomBody u).1 = (matchRomBody s).1 ∧ Alike (matchRomBody s).2 (matchRomBody u).2 := by
  unfold Machine.matchRomBody noResult
  dsimp only
  refine ⟨rfl, ?_⟩
  exact Alike.foldl (f := matchRomStep) (fun {s u} h i => by
    have h := h.window.onSeq fun q => { q with i := i }
    have hv : (setI i (Machine.window u)).ctl.romId[i] = (setI i (Machine.window s)).ctl.romId[i] := by
      simpa using congrArg (·[i]) h.romId
    simp only [matchRomStep]
    rw [hv]
    exact h.sendByte _) (h.sendByte _) _

theorem Alike.searchRead {s u : State} (h : Alike s u) (p : Position) : Alike (searchRead p s) (searchRead p u) := by
  have h1 := (h.onSeq fun q => { q with p := p }).window.readBit
  simp only [Machine.searchRead, setP, setA, setB]
  rw [h1.1]
  have h2 := (h1.2.onSeq fun q =>
    { q with a := (Machine.readBit (Machine.window (s.onSeq fun q => { q with p := p }))).1 }).window.readBit
  rw [h2.1]
  exact h2.2.onSeq _

theorem Alike.searchChoose {s u : State} (h : Alike s u) (p : Position) :
    Alike (searchChoose p s) (searchChoose p u) := by
  unfold Machine.searchChoose setIdBit
  rw [h.seq, h.romId, h.lastDev]
  split
  · exact h.setRomId _
  · split
    · exact h.setRomId _
    · split
      · exact (h.setRomId _).onSeq _
      · split
        · exact h.onSeq _
        · exact h

theorem Alike.searchWrite {s u : State} (h : Alike s u) (p : Position) : Alike (searchWrite p s) (searchWrite p u) := by
  simp only [Machine.searchWrite]
  rw [h.window.romId]
  exact h.window.writeBit _

theorem Alike.searchLoop {s u : State} (h : Alike s u) (ps : List Position) :
    (searchLoop ps u).1 = (searchLoop ps s).1 ∧ Alike (searchLoop ps s).2 (searchLoop ps u).2 := by
  induction ps generalizing s u with
  | nil =>
    simp only [Machine.searchLoop]
    rw [h.seq]
    exact ⟨rfl, h.setLastDev _⟩
  | cons p rest ih =>
    have h1 := h.searchRead p
    simp only [Machine.searchLoop]
    rw [h1.seq]
    split
    · exact ⟨rfl, h1⟩
    · exact ih ((h1.searchChoose p).searchWrite p)

theorem Alike.searchBody {s u : State} (h : Alike s u) :
    (searchBody u).1 = (searchBody s).1 ∧ Alike (searchBody s).2 (searchBody u).2 := by
  unfold Machine.searchBody
  exact ((h.sendByte _).onSeq fun q => { q with newDev := Config.devNone }).searchLoop _

theorem Alike.configBody {s u : State} (h : Alike s u) (ddr port pin : Ref) (idx : PinIndex) :
    Alike (configBody ddr port pin idx s).2 (configBody ddr port pin idx u).2 := by
  have release {s u : State} (h : Alike s u) : Alike (release s) (release u) := by
    obtain ⟨tm, tr, rfl, ht⟩ := alike_iff.mp h
    refine alike_iff.mpr ⟨tm, tr ++ [.rel], rfl, ?_⟩
    simp [Machine.release, ht]
  have clr {s u : State} (h : Alike s u) :
      Alike (Machine.ioClrBit s.ctl.portRef s.ctl.pinIdx s) (Machine.ioClrBit u.ctl.portRef u.ctl.pinIdx u) := by
    obtain ⟨tm, tr, rfl, -⟩ := alike_iff.mp h
    exact h.ioClrBit _ _
  have bind : Alike (bindPin ddr port pin idx s) (bindPin ddr port pin idx u) := h.onCtl _ fun _ _ => rfl
  exact ((((clr (release bind.window).window).window.setLastDev _).window.wait _ _).window).onCtl
    (fun c => { c with configured := true }) fun _ _ => rfl

/-! ## The commands -/

theorem Alike.respond {s u : State} (h : Alike s u) (st : Status) (v : Byte) :
    Alike (respond st v s) (respond st v u) := by
  obtain ⟨tm, tr, rfl, ht⟩ := alike_iff.mp h
  exact alike_iff.mpr ⟨tm, tr, rfl, ht⟩

theorem Alike.complete {s u : State} (h : Alike s u) (i : Instr) {body : State → Byte × State}
    (hb : ∀ {s u}, Alike s u → (body u).1 = (body s).1 ∧ Alike (body s).2 (body u).2) :
    Alike (complete i body s) (complete i body u) := by
  have h := hb (h.onSeq fun _ => { Sequencer.idle with op := some i })
  simp only [Machine.complete, accept]
  rw [h.1]
  exact h.2.respond _ _

theorem Alike.busCommand {s u : State} (h : Alike s u) (i : Instr) {body : State → Byte × State}
    (hb : ∀ {s u}, Alike s u → (body u).1 = (body s).1 ∧ Alike (body s).2 (body u).2) :
    Alike (busCommand i body s) (busCommand i body u) := by
  unfold Machine.busCommand
  rw [h.configured]
  split
  · exact h.complete i hb
  · exact h.respond _ _

/-- Every command takes alike states to alike states (R6). -/
theorem Alike.exec {s u : State} (h : Alike s u) (i : Instr) :
    ∃ t v, exec i s = .next t ∧ exec i u = .next v ∧ Alike t v := by
  cases i with
  | config ddr port pin idx => exact ⟨_, _, rfl, rfl, h.complete _ fun h => ⟨rfl, h.configBody ddr port pin idx⟩⟩
  | wbit b => exact ⟨_, _, rfl, rfl, h.busCommand _ fun h => ⟨rfl, h.writeBit b⟩⟩
  | rbit => exact ⟨_, _, rfl, rfl, h.busCommand _ fun h => ⟨congrArg bitResult h.readBit.1, h.readBit.2⟩⟩
  | pres => exact ⟨_, _, rfl, rfl, h.busCommand _ fun h => ⟨congrArg presenceResult h.resetSlot.1, h.resetSlot.2⟩⟩
  | sendb v => exact ⟨_, _, rfl, rfl, h.busCommand _ fun h => ⟨rfl, h.sendByte v⟩⟩
  | recvb => exact ⟨_, _, rfl, rfl, h.busCommand _ (body := Machine.receiveByte) fun h => h.receiveByte⟩
  | rdrom => exact ⟨_, _, rfl, rfl, h.busCommand _ (body := Machine.readRomBody) fun h => h.readRomBody⟩
  | matchrom => exact ⟨_, _, rfl, rfl, h.busCommand _ (body := Machine.matchRomBody) fun h => h.matchRomBody⟩
  | srchrom => exact ⟨_, _, rfl, rfl, h.busCommand _ (body := Machine.searchBody) fun h => h.searchBody⟩
  | rdreg reg =>
    refine ⟨_, _, rfl, rfl, ?_⟩
    split
    · exact h.respond _ _
    · refine h.complete _ fun {s u} h => ⟨?_, h⟩
      obtain ⟨tm, tr, rfl, -⟩ := alike_iff.mp h
      rfl
  | wrreg reg val =>
    refine ⟨_, _, rfl, rfl, ?_⟩
    split
    any_goals exact h.respond _ _
    · split
      · exact h.respond _ _
      · exact h.complete _ fun h => ⟨rfl, h.setLastDev val⟩
    · rename_i k _
      refine h.complete _ fun {s u} h => ⟨rfl, ?_⟩
      show Alike (setRomByte k val s) (setRomByte k val u)
      unfold setRomByte
      rw [h.romId]
      exact h.setRomId _

end Sys2Proof.Machine
end

