-- ==== Sys2Proof/Machine/Assembler.lean ====
section
/-! DEFINITION. The written form of commands, read (30_encoding.md rules R121, R122): one command a line, mnemonic, then
the operands separated by commas; `#` starts a comment; numbers decimal, `0x` hexadecimal or `0b` binary; a register
operand by number or by name; the pseudo-commands by their expansions. A line that is none of these is no command. -/

namespace Sys2Proof.Assembler

/-- The pieces of a text between separators. -/
def pieces (sep : Char) : List Char → List (List Char)
  | [] => [[]]
  | c :: rest =>
    if c = sep then [] :: pieces sep rest
    else
      match pieces sep rest with
      | [] => [[c]]
      | w :: ws => (c :: w) :: ws

/-- A space or a tab. -/
def isBlank (c : Char) : Bool := c = ' ' || c = '\t' || c = '\r'

/-- A text without the blanks around it. -/
def trim (cs : List Char) : List Char := ((cs.dropWhile isBlank).reverse.dropWhile isBlank).reverse

/-- The value of a digit in a base up to 16. -/
def digit (base : Nat) (c : Char) : Option Nat :=
  let n := c.toNat
  let v :=
    if 48 ≤ n ∧ n ≤ 57 then n - 48
    else if 65 ≤ n ∧ n ≤ 70 then n - 55
    else if 97 ≤ n ∧ n ≤ 102 then n - 87
    else 16
  if v < base then some v else none

/-- The digits of a number, most significant first, after the value of those before them. -/
def digits (base : Nat) : List Char → Nat → Option Nat
  | [], v => some v
  | c :: rest, v =>
    match digit base c with
    | some d => digits base rest (v * base + d)
    | none => none

/-- A number: at least one digit, decimal, `0x` hexadecimal or `0b` binary (R121). -/
def number : List Char → Option Nat
  | [] => none
  | '0' :: 'x' :: [] => none
  | '0' :: 'b' :: [] => none
  | '0' :: 'x' :: ds => digits 16 ds 0
  | '0' :: 'b' :: ds => digits 2 ds 0
  | ds => digits 10 ds 0

/-- A number operand that fits a field of `n` bits (R113). -/
def operand (n : Nat) (cs : List Char) : Option (BitVec n) :=
  match number cs with
  | some v => if v < 2 ^ n then some (BitVec.ofNat n v) else none
  | none => none

/-- A register operand: its number, or its name of rule R40 (R121). -/
def register (cs : List Char) : Option (BitVec 4) :=
  match ((List.finRange 15).map fun k => BitVec.ofNat 4 k.val).find? fun r => cs == (registerName r).toList with
  | some r => some r
  | none => operand 4 cs

/-- The bytes of an operand list. -/
def bytes : List (List Char) → Option (List Byte)
  | [] => some []
  | cs :: rest =>
    match operand 8 cs, bytes rest with
    | some b, some bs => some (b :: bs)
    | _, _ => none

/-- The command of a mnemonic without operands (R121, R122). -/
def plain (m : List Char) : Option (List Instr) :=
  if m = "RBIT".toList then some [.rbit]
  else if m = "PRES".toList then some [.pres]
  else if m = "RECVB".toList then some [.recvb]
  else if m = "RDROM".toList then some [.rdrom]
  else if m = "MATCHROM".toList then some [.matchrom]
  else if m = "SRCHROM".toList then some [.srchrom]
  else if m = "WBIT0".toList then some [.wbit0]
  else if m = "WBIT1".toList then some [.wbit1]
  else if m = "SRCHRST".toList then some [.srchrst]
  else none

/-- The command of a mnemonic with its operands (R121, R122). -/
def command (m : List Char) (args : List (List Char)) : Option (List Instr) :=
  match args with
  | [x] =>
    if m = "WBIT".toList then (operand 1 x).map fun b => [.wbit (b == 1#1)]
    else if m = "SENDB".toList then (operand 8 x).map fun v => [.sendb v]
    else if m = "RDREG".toList then (register x).map fun r => [.rdreg r]
    else none
  | [x, y] =>
    if m = "WRREG".toList then
      match register x, operand 8 y with
      | some r, some v => some [.wrreg r v]
      | _, _ => none
    else none
  | [d, p, n, i] =>
    if m = "CONFIG".toList then
      match operand 8 d, operand 8 p, operand 8 n, operand 3 i with
      | some d, some p, some n, some i => some [.config d p n i]
      | _, _, _, _ => none
    else none
  | _ =>
    if m = "LDROM".toList then
      match bytes args with
      | some [b0, b1, b2, b3, b4, b5, b6, b7] => some (Instr.ldrom #v[b0, b1, b2, b3, b4, b5, b6, b7])
      | _ => none
    else none

/-- The commands of a line; an empty line and a comment are none (R121). -/
def line (cs : List Char) : Option (List Instr) :=
  let cs := trim (cs.takeWhile (· ≠ '#'))
  let m := cs.takeWhile (fun c => !isBlank c)
  let args := trim (cs.dropWhile fun c => !isBlank c)
  if cs.isEmpty then some []
  else if args.isEmpty then plain m
  else command m ((pieces ',' args).map trim)

/-- The commands of a run of lines. -/
def lines : List (List Char) → Option (List Instr)
  | [] => some []
  | cs :: rest =>
    match line cs, lines rest with
    | some is, some js => some (is ++ js)
    | _, _ => none

/-- The commands of a text, in order (R121). -/
def assemble (text : String) : Option (List Instr) := lines (pieces '\n' text.toList)

end Sys2Proof.Assembler
end

