-- ==== Sys2Proof/Tests/Slice0.lean ====
section
/-! SUPPORT. Tests of one step each; every expected result is a vector of 95_test_vectors.md, named beside it. Then, for
each statement with hypotheses, a concrete state and operands that meet them all together. -/

namespace Sys2Proof.Tests

open Sys2Proof.Machine

/-! ## Start states -/

/-- An identifier from its eight bytes, `ROM_ID[0]` first. -/
def idOf (b0 b1 b2 b3 b4 b5 b6 b7 : Byte) : RomId := #v[b0, b1, b2, b3, b4, b5, b6, b7]

/-- The controller of the vectors' convention: after `CONFIG 0x2A, 0x2B, 0x29, 2`. -/
def boundCtl : Controller :=
  { Controller.reset with
    romId := Vector.replicate 8 0xEE#8
    ddrRef := 0x2A#8
    portRef := 0x2B#8
    pinRef := 0x29#8
    pinIdx := 2#3
    configured := true }

/-- The pin it is bound to. -/
def pin2 : Pin := ⟨0x2A#8, 0x2B#8, 0x29#8, 2#3⟩

/-- The vectors' start state "configured", with a given `GIE` and what is on the far side of the pin. -/
def ready (env : Environment) (gie : Bool) : State :=
  { State.reset with
    ctl := boundCtl
    gie := gie
    io := [(0x2A, 0xFB#8), (0x2B, 0xFB#8)]
    lines := linesPut pin2 env [] }

/-- The same with `ROM_ID` and `LASTDEV` loaded. -/
def loaded (id : RomId) (dev : Byte) (s : State) : State := setLastDev dev (setRomId id s)

/-- The state after the host has issued one command word. -/
def issued (w : Nat) (s : State) : State :=
  match step (s.withFetchWord 32 w) with
  | .next t => t
  | .refused _ => s

/-- A device with this identifier, in the state a reset slot leaves. -/
def listening (id : RomId) : Device := ⟨id, .cmd 0 0#8⟩

/-- The two devices of S3. -/
def dev08 : Device := listening (idOf 1 2 3 4 5 6 7 8)
def dev09 : Device := listening (idOf 1 2 3 4 5 6 7 9)

/-- The four devices of V31. -/
def bus31 : Environment :=
  .bus ([3#8, 0#8, 2#8, 1#8].map fun b => listening (idOf b 0xAA 0xBB 0xCC 0xDD 0xEE 0xFF 0x77))

/-! ## Well-formedness: each check refuses an ill-formed word or term -/

theorem test_wellFormedWord_refuses_reserved_opcodes :
    [0x00000000#32, 0xC0000000#32, 0xD1234567#32, 0xE0000000#32, 0xFFFFFFFF#32].all (!wellFormedWord ·) = true := by
  decide

/-- V3, V8, V11, V14, V18, V36, V56 to V59: a 1 in a "zero" field, for each format. -/
theorem test_wellFormedWord_refuses_reserved_fields :
    [0x18000000#32, 0x20000002#32, 0x30000001#32, 0x40000010#32, 0x50000100#32, 0x68000000#32, 0x70000001#32,
      0x80000001#32, 0x98000000#32, 0xA0000801#32, 0xA0100F00#32, 0xB0010800#32].all (!wellFormedWord ·) = true := by
  decide

/-- V44, V51, V52, V48. -/
theorem test_admissible_refuses :
    [Instr.rdreg 0xF, .wrreg 0xF 0x00, .wrreg 0x9 0x12, .wrreg 0xE 0x00, .wrreg 0x8 0x41].all (!·.admissible)
      = true := by
  decide

/-! ## Decoding: words written out from the formats of R112, bit 31 first -/

theorem test_decode_config : -- B: opcode, zero, idx, ddr, port, pin
    decode 0b0001_0_010_00101010_00101011_00101001#32 = .command (.config 0x2A 0x2B 0x29 2) := by decide
theorem test_decode_wbit : -- W: opcode, zero(27), bit
    decode 0b0010_000000000000000000000000000_1#32 = .command (.wbit true) := by decide
theorem test_decode_rbit : decode 0b0011_0000000000000000000000000000#32 = .command .rbit := by decide
theorem test_decode_pres : decode 0b0100_0000000000000000000000000000#32 = .command .pres := by decide
theorem test_decode_sendb : -- Y: opcode, zero(20), byte
    decode 0b0101_00000000000000000000_10110000#32 = .command (.sendb 0xB0) := by decide
theorem test_decode_recvb : decode 0b0110_0000000000000000000000000000#32 = .command .recvb := by decide
theorem test_decode_rdrom : decode 0b0111_0000000000000000000000000000#32 = .command .rdrom := by decide
theorem test_decode_matchrom : decode 0b1000_0000000000000000000000000000#32 = .command .matchrom := by decide
theorem test_decode_srchrom : decode 0b1001_0000000000000000000000000000#32 = .command .srchrom := by decide
theorem test_decode_rdreg : -- R: opcode, zero(16), reg, zero(8)
    decode 0b1010_0000000000000000_1000_00000000#32 = .command (.rdreg 8) := by decide
theorem test_decode_wrreg : -- R: opcode, zero(16), reg, val
    decode 0b1011_0000000000000000_0111_00001001#32 = .command (.wrreg 7 0x09) := by decide
theorem test_decodeTableWord_refuses : decodeTableWord 32 0xC0000000 = none := by decide

/-- P3, R121, R122: lines of the written form, with a comment and two pseudo-commands, and the words the spec gives. -/
theorem test_assemble :
    (Assembler.assemble ("CONFIG 0x2A, 0x2B, 0x29, 2 # bind\nSRCHRST\nRDREG LASTDEV\nSENDB 0b10110000\n" ++
      "LDROM 0x02, 0xAA, 0xBB, 0xCC, 0xDD, 0xEE, 0xFF, 0x77")).map (·.map encode) =
    some [0x122A2B29#32, 0xB0000800#32, 0xA0000800#32, 0x500000B0#32, 0xB0000002#32, 0xB00001AA#32, 0xB00002BB#32,
      0xB00003CC#32, 0xB00004DD#32, 0xB00005EE#32, 0xB00006FF#32, 0xB0000777#32] := by decide +kernel

/-! ## One step of each command -/

/-- V1, from reset with the two I/O registers at 0xFF. -/
theorem test_config :
    let t := issued 0x122A2B29 { State.reset with io := [(0x2A, 0xFF#8), (0x2B, 0xFF#8)], gie := true }
    t.rw = some 0x0000#16 ∧ t.io = [(0x2A, 0xFB#8), (0x2B, 0xFB#8)] ∧ t.gie = true ∧ t.ctl.configured = true ∧
      t.ctl.trace = [.rel, .wait 480] := by decide

/-- V4: binding again clears `LASTDEV`, keeps `ROM_ID`, and leaves the old pin as it was. -/
theorem test_config_again :
    let t := issued 0x10272826 (setLastDev 0x39#8
      { ready (.answers []) true with
        io := [(0x27, 0xFF#8), (0x28, 0xFF#8), (0x2A, 0xFB#8), (0x2B, 0xFB#8)] })
    t.ctl.lastDev = 0x00#8 ∧ t.ctl.romId = Vector.replicate 8 0xEE#8 ∧
      t.io = [(0x27, 0xFE#8), (0x28, 0xFE#8), (0x2A, 0xFB#8), (0x2B, 0xFB#8)] := by decide

/-- V5. -/
theorem test_wbit_one :
    let t := issued 0x20000001 (ready (.answers []) true)
    t.rw = some 0x0000#16 ∧ t.io = [(0x2A, 0xFB#8), (0x2B, 0xFB#8)] ∧ t.gie = true ∧
      t.ctl.trace = [.irqSave true, .low, .wait 6, .rel, .wait 64, .irqRestore true] := by decide

/-- V6. -/
theorem test_wbit_zero :
    let t := issued 0x20000000 (ready (.answers []) false)
    t.gie = false ∧
      t.ctl.trace = [.irqSave false, .low, .wait 6, .wait 60, .rel, .wait 10, .irqRestore false] := by decide

/-- V9. -/
theorem test_rbit_low :
    let t := issued 0x30000000 (ready (.stuck false) false)
    t.rw = some 0x0000#16 ∧
      t.ctl.trace = [.irqSave false, .low, .wait 6, .rel, .wait 9, .samp false, .wait 55, .irqRestore false] := by
  decide

/-- V10. -/
theorem test_rbit_high : (issued 0x30000000 (ready (.stuck true) true)).rw = some 0x0001#16 := by decide

/-- V12: a device is heard, and waits for a ROM command. -/
theorem test_pres :
    let t := issued 0x40000000 (ready (.bus [⟨dev08.rom, .selected⟩]) true)
    t.rw = some 0x0001#16 ∧ t.farSide = .bus [dev08] ∧
      t.ctl.trace =
        [.irqSave true, .low, .wait 480, .rel, .wait 70, .samp false, .wait 410, .irqRestore true] := by decide

/-- V13. -/
theorem test_pres_empty : (issued 0x40000000 (ready (.bus []) true)).rw = some 0x0000#16 := by decide

/-- V15, S1: 0xB0 goes out as 0,0,0,0,1,1,0,1. -/
theorem test_sendb :
    let t := issued 0x500000B0 (ready (.answers []) true)
    t.ctl.trace = segments Timing.default true ([false, false, false, false, true, true, false, true].map .write) ∧
      waitTotal t.ctl.trace = 590 := by decide +kernel

/-- V64: in a gap the host changes bit 0 of `io[0x2B]`, and the write survives; its attempt on the bound bit does not. -/
theorem test_sendb_window :
    (issued 0x500000B0 { ready (.answers []) true with handlers := [[], [], [⟨0x2B#8, 0xFE#8⟩]] }).io =
      [(0x2A, 0xFB#8), (0x2B, 0xFA#8)] := by decide +kernel

/-- V19: the first sample is bit 0. -/
theorem test_recvb :
    (issued 0x60000000
      (ready (.answers [false, false, false, false, true, true, false, true]) true)).rw = some 0x00B0#16 := by decide +kernel

/-- V20. -/
theorem test_recvb_high : (issued 0x60000000 (ready (.stuck true) true)).rw = some 0x00FF#16 := by decide +kernel

/-- V22: one device. -/
theorem test_rdrom :
    let t := issued 0x70000000 (ready (.bus [dev08]) true)
    t.ctl.romId = idOf 1 2 3 4 5 6 7 8 ∧ t.farSide = .bus [⟨dev08.rom, .selected⟩] := by decide +kernel

/-- V24: two devices answer at once, and the wire gives the AND. -/
theorem test_rdrom_two :
    (issued 0x70000000 (ready (.bus [listening (idOf 0x28 0xFF 0x0F 0x33 0 0 0 0xA5),
      listening (idOf 0x10 0x0F 0xFF 0x55 0 0 0 0x5A)]) true)).ctl.romId = idOf 0 0x0F 0x0F 0x11 0 0 0 0 := by decide +kernel

/-- V25. -/
theorem test_matchrom :
    (issued 0x80000000 (loaded dev09.rom 0 (ready (.bus [dev08, dev09]) true))).farSide =
      .bus [⟨dev08.rom, .idle⟩, ⟨dev09.rom, .selected⟩] := by decide +kernel

/-- V26: nobody matches, and the controller cannot tell. -/
theorem test_matchrom_nobody :
    let t := issued 0x80000000 (loaded (idOf 1 2 3 4 5 6 7 0x0A) 0 (ready (.bus [dev08, dev09]) true))
    t.rw = some 0x0000#16 ∧ t.farSide = .bus [⟨dev08.rom, .idle⟩, ⟨dev09.rom, .idle⟩] := by decide +kernel

/-- V33, pass 3: branches 4c, 4a and 4b. -/
theorem test_srchrom_stuck :
    let t := issued 0x90000000 (loaded (idOf 0 0 0 0 0 0 0 0x80) 0x3F (ready (.stuck false) true))
    t.rw = some 0x0040#16 ∧ t.ctl.romId = idOf 0 0 0 0 0 0 0 0x40 ∧ t.ctl.lastDev = 0x40#8 := by decide +kernel

/-- V31, pass 4: branch 4d keeps the 1 and records nothing. -/
theorem test_srchrom_last_pass :
    let t := issued 0x90000000 (loaded (idOf 1 0xAA 0xBB 0xCC 0xDD 0xEE 0xFF 0x77) 0x02 (ready bus31 true))
    t.rw = some 0x0000#16 ∧ t.ctl.romId = idOf 3 0xAA 0xBB 0xCC 0xDD 0xEE 0xFF 0x77 ∧ t.ctl.lastDev = 0x00#8 := by
  decide +kernel

/-- V42, V43. -/
theorem test_rdreg :
    ([0xA0000900, 0xA0000A00, 0xA0000B00, 0xA0000C00, 0xA0000D00, 0xA0000E00].map
      fun w => (issued w (ready (.answers []) true)).rw) =
    [some 0x002A#16, some 0x002B#16, some 0x0029#16, some 0x0002#16, some 0x0004#16, some 0x0001#16] := by decide +kernel

/-- V44; and V61, V62 with V60 before `CONFIG`. -/
theorem test_refusals :
    (issued 0xA0000F00 (ready (.answers []) true)).rw = some 0x0400#16 ∧
      ([0xC0000000, 0x30000001, 0x30000000, 0xA0000E00].map fun w => (issued w State.reset).rw) =
        [some 0x0100#16, some 0x0200#16, some 0x0300#16, some 0x0000#16] := by decide +kernel

/-- V45, V47. -/
theorem test_wrreg :
    (issued 0xB0000028 (ready (.answers []) true)).ctl.romId[0] = 0x28#8 ∧
      (issued 0xB0000840 (ready (.answers []) true)).ctl.lastDev = 0x40#8 := by decide +kernel

/-- V48, V51, V52. -/
theorem test_wrreg_refused :
    ([0xB0000841, 0xB0000912, 0xB0000D01, 0xB0000E00, 0xB0000F00].map
      fun w => (issued w (ready (.answers []) true)).rw) =
    [some 0x0600#16, some 0x0500#16, some 0x0500#16, some 0x0500#16, some 0x0400#16] := by decide +kernel

/-- C4, R285: with `T_W0_HOLD = 54` a write-0 slot is 60 low and 10 released, and the response is the same. -/
theorem test_wbit_zero_other_reading :
    let t := issued 0x20000000
      { ready (.answers []) true with timing := { Timing.default with tW0Hold := 54 } }
    t.rw = some 0x0000#16 ∧ waitTotal t.ctl.trace = 70 := by decide

/-- R90: a device put on the bus starts in `Idle`; one that was there keeps its state. -/
theorem test_population :
    ∃ t, step { ready (.bus [dev08]) true with inbox := [.environment pin2 (.population [dev09.rom, dev08.rom])] } =
        .next t ∧ t.farSide = .bus [⟨dev09.rom, .idle⟩, dev08] := ⟨_, rfl, by decide⟩

/-! ## Witnesses: the hypotheses of each statement, met together -/

/-- A configured state with a host's handler waiting for the first gap, and another configured controller on another
pin. -/
def busy (env : Environment) : State :=
  { ready env true with
    parked := [{ boundCtl with pinIdx := 3#3 }]
    lines := linesPut pin2 env [⟨{ pin2 with pinIdx := 3#3 }, .stuck true⟩]
    io := [(0x2A, 0xF3#8), (0x2B, 0xF3#8)]
    handlers := [[⟨0x2B#8, 0x00#8⟩]] }

theorem witness_EncodeOfDecode : decode 0x500000B0#32 = .command (.sendb 0xB0) := by decide

/-- Every row has a word that matches it, and one that does not. -/
theorem witness_DecoderFollowsOpcodeMap :
    (∀ r ∈ opcodeRows, r.pattern &&& r.mask = r.pattern) ∧ opcodeRows ≠ [] ∧
      ∀ r ∈ opcodeRows, (0xFFFFFFFF#32 &&& r.mask) ≠ r.pattern := by decide

theorem witness_StepRunsTheDecodedCommand :
    let s := (ready (.stuck true) true).withFetchWord 32 0x30000000
    s.inbox = [.issue 0x30000000#32] ∧ decode 0x30000000#32 = .command .rbit := by decide

/-- The opcodes where the clauses meet: 0x0 and 0x1, 0xB and 0xC, 0xF. -/
theorem witness_IllFormedWordsAreRefused :
    (State.reset.withFetchWord 32 0x00000000).inbox = [.issue 0x00000000#32] ∧
      (0x00000000#32).toNat / 2 ^ 28 = 0x0 ∧
      (0xC ≤ (0xC0000000#32).toNat / 2 ^ 28 ∧ 0xC ≤ (0xFFFFFFFF#32).toNat / 2 ^ 28) ∧
      (0x1 ≤ (0x18000000#32).toNat / 2 ^ 28 ∧ (0x18000000#32).toNat / 2 ^ 28 ≤ 0xB ∧
        wellFormedWord 0x18000000#32 = false) ∧
      (0x1 ≤ (0xBFFFFFFF#32).toNat / 2 ^ 28 ∧ (0xBFFFFFFF#32).toNat / 2 ^ 28 ≤ 0xB ∧
        wellFormedWord 0xBFFFFFFF#32 = false) := by decide

theorem witness_HardResetTouchesOnlyTheBlock :
    { ready (.stuck true) true with inbox := [.hardReset] }.inbox = [.hardReset] := rfl

theorem busy_inv : Inv (busy (.stuck true)) where
  io := by decide
  lines := by decide
  timing := by decide
  controllers := by
    intro c hc
    simp only [busy, ready, List.mem_cons, List.not_mem_nil, or_false] at hc
    obtain rfl | rfl := hc <;> exact ⟨by decide, rfl, rfl, fun _ => ⟨by decide, by decide⟩⟩

/-- A command is waiting, and the step answers. -/
theorem witness_StepKeepsTheInvariant :
    Inv ((busy (.stuck true)).withFetchWord 32 0x20000001) ∧
      ∃ t, step ((busy (.stuck true)).withFetchWord 32 0x20000001) = .next t := by
  refine ⟨⟨by exact busy_inv.io, by decide, by exact busy_inv.timing, by exact busy_inv.controllers⟩, ?_⟩
  exact ⟨_, rfl⟩

theorem witness_ConfiguredStaysUntilReset :
    let s := (busy (.stuck true)).withFetchWord 32 0x122A2B29
    (∃ t, step s = .next t) ∧ (∀ rest, s.inbox ≠ .hardReset :: rest) ∧ (∀ n rest, s.inbox ≠ .select n :: rest) ∧
      s.ctl.configured = true := by
  refine ⟨⟨_, rfl⟩, ?_, ?_, rfl⟩ <;> intros <;> simp [State.withFetchWord]

/-- Both ways of being quiet, with an address that is bound and one that is not. -/
theorem witness_ConfigChangesOnlyTheBoundBits :
    Quiet { busy (.stuck true) with gie := false } ∧ Quiet (ready (.stuck true) true) ∧
      (∃ t, execConfig 0x24 0x25 0x23 7 { busy (.stuck true) with gie := false } = .next t) ∧
      (∃ t, execConfig 0x24 0x25 0x23 7 (ready (.stuck true) true) = .next t) ∧
      (0x24 = (0x24#8).toNat ∧ 0x26 ≠ (0x24#8).toNat ∧ 0x26 ≠ (0x25#8).toNat) :=
  ⟨.inl rfl, .inr rfl, ⟨_, rfl⟩, ⟨_, rfl⟩, by decide⟩

/-- A state in which a handler runs during `CONFIG`, one in which none can, a bit now bound, and a bit that stays free. -/
theorem witness_OnlyHandlersChangeOtherBitsInConfig :
    (∃ t, execConfig 0x2A 0x2B 0x29 4 (busy (.stuck true)) = .next t) ∧
      { busy (.stuck true) with gie := false }.gie = false ∧
      (let bound := { busy (.stuck true) with ctl := { boundCtl with pinIdx := 4#3 } }
      bound.ctl.binds 0x2B 4 ∧ HandlerWrites bound 0x2B 0 false) :=
  ⟨⟨_, rfl⟩, rfl, by decide, rfl, _, List.mem_cons_self, _, List.mem_cons_self, by decide⟩

/-- `LASTDEV` values at both sides of the bound; the read-only registers at both ends of their range. -/
theorem witness_WrregStoresOrRefuses :
    (0x40#8).toNat ≤ 64 ∧ 64 < (0x41#8).toNat ∧ (9 ≤ (0x9#4).toNat ∧ (0x9#4).toNat ≤ 14) ∧
      (9 ≤ (0xE#4).toNat ∧ (0xE#4).toNat ≤ 14) ∧ ¬ (0x8#4).toNat ≥ 9 ∧ ¬ (0xF#4).toNat ≤ 14 := by decide

theorem witness_BusCommandsNeedConfig :
    Instr.srchrom.isBusCommand = true ∧ State.reset.ctl.configured = false := ⟨rfl, rfl⟩

theorem witness_WbitWritesOneSlot :
    (ready (.answers []) true).ctl.configured = true ∧ (ready (.answers []) true).timing = Timing.default := ⟨rfl, rfl⟩
theorem witness_RbitReadsOneSlot :
    (ready (.answers [true]) false).ctl.configured = true ∧
      (ready (.answers [true]) false).timing = Timing.default := ⟨rfl, rfl⟩
theorem witness_PresRunsTheResetSlot :
    (ready (.stuck false) true).ctl.configured = true ∧ (ready (.stuck false) true).timing = Timing.default :=
  ⟨rfl, rfl⟩
theorem witness_SendbWritesEightSlots : (busy (.answers [])).ctl.configured = true := rfl
theorem witness_RecvbReadsEightSlots : (busy (.answers [])).ctl.configured = true := rfl
theorem witness_RdromFillsRomId : (busy (.bus [dev08])).ctl.configured = true := rfl
theorem witness_MatchromSendsRomId : (busy (.bus [dev08])).ctl.configured = true := rfl
theorem witness_SrchromCompletes : (busy bus31).ctl.configured = true := rfl

/-- The eight bits `SENDB 0xB0` sends, answered to `RECVB`. -/
theorem witness_RecvbInvertsSendb :
    let bits := [false, false, false, false, true, true, false, true]
    let s := ready (.answers (bits ++ [true])) true
    s.ctl.configured = true ∧
      ∃ u, execSendb 0xB0 s = .next u ∧ u.ctl.trace = s.ctl.trace ++ segments s.timing s.gie (bits.map .write) ∧
        s.farSide = .answers (bits ++ [true]) :=
  ⟨rfl, _, rfl, by decide +kernel, rfl⟩

/-- Quiet both ways, with a bound and an unbound address. -/
theorem witness_BusCommandsChangeOnlyTheBoundBits :
    Instr.pres.isBusCommand = true ∧ (ready (.bus []) true).ctl.configured = true ∧ Quiet (ready (.bus []) true) ∧
      Quiet { busy (.bus []) with gie := false } ∧ (∃ t, execPres (ready (.bus []) true) = .next t) ∧
      (∃ t, execPres { busy (.bus []) with gie := false } = .next t) ∧
      0x2A = (ready (.bus []) true).ctl.ddrRef.toNat ∧ 0x29 ≠ (ready (.bus []) true).ctl.ddrRef.toNat ∧
      0x29 ≠ (ready (.bus []) true).ctl.portRef.toNat :=
  ⟨rfl, rfl, .inr rfl, .inl rfl, ⟨_, rfl⟩, ⟨_, rfl⟩, by decide, by decide, by decide⟩

/-- A handler waiting writes bit 0 of `io[0x2B]`, which is free; bit 2 there is bound; and a state with `GIE = 0`. -/
theorem witness_OnlyHandlersChangeOtherBits :
    Instr.recvb.isBusCommand = true ∧ (busy (.stuck true)).ctl.configured = true ∧
      (∃ t, execRecvb (busy (.stuck true)) = .next t) ∧ HandlerWrites (busy (.stuck true)) 0x2B 0 false ∧
      (busy (.stuck true)).ctl.binds 0x2B 2 ∧ ¬ HandlerWrites (busy (.stuck true)) 0x2B 2 false ∧
      { busy (.stuck true) with gie := false }.gie = false := by
  refine ⟨rfl, rfl, ⟨_, rfl⟩, ⟨rfl, _, List.mem_cons_self, _, List.mem_cons_self, by decide⟩, by decide, ?_, rfl⟩
  rintro ⟨-, ws, hws, w, hw, -, h, -⟩
  simp only [busy, List.mem_singleton] at hws
  subst hws
  simp only [List.mem_singleton] at hw
  subst hw
  revert h
  decide

/-- The pairs of V33: both bits 0 at every position. -/
theorem witness_SearchPassFollowsItsBranches :
    let zero : Position → Bool := fun _ => false
    let s := ready (.answers ((List.finRange 64).flatMap (fun p => [zero p, zero p]) ++ [])) true
    s.ctl.configured = true ∧ (∀ p, ¬ (zero p = true ∧ zero p = true)) ∧
      s.farSide = .answers ((List.finRange 64).flatMap (fun p => [zero p, zero p]) ++ []) :=
  ⟨rfl, by decide, rfl⟩

/-- Nobody answers at position 1, and nobody at position 64. -/
theorem witness_SearchAbortsWhereNobodyAnswers :
    let zero : Position → Bool := fun _ => false
    let s (p : Position) :=
      ready (.answers (((List.finRange 64).take p.val).flatMap (fun q => [zero q, zero q]) ++ true :: true :: [])) true
    ((s 0).ctl.configured = true ∧ (∀ q : Position, q < 0 → ¬ (zero q = true ∧ zero q = true)) ∧
        (s 0).farSide = .answers [true, true]) ∧
      ((s 63).ctl.configured = true ∧ (∀ q : Position, q < 63 → ¬ (zero q = true ∧ zero q = true)) ∧
        (s 63).farSide = .answers
          (((List.finRange 64).take 63).flatMap (fun q => [zero q, zero q]) ++ true :: true :: [])) :=
  ⟨⟨rfl, by decide, rfl⟩, rfl, by decide, rfl⟩

theorem witness_PresenceUnderTheBus :
    (ready (.bus [dev08]) true).ctl.configured = true ∧ (ready (.bus [dev08]) true).farSide = .bus [dev08] ∧
      (ready (.bus []) true).farSide = .bus [] := ⟨rfl, rfl, rfl⟩

/-- Position 57 of S3: both participate; and a bus where one does and one is idle. -/
theorem witness_SearchPairMeaning :
    let d (id : RomId) (st : DeviceState) : Device := ⟨id, st⟩
    let both := [d dev08.rom (.searchA 56), d dev09.rom (.searchA 56)]
    let one := [d dev08.rom (.searchA 56), d dev09.rom .idle]
    (ready (.bus both) true).farSide = .bus both ∧
      (∀ x ∈ both, x.st = .searchA 56 ∨ x.st = .idle ∨ x.st = .selected) ∧
      ∀ x ∈ one, x.st = .searchA 56 ∨ x.st = .idle ∨ x.st = .selected := by decide

/-- No device, one device and two. -/
theorem witness_RdromUnderTheBus :
    (∀ devs ∈ [[], [dev08], [dev08, dev09]], (ready (.bus devs) true).ctl.configured = true ∧
      (ready (.bus devs) true).farSide = .bus devs ∧ ∀ d ∈ devs, d.st = .cmd 0 0x00#8) := by decide

/-- One device is addressed, the other is not. -/
theorem witness_MatchromUnderTheBus :
    let s := loaded dev09.rom 0 (ready (.bus [dev08, dev09]) true)
    s.ctl.configured = true ∧ s.farSide = .bus [dev08, dev09] ∧ (∀ d ∈ [dev08, dev09], d.st = .cmd 0 0x00#8) ∧
      dev09.rom = s.ctl.romId ∧ dev08.rom ≠ s.ctl.romId := by decide

theorem witness_ReadThenMatchSelectsTheDevice :
    (ready (.bus [dev08]) true).ctl.configured = true ∧ (ready (.bus [dev08]) true).farSide = .bus [dev08] :=
  ⟨rfl, rfl⟩

/-- Either way the bus is empty. -/
theorem witness_SearchOfAnEmptyBus :
    (ready (.bus []) true).ctl.configured = true ∧ (ready (.bus []) true).farSide = .bus [] ∧
      (ready (.stuck true) true).ctl.configured = true ∧ (ready (.stuck true) true).farSide = .stuck true :=
  ⟨rfl, rfl, rfl, rfl⟩

theorem witness_EveryPassFindsADevice :
    (ready (.bus [dev08, dev09]) true).ctl.configured = true ∧
      (ready (.bus [dev08, dev09]) true).farSide = .bus [dev08, dev09] ∧ [dev08, dev09] ≠ [] ∧
      ∀ d ∈ [dev08, dev09], d.st = .cmd 0 0x00#8 := by decide

theorem witness_SearchOfASingleDevice :
    (ready (.bus [dev08]) true).ctl.configured = true ∧ (ready (.bus [dev08]) true).farSide = .bus [dev08] ∧
      dev08.st = .cmd 0 0x00#8 := by decide

theorem witness_EnumerationFindsEveryDevice :
    let s := ready (.bus [dev08, dev09]) true
    let none := ready (.bus []) true
    s.ctl.configured = true ∧ s.farSide = .bus [dev08, dev09] ∧ [dev08, dev09] ≠ [] ∧
      ([dev08, dev09].map Device.rom).Nodup ∧ s.ctl.lastDev = 0x00#8 ∧
      none.ctl.configured = true ∧ none.farSide = .bus [] ∧ none.ctl.lastDev = 0x00#8 := by decide

theorem witness_GieIsRestored :
    (∃ t, execSendb 0xB0 (ready (.answers []) true) = .next t) ∧
      ∃ t, execSendb 0xB0 (ready (.answers []) false) = .next t := ⟨⟨_, rfl⟩, _, rfl⟩

theorem witness_PrimitivesEndReleased :
    (∃ t, execConfig 0x2A 0x2B 0x29 2 (busy (.stuck true)) = .next t) ∧ (Instr.wbit false).isBusCommand = true ∧
      (busy (.stuck true)).ctl.configured = true ∧ ∃ t, execWbit false (busy (.stuck true)) = .next t :=
  ⟨⟨_, rfl⟩, rfl, rfl, _, rfl⟩

theorem witness_TracesKeepTheDiscipline : ∃ t, execSrchrom (busy bus31) = .next t := ⟨_, rfl⟩

theorem witness_AtMostTwoHundredSlots : ∃ t, execSrchrom (ready (.stuck false) true) = .next t := ⟨_, rfl⟩

/-- Every command, a full pass of `SRCHROM` and one that aborts. -/
theorem witness_CommandDurations :
    (ready (.bus [dev08]) true).ctl.configured = true ∧
      (∀ i ∈ [Instr.config 1 2 3 4, .wbit true, .wbit false, .rbit, .pres, .sendb 0xB0, .recvb, .rdrom, .matchrom,
        .srchrom, .rdreg 0xF, .wrreg 8 0x41], ∃ t, exec i (ready (.bus [dev08]) true) = .next t) ∧
      (∃ t, execSrchrom (ready (.stuck false) true) = .next t ∧ t.rw ≠ some 0x00FF#16) ∧
      ∃ t, execSrchrom (ready (.stuck true) true) = .next t ∧ t.rw = some 0x00FF#16 := by
  refine ⟨rfl, fun i _ => ?_, ⟨_, rfl, by decide +kernel⟩, _, rfl, by decide +kernel⟩
  cases i <;> exact ⟨_, rfl⟩

/-- A memory with a byte to replace, and two in canonical form that read alike. -/
theorem witness_IoReadAfterWrite :
    let m : Memory := [(0x2A, 0xFB#8)]
    let n : Memory := Memory.write [] 0x2A 0xFB#8
    m.wf ∧ n.wf ∧ m = n ∧ m.write 0x2A 0x00#8 = [] := by decide

theorem witness_BitHelpersChangeOneBit :
    (0x2A#8 ≠ 0x2B#8 ∨ 2#3 ≠ 2#3) ∧ (0x2A#8 ≠ 0x2A#8 ∨ 3#3 ≠ 2#3) := by decide

/-- Two controllers bound to the register written, one that is bound elsewhere, a register not written; a free bit of the
register and a bound one. -/
theorem witness_HostWritesLeaveBoundBits :
    let w : IoWrite := ⟨0x2B#8, 0x00#8⟩
    let s := busy (.stuck true)
    (∀ c ∈ s.ctl :: s.parked, c.configured = true ∧ c.portRef = w.ref) ∧ 0x2A#8 ≠ w.ref ∧
      (hostKeeps w.ref s).getLsbD 7 = false ∧ (hostKeeps w.ref s).getLsbD 3 = true ∧
      (∀ c ∈ s.ctl :: s.parked, c.bound = false ∨ c.ddrRef ≠ 0x30#8 ∧ c.portRef ≠ 0x30#8) := by decide

/-- Another configured controller, on bit 3 of the same two registers; its pin is another line. -/
theorem witness_CommandsLeaveOtherControllers :
    let s := busy (.stuck true)
    (∃ t, execWbit false s = .next t ∧ ∃ c ∈ s.parked, c.configured = true ∧ c.binds 0x2B 3 ∧
      ¬ t.ctl.binds 0x2B 3 ∧ c.pin ≠ t.ctl.pin ∧ t.ctl.pin.touches c.pin = false) :=
  ⟨_, rfl, _, List.mem_cons_self, rfl, by decide, by decide +kernel, by decide +kernel, by decide +kernel⟩

/-- The host's three moves: turning to the one other controller, and to one that there is not. -/
theorem witness_HostMovesDoWhatTheySay :
    let s := busy (.stuck true)
    (∃ rest, { s with inbox := [.setGie false] }.inbox = .setGie false :: rest) ∧
      (∃ rest, { s with inbox := [.ioWrite ⟨0x2B#8, 0x00#8⟩] }.inbox = .ioWrite ⟨0x2B#8, 0x00#8⟩ :: rest) ∧
      (hostKeeps 0x2B#8 s).getLsbD 1 = false ∧ (hostKeeps 0x2B#8 s).getLsbD 2 = true ∧
      (∃ rest, { s with inbox := [.select 0] }.inbox = .select 0 :: rest) ∧
      (∃ c, s.parked[0]? = some c) ∧ s.parked[1]? = none :=
  ⟨⟨_, rfl⟩, ⟨_, rfl⟩, by decide, by decide, ⟨_, rfl⟩, ⟨_, rfl⟩, rfl⟩

/-- A pin with a device on it, to which one that was there and a new one are put; references that are no pin's, and a
population with an identifier twice. -/
theorem witness_LinesAreSetFromOutside :
    let s := ready (.bus [dev08]) true
    pin2.proper = true ∧ { pin2 with pinRef := 0x2A#8 }.proper = false ∧
      (∀ f ∈ [FarSide.answers [true], .stuck false, .population [dev08.rom, dev09.rom]],
        ∃ rest, { s with inbox := [.environment pin2 f] }.inbox = .environment pin2 f :: rest) ∧
      [dev08.rom, dev09.rom].Nodup ∧ linesAt pin2 s.lines = .bus [dev08] ∧ ([dev08].map Device.rom).Nodup ∧
      dev09.rom ∉ (linesAt pin2 s.lines).population ∧ ¬ [dev08.rom, dev08.rom].Nodup ∧
      { pin2 with pinIdx := 3#3 } ≠ pin2 :=
  ⟨by decide, by decide, fun _ _ => ⟨_, rfl⟩, by decide, by decide, by decide, by decide, by decide, by decide⟩

/-- A command waits, and both pins of the platform are untouched by the other's controller. -/
theorem witness_ParametersStay :
    let s := (busy (.bus [dev08])).withFetchWord 32 0x40000000
    (∃ t, step s = .next t) ∧ (∀ p f rest, s.inbox ≠ .environment p f :: rest) ∧ pin2.proper = true ∧
      s.ctl.pin.touches pin2 = false ∧ s.ctl.pin.touches { pin2 with pinIdx := 3#3 } = false := by
  refine ⟨⟨_, rfl⟩, ?_, by decide, by decide, by decide⟩
  intros
  simp [State.withFetchWord]

/-- Two different sets of parameters, and two labels in the trace. -/
theorem witness_TimingDecidesNothing :
    let s := ready (.stuck true) true
    let u := { s with timing := { Timing.default with tW0Hold := 54 } }
    s.untimed = u.untimed ∧ s ≠ u ∧ (emit (.wait 76) s).untimed = (emit (.wait 70) u).untimed := by decide

/-- A handler waits; one bit of its register is free, one is bound; and a state with `GIE = 0`. -/
theorem witness_WindowRunsTheNextHandler :
    let s := busy (.stuck true)
    s.gie = true ∧ (∃ ws rest, s.handlers = ws :: rest) ∧ testBit (hostKeeps 0x2B#8 s) 0 = false ∧
      testBit (hostKeeps 0x2B#8 s) 2 = true ∧ { s with gie := false }.gie = false :=
  ⟨rfl, ⟨_, _, rfl⟩, by decide, by decide, rfl⟩

theorem witness_HandlersRunInTheWindows :
    let s := busy (.bus [dev08])
    s.ctl.configured = true ∧ s.gie = true ∧ s.handlers ≠ [] ∧
      ∀ i ∈ [Instr.sendb 0xB0, .recvb, .rdrom, .matchrom, .srchrom, .wbit true, .rbit, .pres],
        i.isBusCommand = true ∧ ∃ t, exec i s = .next t := by
  refine ⟨rfl, rfl, by decide, fun i hi => ⟨?_, ?_⟩⟩
  · revert i
    decide
  · cases i <;> exact ⟨_, rfl⟩

/-- Bit 0 of the handler's register stays free when `CONFIG` binds bit 4. -/
theorem witness_HandlersRunDuringConfig :
    let s := busy (.stuck true)
    s.gie = true ∧ (∃ t, execConfig 0x2A 0x2B 0x29 4 s = .next t) ∧
      testBit (hostKeeps 0x2B#8 { s with ctl := { boundCtl with pinIdx := 4#3 } }) 0 = false :=
  ⟨rfl, ⟨_, rfl⟩, by decide⟩

theorem witness_SearchFollowsItsSamples : (busy (.answers [true, false])).ctl.configured = true := rfl

theorem witness_StuckLines :
    (busy (.stuck false)).ctl.configured = true ∧ (busy (.stuck false)).farSide = .stuck false ∧
      (busy (.stuck true)).ctl.configured = true ∧ (busy (.stuck true)).farSide = .stuck true := by decide

/-- A controller whose direction register is its sense register too; and one whose output register is another pin's. -/
theorem witness_IllAssortedReferencesAnswerAnything :
    let s := busy (.stuck true)
    let one := { s with ctl := { boundCtl with ddrRef := 0x29#8 } }
    let other := { s with ctl := { boundCtl with ddrRef := 0x24#8, pinRef := 0x23#8 } }
    one.ctl.configured = true ∧ one.ctl.pin.proper = false ∧ other.ctl.configured = true ∧
      other.ctl.pin.proper = true ∧ other.ctl.pin.touches pin2 = true ∧ linesAt pin2 other.lines = .stuck true ∧
      Instr.pres.isBusCommand = true ∧ ∃ t, execPres other = .next t :=
  ⟨rfl, by decide, rfl, by decide, by decide, by decide, rfl, _, rfl⟩

end Sys2Proof.Tests
end

section
/-! PROOFS. The statements on the scope of the model (00_scope.md): what a command can do at all (rule R14), the
parameters of the step relation (R6, R13) and the waits of each command (70_reset_and_hazards.md rule R285). -/

namespace Sys2Proof.Machine

/-! ## What a command can do (R14) -/

/-- The body touches no register but `ROM_ID` and `LASTDEV`, and nothing beside the registers (R220). -/
def OnlyRegisters (body : State → Byte × State) : Prop :=
  ∀ s, ∃ id dev, (body s).2 = setLastDev dev (setRomId id s)

/-- A command that completes and touches only registers, or is refused. -/
inductive RegisterRuns (i : Instr) (s : State) : State → Prop where
  | refused {st : Status} : st ≠ .done → RegisterRuns i s (refuse st s)
  | completed {body : State → Byte × State} : OnlyRegisters body → RegisterRuns i s (complete i body s)

/-- The ways a command can go: it is refused; or it completes, and then it is a run of slots, a `CONFIG`, or touches only
registers. -/
inductive CommandRuns (i : Instr) (s : State) : State → Prop where
  | refused {st : Status} : st ≠ .done → CommandRuns i s (refuse st s)
  | slots {body : State → Byte × State} {sls : List Slot} : sls ≠ [] → Slots sls (accept i s) (body (accept i s)).2 →
      CommandRuns i s (complete i body s)
  | config {ddr port pin : Ref} {idx : PinIndex} : i = .config ddr port pin idx →
      CommandRuns i s (complete i (configBody ddr port pin idx) s)
  | registers {body : State → Byte × State} : OnlyRegisters body → CommandRuns i s (complete i body s)

theorem rdreg_runs (reg : BitVec 4) (s : State) :
    ∃ t, exec (.rdreg reg) s = .next t ∧ RegisterRuns (.rdreg reg) s t := by
  refine ⟨_, rfl, ?_⟩
  split
  · exact .refused (by decide)
  · exact .completed fun s => ⟨s.ctl.romId, s.ctl.lastDev, rfl⟩

theorem wrreg_runs (reg : BitVec 4) (val : Byte) (s : State) :
    ∃ t, exec (.wrreg reg val) s = .next t ∧ RegisterRuns (.wrreg reg val) s t := by
  refine ⟨_, rfl, ?_⟩
  cases Reg.ofNumber reg with
  | reserved | ddrRef | portRef | pinRef | pinIdx | mask | status => exact .refused (by decide)
  | lastDev =>
    dsimp only
    split
    · exact .refused (by decide)
    · exact .completed fun s => ⟨s.ctl.romId, val, rfl⟩
  | romId k => exact .completed fun s => ⟨s.ctl.romId.set k val, s.ctl.lastDev, rfl⟩

theorem RegisterRuns.commandRuns {i : Instr} {s t : State} (h : RegisterRuns i s t) : CommandRuns i s t := by
  cases h with
  | refused h => exact .refused h
  | completed h => exact .registers h

/-- Every command answers a next state, in one of these ways. -/
theorem exec_runs (i : Instr) (s : State) : ∃ t, exec i s = .next t ∧ CommandRuns i s t := by
  by_cases hi : i.isBusCommand = true
  · obtain ⟨body, hexec, hbody⟩ := exec_bus i hi
    refine ⟨_, hexec s, ?_⟩
    unfold busCommand
    split
    · obtain ⟨-, sls, hne, -, hsls⟩ := hbody (accept i s)
      exact .slots hne hsls
    · exact .refused (by decide)
  · cases i with
    | wbit | rbit | pres | sendb | recvb | rdrom | matchrom | srchrom => exact absurd rfl hi
    | config ddr port pin idx => exact ⟨_, rfl, .config rfl⟩
    | rdreg reg => exact (rdreg_runs reg s).imp fun _ h => h.imp_right RegisterRuns.commandRuns
    | wrreg reg val => exact (wrreg_runs reg val s).imp fun _ h => h.imp_right RegisterRuns.commandRuns

theorem CommandRuns.of_exec {i : Instr} {s t : State} (h : exec i s = .next t) : CommandRuns i s t := by
  obtain ⟨t', h', hruns⟩ := exec_runs i s
  obtain rfl : t' = t := by simpa [h'] using h
  exact hruns

theorem RegisterRuns.trace {i : Instr} {s t : State} (h : RegisterRuns i s t) : t.ctl.trace = s.ctl.trace := by
  cases h with
  | refused => rfl
  | completed h =>
    obtain ⟨id, dev, hbody⟩ := h (accept i s)
    simp [complete, hbody]

theorem Status.code_ne_zero {st : Status} (h : st ≠ .done) : st.code ≠ 0#4 := by
  cases st with
  | done => exact absurd rfl h
  | reservedOpcode | reservedField | notConfigured | badRegister | readOnly | badValue => decide

/-- A command completes with status 0, or is refused and changes only the response word (R14, R231). -/
theorem CommandRuns.completes_or_refused {i : Instr} {s t : State} (h : CommandRuns i s t) :
    (∃ v : Byte, t.rw = some (responseWord .done v)) ∨ ∃ st : Status, st ≠ .done ∧ t = refuse st s := by
  cases h with
  | refused h => exact .inr ⟨_, h, rfl⟩
  | slots | config | registers => exact .inl ⟨_, rfl⟩

theorem runInput_next (x : Input) (s : State) : ∃ t, runInput x s = .next t := by
  cases x with
  | issue cw =>
    simp only [runInput, runWord]
    cases decode cw with
    | command i => exact (exec_runs i s).imp fun _ h => h.1
    | reservedOpcode | reservedField => exact ⟨_, rfl⟩
  | setGie | ioWrite | select | environment | hardReset => exact ⟨_, rfl⟩

/-- Nothing in this hardware is treated as a fault or as stuck (R230, R237). -/
theorem step_next (s : State) : ∃ t, step s = .next t := by
  unfold step
  split
  · exact ⟨s, rfl⟩
  · exact runInput_next _ _

/-- Settles O7: every command is one of `CommandRuns`, three of which complete and one of which is a refusal. -/
theorem everyCommandCompletesOrIsRefused : Obligations.EveryCommandCompletesOrIsRefused := by
  refine ⟨step_next, fun i s => ?_⟩
  obtain ⟨t, hexec, hruns⟩ := exec_runs i s
  refine ⟨t, hexec, ?_⟩
  rcases hruns.completes_or_refused with hdone | ⟨st, hst, rfl⟩
  · exact .inl hdone
  · exact .inr ⟨st.code, Status.code_ne_zero hst, rfl⟩

/-! ## The parameters of the step relation (R6, R13) -/

/-- Settles O8, by evaluation of `State.reset`. -/
theorem resetLeavesTheBlockUnconfigured : Obligations.ResetLeavesTheBlockUnconfigured :=
  ⟨rfl, rfl, rfl, rfl, rfl, by decide, rfl⟩

/-- Settles O56: `Alike` states are those that differ in timing and wait labels only. -/
theorem timingDecidesNothing : Obligations.TimingDecidesNothing :=
  ⟨⟨rfl, rfl⟩, fun i _ _ h => Alike.exec h i⟩

/-- The timing parameters, the number of controllers and, on every pin the controller in use does not disturb, the
population of the line are the same. -/
structure KeepsParameters (s t : State) : Prop where
  timing : t.timing = s.timing
  controllers : t.parked.length = s.parked.length
  population : ∀ p : Pin, p.proper = true → s.ctl.pin.touches p = false →
    (linesAt p t.lines).population = (linesAt p s.lines).population

theorem KeepsParameters.of_lines {s t : State} (ht : t.timing = s.timing) (hp : t.parked.length = s.parked.length)
    (hl : t.lines = s.lines) : KeepsParameters s t :=
  ⟨ht, hp, fun _ _ _ => by rw [hl]⟩

/-- Slots move the devices on the line of the pin, and keep every population (R90). -/
theorem RanSlots.keepsParameters {sls : List Slot} {s t : State} (h : RanSlots sls s t) : KeepsParameters s t where
  timing := h.host.timing
  controllers := by rw [h.host.parked]
  population := by
    intro p hp ht
    by_cases hpin : p = s.ctl.pin
    · subst hpin
      have hfar : t.farSide.population = s.farSide.population := by rw [h.env, Environment.run_population]
      simpa [State.farSide, Controller.pin_congr h.binding, hp] using hfar
    · rw [h.lines p hpin ht]

theorem CommandRuns.keepsParameters {i : Instr} {s t : State} (h : CommandRuns i s t) : KeepsParameters s t := by
  cases h with
  | refused => exact .of_lines rfl rfl rfl
  | slots hne h => exact (ranSlots_of_slots _ _ h hne).keepsParameters
  | @config ddr port pin idx hi =>
    subst hi
    obtain ⟨-, -, -, hlines, u, hu, -, hstep, -⟩ := config_spec ddr port pin idx s
    refine .of_lines ?_ ?_ hlines
    · rw [hu]
      exact hstep.timing
    · rw [hu]
      exact congrArg List.length hstep.parked
  | registers h =>
    obtain ⟨id, dev, hbody⟩ := h (accept i s)
    exact .of_lines (by simp [complete, hbody]) (by simp [complete, hbody]) (by simp [complete, hbody])

theorem runWord_keepsParameters {cw : CommandWord} {s t : State} (h : runWord cw s = .next t) : KeepsParameters s t := by
  unfold runWord at h
  split at h
  · exact (CommandRuns.of_exec h).keepsParameters
  · cases h
    exact .of_lines rfl rfl rfl
  · cases h
    exact .of_lines rfl rfl rfl

theorem selectController_keeps (n : Nat) (s : State) :
    (selectController n s).timing = s.timing ∧ (selectController n s).parked.length = s.parked.length ∧
      (selectController n s).lines = s.lines := by
  unfold selectController
  split <;> simp

theorem changeLine_keeps (p : Pin) (f : FarSide) (s : State) :
    (changeLine p f s).timing = s.timing ∧ (changeLine p f s).parked = s.parked := by
  unfold changeLine
  split <;> exact ⟨rfl, rfl⟩

/-- Every input but a change of what is on a line keeps the parameters. -/
theorem runInput_keepsParameters {x : Input} {s t : State} (hx : ∀ p f, x ≠ .environment p f)
    (h : runInput x s = .next t) : KeepsParameters s t := by
  cases x with
  | issue cw => exact runWord_keepsParameters h
  | setGie | ioWrite | hardReset =>
    cases h
    exact .of_lines rfl rfl rfl
  | select n =>
    cases h
    obtain ⟨ht, hp, hl⟩ := selectController_keeps n s
    exact .of_lines ht hp hl
  | environment p f => exact absurd rfl (hx p f)

/-- Settles O55: of all inputs only a change of what is on a line sets a population, and it sets nothing else. -/
theorem parametersStay : Obligations.ParametersStay := by
  intro s t h
  unfold step at h
  split at h
  · cases h
    exact ⟨rfl, rfl, fun _ _ _ _ => rfl⟩
  · rename_i x rest hinbox
    by_cases hx : ∃ p f, x = .environment p f
    · obtain ⟨p, f, rfl⟩ := hx
      cases h
      obtain ⟨ht, hp⟩ := changeLine_keeps p f { s with inbox := rest }
      exact ⟨ht, congrArg List.length hp, fun hno => absurd hinbox (hno p f rest)⟩
    · have hk := runInput_keepsParameters (fun p f hp => hx ⟨p, f, hp⟩) h
      exact ⟨hk.timing, hk.controllers, fun _ => hk.population⟩

/-! ## The waits of each command (R285) -/

/-- What the write slots of a byte wait. -/
def byteMicros (tm : Timing) (v : Byte) : Nat :=
  (Slot.write true).micros tm * (byteBits v).count true + (Slot.write false).micros tm * (8 - (byteBits v).count true)

/-- What the turn of a search at a position waits, when `id` has the bit it wrote. -/
def turnMicros (tm : Timing) (id : RomId) (p : Position) : Nat :=
  2 * (Slot.read false).micros tm + if idBit id p then (Slot.write true).micros tm else (Slot.write false).micros tm

theorem writeSlots_micros (tm : Timing) (bits : List Bool) :
    ((bits.map Slot.write).map (Slot.micros tm)).sum =
      (Slot.write true).micros tm * bits.count true + (Slot.write false).micros tm * bits.count false := by
  induction bits with
  | nil => rfl
  | cons b rest ih =>
    rw [List.map_cons, List.map_cons, List.sum_cons, ih]
    cases b with
    | true =>
      rw [List.count_cons_self, List.count_cons_of_ne (by decide)]
      ring
    | false =>
      rw [List.count_cons_self, List.count_cons_of_ne (by decide)]
      ring

@[simp] theorem byteWriteSlots_micros (tm : Timing) (v : Byte) :
    ((byteWriteSlots v).map (Slot.micros tm)).sum = byteMicros tm v := by
  have hcount : (byteBits v).count false = 8 - (byteBits v).count true := by
    have := List.count_false_add_count_true (byteBits v)
    rw [byteBits_length] at this
    omega
  rw [byteWriteSlots, writeSlots_micros, hcount, byteMicros]

@[simp] theorem readSlots_micros (tm : Timing) (bits : List Bool) :
    ((bits.map Slot.read).map (Slot.micros tm)).sum = bits.length * (Slot.read false).micros tm := by
  simp [Function.comp_def, Slot.micros]

theorem flatMap_micros {α : Type} (tm : Timing) (f : α → List Slot) (xs : List α) :
    ((xs.flatMap f).map (Slot.micros tm)).sum = (xs.map fun x => ((f x).map (Slot.micros tm)).sum).sum := by
  rw [List.map_flatMap, List.flatMap_def, List.sum_flatten, List.map_map]
  rfl

@[simp] theorem idWriteSlots_micros (tm : Timing) (id : RomId) :
    (((idBits id).map Slot.write).map (Slot.micros tm)).sum =
      ((List.finRange 8).map fun i => byteMicros tm id[i]).sum := by
  rw [idWriteSlots_eq, flatMap_micros]
  simp only [byteWriteSlots_micros]

theorem turnSlots_micros (tm : Timing) (ld : Byte) (id : RomId) (x : Turn) :
    ((turnSlots ld id x).map (Slot.micros tm)).sum = 2 * (Slot.read false).micros tm +
      if chosenBit ld x.1 x.2.1 x.2.2 (idBit id x.1) then (Slot.write true).micros tm
      else (Slot.write false).micros tm := by
  rw [turnSlots]
  cases chosenBit ld x.1 x.2.1 x.2.2 (idBit id x.1) with
  | true =>
    simp [Slot.micros]
    ring
  | false =>
    simp [Slot.micros]
    ring

/-- What the turns of a search wait, by the bits they leave in `ROM_ID`. -/
theorem AfterTurns.micros {ps : List Position} {s t : State} {turns : List Turn} (h : AfterTurns ps s t turns)
    (tm : Timing) :
    ((turns.flatMap (turnSlots s.ctl.lastDev s.ctl.romId)).map (Slot.micros tm)).sum =
      ((ps.take turns.length).map (turnMicros tm t.ctl.romId)).sum := by
  rw [← h.positions, List.map_map, flatMap_micros]
  congr 1
  refine List.map_congr_left fun x hx => ?_
  rw [turnSlots_micros, Function.comp_apply, turnMicros, h.found x hx]

theorem drop_of_trace_append {s t : State} {new : List Event} (h : t.ctl.trace = s.ctl.trace ++ new) :
    t.ctl.trace.drop s.ctl.trace.length = new := by
  rw [h, List.drop_left]

/-- What a bus command waits is what its slots wait. -/
theorem RanSlots.waits {sls : List Slot} {s t : State} (h : RanSlots sls s t) :
    waitTotal (t.ctl.trace.drop s.ctl.trace.length) = (sls.map (Slot.micros s.timing)).sum := by
  rw [drop_of_trace_append h.trace, waitTotal_segments]

theorem RanSlots.slotCount {sls : List Slot} {s t : State} (h : RanSlots sls s t) :
    slotCount (t.ctl.trace.drop s.ctl.trace.length) = sls.length := by
  rw [drop_of_trace_append h.trace, slotCount_segments]

theorem RegisterRuns.waits {i : Instr} {s t : State} (h : RegisterRuns i s t) :
    waitTotal (t.ctl.trace.drop s.ctl.trace.length) = 0 := by
  rw [drop_of_trace_append (new := []) (by rw [h.trace, List.append_nil])]
  rfl

/-- `CONFIG` waits only for the line to settle (R145). -/
theorem config_waits {ddr port pin : Ref} {idx : PinIndex} {s t : State}
    (h : exec (.config ddr port pin idx) s = .next t) :
    waitTotal (t.ctl.trace.drop s.ctl.trace.length) = s.timing.tSettle := by
  cases h
  obtain ⟨hctl, -⟩ := config_spec ddr port pin idx s
  rw [drop_of_trace_append (congrArg Controller.trace hctl)]
  simp [waitTotal]

/-- What a bus command of a configured controller waits, from the slots of its body. -/
theorem busCommand_waits {i : Instr} {body : State → Byte × State} {s t : State} {sls : List Slot}
    (hc : s.ctl.configured = true) (h : Slots sls (accept i s) (body (accept i s)).2) (hne : sls ≠ [])
    (ht : Host.Outcome.next (φ := Fault) (ρ := Refusal) (busCommand i body s) = .next t) :
    waitTotal (t.ctl.trace.drop s.ctl.trace.length) = (sls.map (Slot.micros s.timing)).sum := by
  cases ht
  exact (busCommand_spec hc h hne).1.waits

theorem recvb_waits {s t : State} (hc : s.ctl.configured = true) (h : exec .recvb s = .next t) :
    waitTotal (t.ctl.trace.drop s.ctl.trace.length) = 8 * (Slot.read false).micros s.timing := by
  rw [busCommand_waits hc (Slots.receiveByte _) (byteReadSlots_ne _) h, byteReadSlots, readSlots_micros, byteBits_length]

theorem rdrom_waits {s t : State} (hc : s.ctl.configured = true) (h : exec .rdrom s = .next t) :
    waitTotal (t.ctl.trace.drop s.ctl.trace.length) =
      byteMicros s.timing Config.readRomByte + 64 * (Slot.read false).micros s.timing := by
  rw [busCommand_waits hc (readRomBody_spec _).1 (byteWriteSlots_append_ne _ _) h, List.map_append, List.sum_append,
    byteWriteSlots_micros, readSlots_micros, idBits_length]

theorem matchrom_waits {s t : State} (hc : s.ctl.configured = true) (h : exec .matchrom s = .next t) :
    waitTotal (t.ctl.trace.drop s.ctl.trace.length) = byteMicros s.timing Config.matchRomByte +
      ((List.finRange 8).map fun i => byteMicros s.timing s.ctl.romId[i]).sum := by
  rw [busCommand_waits hc (matchRomBody_spec _).1 (byteWriteSlots_append_ne _ _) h, List.map_append, List.sum_append,
    byteWriteSlots_micros, idWriteSlots_micros]
  rfl

theorem responseWord_value (st : Status) (v : Byte) : (responseWord st v).setWidth 8 = v :=
  BitVec.setWidth_append_eq_right

/-- A pass of `SRCHROM` takes a turn at each position in order; it takes all 64 and answers a deviation 0..64, or it
aborts after fewer, with two reads at the next position, and answers `DEV_NODEVICE` (R200, R202, R203). -/
theorem srchrom_runs {s t : State} (hc : s.ctl.configured = true) (h : exec .srchrom s = .next t) :
    ∃ turns, AfterTurns (List.finRange 64) s t turns ∧
      (turns.length = 64 ∧
          RanSlots (byteWriteSlots Config.searchRomByte ++ turns.flatMap (turnSlots s.ctl.lastDev s.ctl.romId)) s t ∧
          (∃ dev, t.rw = some (responseWord .done dev) ∧ dev ≤ Config.devMax) ∨
        turns.length < 64 ∧
          RanSlots (byteWriteSlots Config.searchRomByte ++ turns.flatMap (turnSlots s.ctl.lastDev s.ctl.romId) ++
            [.read true, .read true]) s t ∧
          t.rw = some (responseWord .done Config.devNoDevice)) := by
  cases h
  obtain ⟨turns, ⟨hpos, hsome, hfound, hkept⟩, hend⟩ := searchBody_spec (accept .srchrom s)
  have hne (x : List Slot) := byteWriteSlots_append_ne Config.searchRomByte x
  rcases hend with ⟨hlen, hsls, hdev, -⟩ | ⟨hlen, hsls, hdev, -⟩
  · obtain ⟨hran, hrw, hid, -⟩ := busCommand_spec hc hsls (hne _)
    rw [← hid] at hfound hkept
    exact ⟨turns, ⟨hpos, hsome, hfound, hkept⟩, .inl ⟨hlen, hran, _, hrw, hdev ▸ recordedDev_le _ _ _ _ (by decide)⟩⟩
  · obtain ⟨hran, hrw, hid, -⟩ := busCommand_spec hc hsls (List.append_assoc _ _ _ ▸ hne _)
    rw [← hid] at hfound hkept
    exact ⟨turns, ⟨hpos, hsome, hfound, hkept⟩, .inr ⟨hlen, hran, hdev ▸ hrw⟩⟩

theorem readPair_micros (tm : Timing) :
    (([Slot.read true, Slot.read true]).map (Slot.micros tm)).sum = 2 * (Slot.read false).micros tm :=
  readSlots_micros tm [true, true]

/-- What a full pass of `SRCHROM` waits, and what a pass that aborts does after `p.val` turns. -/
theorem srchrom_waits {s t : State} (hc : s.ctl.configured = true) (h : exec .srchrom s = .next t) :
    (t.rw ≠ some 0x00FF#16 → waitTotal (t.ctl.trace.drop s.ctl.trace.length) =
        byteMicros s.timing Config.searchRomByte +
          (((List.finRange 64).take 64).map (turnMicros s.timing t.ctl.romId)).sum) ∧
      (t.rw = some 0x00FF#16 → ∃ p : Position,
        waitTotal (t.ctl.trace.drop s.ctl.trace.length) =
          byteMicros s.timing Config.searchRomByte + 2 * (Slot.read false).micros s.timing +
            (((List.finRange 64).take p.val).map (turnMicros s.timing t.ctl.romId)).sum ∧
          slotCount (t.ctl.trace.drop s.ctl.trace.length) = 8 + 3 * p.val + 2) := by
  obtain ⟨turns, ha, ⟨hlen, hran, dev, hrw, hdev⟩ | ⟨hlen, hran, hrw⟩⟩ := srchrom_runs hc h
  · constructor
    · intro _
      rw [hran.waits, List.map_append, List.sum_append, byteWriteSlots_micros, ha.micros, hlen]
    · intro hno
      have hword : responseWord .done dev = 0x00FF#16 := Option.some.inj (hrw.symm.trans hno)
      have hff : dev = 0xFF#8 := by rw [← responseWord_value .done dev, hword]; rfl
      rw [hff] at hdev
      exact absurd hdev (by decide)
  · constructor
    · intro hno
      exact absurd hrw hno
    · intro _
      refine ⟨⟨turns.length, hlen⟩, ?_, ?_⟩
      · rw [hran.waits, List.map_append, List.map_append, List.sum_append, List.sum_append, byteWriteSlots_micros,
          ha.micros, readPair_micros]
        ring
      · rw [hran.slotCount, List.length_append, List.length_append, byteWriteSlots_length, turnSlots_length]
        rfl

/-- Settles O48: a bus command waits what its slots wait, and the slots of each command are known. -/
theorem commandDurations : Obligations.CommandDurations := by
  refine ⟨⟨rfl, rfl, fun _ => rfl, fun _ => rfl, rfl, rfl⟩, fun s hc => ?_⟩
  intro spends w1 w0 rd byte
  refine ⟨fun _ _ _ _ t h => config_waits h, fun t h => ?wbit1, fun t h => ?wbit0, fun t h => ?rbit, fun t h => ?pres,
    fun v t h => ?sendb, fun t h => recvb_waits hc h, fun t h => rdrom_waits hc h, fun t h => matchrom_waits hc h,
    fun t h => srchrom_waits hc h, fun reg t h => ?rdreg, fun reg val t h => ?wrreg⟩
  case wbit1 => exact busCommand_waits hc (wbit_slots true _) (by simp) h
  case wbit0 => exact busCommand_waits hc (wbit_slots false _) (by simp) h
  case rbit => exact busCommand_waits hc (rbit_slots _) (by simp) h
  case pres => exact busCommand_waits hc (pres_slots _) (by simp) h
  case sendb =>
    exact (busCommand_waits hc (sendb_slots v _) (byteWriteSlots_ne v) h).trans (byteWriteSlots_micros s.timing v)
  case rdreg =>
    obtain ⟨_, h', hruns⟩ := rdreg_runs reg s
    cases h'.symm.trans h
    exact hruns.waits
  case wrreg =>
    obtain ⟨_, h', hruns⟩ := wrreg_runs reg val s
    cases h'.symm.trans h
    exact hruns.waits

end Sys2Proof.Machine
end

section
/-! PROOFS. The statements on the state (10_state.md): a step as its next input, the host's moves and the hardware reset,
the register file, and the invariant of rule R41. -/

namespace Sys2Proof.Machine

/-! ## A step is its next input (R36, R110) -/

theorem step_of_inbox {s : State} {x : Input} {rest : List Input} (h : s.inbox = x :: rest) :
    step s = runInput x { s with inbox := rest } := by
  simp [step, h]

/-- A step waits, or takes the first input. -/
theorem step_cases {s t : State} (h : step s = .next t) :
    t = s ∨ ∃ x rest, s.inbox = x :: rest ∧ runInput x { s with inbox := rest } = .next t := by
  cases hin : s.inbox with
  | nil => exact .inl (by simpa [step, hin, eq_comm] using h)
  | cons x rest => exact .inr ⟨x, rest, rfl, step_of_inbox hin ▸ h⟩

theorem runWord_command {cw : CommandWord} {i : Instr} (h : decode cw = .command i) (s : State) :
    runWord cw s = exec i s := by
  simp [runWord, h]

/-- A word runs the command it decodes to, or is refused (R115, R116). -/
theorem runWord_cases {cw : CommandWord} {s t : State} (h : runWord cw s = .next t) :
    (∃ i, exec i s = .next t) ∨ ∃ st, t = refuse st s := by
  unfold runWord at h
  split at h
  · exact .inl ⟨_, h⟩
  · cases h
    exact .inr ⟨_, rfl⟩
  · cases h
    exact .inr ⟨_, rfl⟩

/-- Settles O5: the step takes the word from the inbox, and the word runs its command. -/
theorem stepRunsTheDecodedCommand : Obligations.StepRunsTheDecodedCommand := by
  intro s cw rest i hin hdec
  rw [step_of_inbox hin]
  exact runWord_command hdec _

/-! ## The host's moves and the hardware reset (R33, R45, R253, R278) -/

/-- A free value of `LASTDEV` is legal (R45). -/
theorem resetController_lastDev (n : Nat) (c : Controller) : (resetController n c).lastDev ≤ Config.devMax := by
  have hlt : (Config.resetLastDev n).val < 65 := (Config.resetLastDev n).isLt
  have hmod : (Config.resetLastDev n).val % 256 ≤ 64 := by omega
  simpa [resetController, BitVec.le_def, Config.devMax] using hmod

/-- Settles O9: `hardReset` replaces the controller in use and counts a free draw. -/
theorem hardResetTouchesOnlyTheBlock : Obligations.HardResetTouchesOnlyTheBlock := by
  intro s rest hin
  exact ⟨_, step_of_inbox hin, rfl, rfl, rfl, rfl, resetController_lastDev s.draws s.ctl, rfl, rfl, rfl, rfl, rfl, rfl,
    rfl, rfl⟩

theorem selectController_absent {n : Nat} {s : State} (h : s.parked[n]? = none) : selectController n s = s := by
  simp [selectController, h]

theorem selectController_present {n : Nat} {s : State} {c : Controller} (h : s.parked[n]? = some c) :
    selectController n s = { s with ctl := c, parked := s.parked.set n s.ctl } := by
  simp [selectController, h]

theorem selectController_eq (n : Nat) (s : State) : selectController n s =
    { s with ctl := (selectController n s).ctl, parked := (selectController n s).parked } := by
  unfold selectController
  split <;> rfl

/-- Turning to another controller exchanges two of them (R253). -/
theorem selectController_perm (n : Nat) (s : State) :
    ((selectController n s).ctl :: (selectController n s).parked).Perm (s.ctl :: s.parked) := by
  cases h : s.parked[n]? with
  | none => rw [selectController_absent h]
  | some c =>
    rw [selectController_present h]
    simpa [h] using List.getD_set_perm_cons s.parked n s.ctl

/-- Settles O53: `hostWrite_read` says what a register write does bit by bit, `selectController_perm` that turning to a
controller permutes them. -/
theorem hostMovesDoWhatTheySay : Obligations.HostMovesDoWhatTheySay := by
  intro s rest
  refine ⟨fun on hin => step_of_inbox hin, fun w hin => ?ioWrite, fun n hin => ?select⟩
  case ioWrite => exact ⟨_, step_of_inbox hin, rfl, hostWrite_read { s with inbox := rest } w⟩
  case select =>
    refine ⟨_, step_of_inbox hin, selectController_eq n { s with inbox := rest },
      selectController_perm n { s with inbox := rest }, fun c hc => ?_, fun hc => ?_⟩
    · obtain ⟨hn, -⟩ := List.getElem?_eq_some_iff.mp hc
      rw [selectController_present (s := { s with inbox := rest }) hc]
      exact ⟨rfl, by simp [hn]⟩
    · rw [selectController_absent (s := { s with inbox := rest }) hc]
      exact ⟨rfl, rfl⟩

/-! ## The register file (R40) -/

theorem responseWord_done (v : Byte) : responseWord .done v = 0x00#8 ++ v := rfl

theorem regOfNumber_romId : ∀ i : Fin 8, Reg.ofNumber (BitVec.ofNat 4 i.val) = .romId i := by decide

theorem regOfNumber_readOnly : ∀ reg : BitVec 4, 9 ≤ reg.toNat → reg.toNat ≤ 14 →
    Reg.ofNumber reg ∈ [.ddrRef, .portRef, .pinRef, .pinIdx, .mask, .status] := by decide

/-- The sequencer is no register (R40). -/
theorem readReg_seq (r : Reg) (c : Controller) (q : Sequencer) : readReg r { c with seq := q } = readReg r c := by
  cases r with
  | romId | lastDev | ddrRef | portRef | pinRef | pinIdx | mask | status | reserved => rfl

/-- `RDREG` of a register that is not reserved answers what it reads as (R221). -/
theorem exec_rdreg {reg : BitVec 4} {r : Reg} (hr : Reg.ofNumber reg = r) (h : r ≠ .reserved) (s : State) :
    exec (.rdreg reg) s = .next { s with
      rw := some (0x00#8 ++ readReg r s.ctl)
      ctl := { s.ctl with seq := Sequencer.idle } } := by
  subst hr
  have hexec : execRdreg reg s =
      .next (complete (.rdreg reg) (fun s => (readReg (Reg.ofNumber reg) s.ctl, s)) s) := by
    rw [execRdreg, if_neg h]
  refine hexec.trans ?_
  rw [complete, accept_ctl, readReg_seq, ← responseWord_done]
  rfl

theorem readReg_pinIdx (c : Controller) : readReg .pinIdx c = 0#5 ++ c.pinIdx :=
  BitVec.setWidth_eq_append (by decide)

theorem readReg_status (c : Controller) :
    0x00#8 ++ readReg .status c = if c.configured then 0x0001#16 else 0x0000#16 := by
  cases h : c.configured <;> simp [readReg, h]

/-- Settles O16: every number names its register, and `exec_rdreg` reads it. -/
theorem rdregReturnsTheRegister : Obligations.RdregReturnsTheRegister := by
  intro s
  refine ⟨fun i => exec_rdreg (regOfNumber_romId i) nofun s, exec_rdreg (r := .lastDev) rfl nofun s,
    exec_rdreg (r := .ddrRef) rfl nofun s, exec_rdreg (r := .portRef) rfl nofun s, exec_rdreg (r := .pinRef) rfl nofun s,
    ?pinIdx, exec_rdreg (r := .mask) rfl nofun s, ?status, rfl⟩
  case pinIdx =>
    rw [exec_rdreg (r := .pinIdx) rfl nofun, readReg_pinIdx]
  case status =>
    rw [exec_rdreg (r := .status) rfl nofun, readReg_status]

/-- `WRREG` of a read-only register is refused (R223). -/
theorem exec_wrreg_readOnly {reg : BitVec 4} (h9 : 9 ≤ reg.toNat) (h14 : reg.toNat ≤ 14) (val : Byte) (s : State) :
    exec (.wrreg reg val) s = .next (refuse .readOnly s) := by
  have hr := regOfNumber_readOnly reg h9 h14
  simp only [List.mem_cons, List.not_mem_nil, or_false] at hr
  obtain hr | hr | hr | hr | hr | hr := hr <;> simp [exec, execWrreg, hr]

/-- `WRREG` of `ROM_ID` stores (R223). -/
theorem exec_wrreg_romId (i : Fin 8) (val : Byte) (s : State) : exec (.wrreg (BitVec.ofNat 4 i.val) val) s =
    .next (complete (.wrreg (BitVec.ofNat 4 i.val) val) (fun s => noResult (setRomByte i val s)) s) := by
  simp only [exec, execWrreg, regOfNumber_romId]

/-- `WRREG` of `LASTDEV` stores a value up to 0x40 (R223). -/
theorem exec_wrreg_lastDev (val : Byte) (s : State) : exec (.wrreg 0x8#4 val) s =
    .next (if val > Config.devMax then refuse .badValue s
      else complete (.wrreg 0x8#4 val) (fun s => noResult (setLastDev val s)) s) := rfl

/-- A command with no result answers 0x00 (R118). -/
theorem complete_noResult (i : Instr) (f : State → State) (s : State) :
    complete i (fun s => noResult (f s)) s = respond .done 0x00#8 (f (accept i s)) := rfl

theorem gt_devMax_iff (val : Byte) : val > Config.devMax ↔ 64 < val.toNat := Iff.rfl

/-- Settles O17: every number names its register; a value of `LASTDEV` is legal up to 0x40. -/
theorem wrregStoresOrRefuses : Obligations.WrregStoresOrRefuses := by
  intro s val
  refine ⟨fun i => ?romId, fun h => ?legal, fun h => ?tooBig, fun reg h9 h14 => exec_wrreg_readOnly h9 h14 val s, rfl⟩
  case romId =>
    rw [exec_wrreg_romId, complete_noResult]
    rfl
  case legal =>
    rw [exec_wrreg_lastDev, if_neg (mt (gt_devMax_iff val).mp (Nat.not_lt.mpr h)), complete_noResult]
    rfl
  case tooBig =>
    rw [exec_wrreg_lastDev, if_pos ((gt_devMax_iff val).mpr h)]
    rfl

/-! ## CONFIG (R145) -/

/-- Settles O14: `CONFIG` clears the bound bits, and with no handler running nothing else is written. -/
theorem configChangesOnlyTheBoundBits : Obligations.ConfigChangesOnlyTheBoundBits := by
  intro ddr port pin idx s t hq h
  cases h
  obtain ⟨-, -, -, -, u, hu, -, hstep, hreleased⟩ := config_spec ddr port pin idx s
  rw [hu]
  exact hstep.io_quiet hq hreleased

/-! ## What a command keeps (R41) -/

/-- What a command promises the invariant: nothing of the host's and of the other controllers' state moves but bits that
were free, the controller in use is idle and lets go of its line, and `CONFIGURED` stays 1. -/
structure CommandKeeps (s t : State) : Prop where
  parked : t.parked = s.parked
  timing : t.timing = s.timing
  io : s.io.wf → t.io.wf
  lines : LinesWf s.lines → LinesWf t.lines
  configured : s.ctl.configured = true → t.ctl.configured = true
  idle : t.ctl.seq = Sequencer.idle
  notPulling : s.ctl.pulling = false → t.ctl.pulling = false
  released : (s.ctl.configured = true → s.ctl.released s.io) → t.ctl.configured = true → t.ctl.released t.io
  others : ∀ c ∈ s.parked, c.configured = true → c.released s.io → c.released t.io

/-- A command that touches no line, no I/O register and no binding. -/
theorem CommandKeeps.of_registers {s t : State} (h : t = { s with ctl := t.ctl, rw := t.rw })
    (hb : SameBinding s.ctl t.ctl) (hi : t.ctl.seq = Sequencer.idle) (hp : t.ctl.pulling = s.ctl.pulling) :
    CommandKeeps s t := by
  have hio : t.io = s.io := by rw [h]
  have hlines : t.lines = s.lines := by rw [h]
  refine ⟨by rw [h], by rw [h], hio ▸ id, hlines ▸ id, hb.configured.trans, hi, hp.trans, fun hrel hc => ?_,
    fun c _ _ hrel => hio ▸ hrel⟩
  rw [hio]
  exact (Controller.released_congr hb s.io).mpr (hrel (hb.configured ▸ hc))

theorem CommandKeeps.refuse (st : Status) (s : State) : CommandKeeps s (refuse st s) :=
  .of_registers rfl ⟨rfl, rfl, rfl, rfl, rfl⟩ rfl rfl

/-- A released pin of another configured controller stays released (R241, R253). -/
theorem IoStep.keeps_others {s t : State} (h : IoStep s t) :
    ∀ c ∈ s.parked, c.configured = true → c.released s.io → c.released t.io :=
  fun _ hc hconf => h.keeps_released (List.mem_cons_of_mem _ hc) (by simp [Controller.bound, hconf])

theorem CommandRuns.keeps {i : Instr} {s t : State} (h : CommandRuns i s t) : CommandKeeps s t := by
  cases h with
  | refused => exact .refuse _ s
  | slots hne h =>
    have hran := ranSlots_of_slots .done 0x00#8 h hne
    exact ⟨h.parked, h.timing, h.wf, h.linesWf, hran.binding.configured.trans, rfl, fun _ => hran.notPulling,
      fun _ _ => hran.released, h.keeps_others⟩
  | @config ddr port pin idx hi =>
    subst hi
    obtain ⟨hctl, -, -, hlines, u, hu, -, hstep, hreleased⟩ := config_spec ddr port pin idx s
    rw [hu] at hlines ⊢
    rw [hctl]
    exact ⟨hstep.parked, hstep.timing, hstep.wf, hlines ▸ id, fun _ => rfl, rfl, fun _ => rfl, fun _ _ => hreleased,
      hstep.keeps_others⟩
  | registers h =>
    obtain ⟨id, dev, hbody⟩ := h (accept i s)
    rw [complete, hbody]
    exact .of_registers rfl ⟨rfl, rfl, rfl, rfl, rfl⟩ rfl rfl

/-- No command leaves `LASTDEV` above 64 (R24, R41). -/
theorem exec_keeps_lastDev {i : Instr} {s t : State} (h : exec i s = .next t) (hs : s.ctl.lastDev ≤ Config.devMax) :
    t.ctl.lastDev ≤ Config.devMax := by
  by_cases hi : i.isBusCommand = true
  · obtain ⟨body, hexec, hbody⟩ := exec_bus i hi
    cases (hexec s).symm.trans h
    unfold busCommand
    split
    · exact (hbody (accept i s)).1 hs
    · exact hs
  · cases i with
    | wbit | rbit | pres | sendb | recvb | rdrom | matchrom | srchrom => exact absurd rfl hi
    | config ddr port pin idx =>
      cases h
      rw [(config_spec ddr port pin idx s).1]
      exact (by decide : Config.devNone ≤ Config.devMax)
    | rdreg reg =>
      cases h
      split <;> exact hs
    | wrreg reg val =>
      cases h
      cases Reg.ofNumber reg with
      | reserved | ddrRef | portRef | pinRef | pinIdx | mask | status | romId => exact hs
      | lastDev =>
        dsimp only
        split
        · exact hs
        · rename_i hval
          exact BitVec.not_lt.mp hval

theorem runWord_keeps {cw : CommandWord} {s t : State} (h : runWord cw s = .next t) : CommandKeeps s t := by
  rcases runWord_cases h with ⟨i, hi⟩ | ⟨st, rfl⟩
  · exact (CommandRuns.of_exec hi).keeps
  · exact .refuse st s

theorem runWord_keeps_lastDev {cw : CommandWord} {s t : State} (h : runWord cw s = .next t)
    (hs : s.ctl.lastDev ≤ Config.devMax) : t.ctl.lastDev ≤ Config.devMax := by
  rcases runWord_cases h with ⟨i, hi⟩ | ⟨st, rfl⟩
  · exact exec_keeps_lastDev hi hs
  · exact hs

theorem changeLine_ctl (p : Pin) (f : FarSide) (s : State) : (changeLine p f s).ctl = s.ctl := by
  unfold changeLine
  split <;> rfl

/-- Settles O12: a command keeps `CONFIGURED` by `runWord_keeps`, and the host's other moves leave the controllers as
they are, but for the two that the statement excludes. -/
theorem configuredStaysUntilReset : Obligations.ConfiguredStaysUntilReset := by
  intro s t h hreset hselect
  rcases step_cases h with rfl | ⟨x, rest, hin, hx⟩
  · exact ⟨id, rfl⟩
  · cases x with
    | issue cw =>
      have hk := runWord_keeps hx
      exact ⟨hk.configured, hk.parked⟩
    | setGie | ioWrite =>
      cases hx
      exact ⟨id, rfl⟩
    | environment p f =>
      cases hx
      rw [changeLine_ctl]
      exact ⟨id, (changeLine_keeps p f _).2⟩
    | select n => exact absurd hin (hselect n rest)
    | hardReset => exact absurd hin (hreset rest)

/-! ## The invariant (R41) -/

/-- Settles O10, by evaluation of `State.reset`. -/
theorem invariantHoldsAtReset : Obligations.InvariantHoldsAtReset where
  io := Memory.wf_nil
  lines := LinesWf.nil
  timing := by decide
  controllers := by
    intro c hc
    obtain rfl : c = Controller.reset := List.mem_singleton.mp hc
    exact ⟨by decide, rfl, rfl, nofun⟩

/-- A command keeps the invariant. -/
theorem Inv.of_command {s t : State} (h : Inv s) (hk : CommandKeeps s t) (hdev : t.ctl.lastDev ≤ Config.devMax) :
    Inv t where
  io := hk.io h.io
  lines := hk.lines h.lines
  timing := hk.timing ▸ h.timing
  controllers := by
    rw [hk.parked]
    intro c hc
    rcases List.mem_cons.mp hc with rfl | hc
    · have hgood := h.controllers s.ctl List.mem_cons_self
      exact ⟨hdev, hk.idle, hk.notPulling hgood.notPulling, hk.released hgood.released⟩
    · have hgood := h.controllers c (List.mem_cons_of_mem _ hc)
      exact { hgood with released := fun hconf => hk.others c hc hconf (hgood.released hconf) }

/-- A host write leaves every released pin released: it does what a handler would that had this one write to make (R241,
R278). -/
theorem hostWrite_keeps_released {s : State} {c : Controller} (hc : c ∈ s.ctl :: s.parked) (hb : c.bound = true)
    (hr : c.released s.io) (w : IoWrite) : c.released (hostWrite w s).io :=
  (IoStep.window { s with gie := true, handlers := [[w]] }).keeps_released hc hb hr

theorem Inv.hostWrite {s : State} (h : Inv s) (w : IoWrite) : Inv (hostWrite w s) where
  io := hostWrite_wf s w h.io
  lines := h.lines
  timing := h.timing
  controllers := by
    intro c hc
    have hgood := h.controllers c hc
    have hrel : c.configured = true → c.released (Machine.hostWrite w s).io := fun hconf =>
      hostWrite_keeps_released (s := s) hc (by simp [Controller.bound, hconf]) (hgood.released hconf) w
    exact { hgood with released := hrel }

theorem Inv.selectController {s : State} (h : Inv s) (n : Nat) : Inv (selectController n s) := by
  have hperm := selectController_perm n s
  rw [selectController_eq]
  exact ⟨h.io, h.lines, h.timing, fun c hc => h.controllers c (hperm.mem_iff.mp hc)⟩

/-- What is put on a line has distinct devices (R90). -/
theorem FarSide.attach_nodup {f : FarSide} (hf : f.legal = true) (old : Environment) :
    (f.attach old).population.Nodup := by
  cases f with
  | answers | stuck => exact List.nodup_nil
  | population ids =>
    simpa [FarSide.attach, FarSide.legal, Environment.population, Function.comp_def] using hf

theorem Inv.changeLine {s : State} (h : Inv s) (p : Pin) (f : FarSide) : Inv (changeLine p f s) := by
  unfold Machine.changeLine
  split
  · rename_i hpf
    obtain ⟨hp, hf⟩ := (Bool.and_eq_true _ _).mp hpf
    exact { h with lines := h.lines.put hp (FarSide.attach_nodup hf _) }
  · exact h

/-- A controller after its reset is not configured, so nothing is asked of its pin (R45). -/
theorem Inv.hardReset {s : State} (h : Inv s) : Inv (hardReset s) where
  io := h.io
  lines := h.lines
  timing := h.timing
  controllers := by
    intro c hc
    rcases List.mem_cons.mp hc with rfl | hc
    · exact ⟨resetController_lastDev _ _, rfl, rfl, nofun⟩
    · exact h.controllers c (List.mem_cons_of_mem _ hc)

theorem runInput_keepsInv {x : Input} {s t : State} (hs : Inv s) (h : runInput x s = .next t) : Inv t := by
  cases x with
  | issue cw =>
    exact hs.of_command (runWord_keeps h)
      (runWord_keeps_lastDev h (hs.controllers s.ctl List.mem_cons_self).lastDev)
  | setGie on =>
    cases h
    exact ⟨hs.io, hs.lines, hs.timing, hs.controllers⟩
  | ioWrite w =>
    cases h
    exact hs.hostWrite w
  | select n =>
    cases h
    exact hs.selectController n
  | environment p f =>
    cases h
    exact hs.changeLine p f
  | hardReset =>
    cases h
    exact hs.hardReset

/-- Settles O11: every input keeps the invariant, a command by `CommandKeeps`. -/
theorem stepKeepsTheInvariant : Obligations.StepKeepsTheInvariant := by
  intro s t hs h
  rcases step_cases h with rfl | ⟨x, rest, -, hx⟩
  · exact hs
  · have htaken : Inv { s with inbox := rest } := ⟨hs.io, hs.lines, hs.timing, hs.controllers⟩
    exact runInput_keepsInv htaken hx

end Sys2Proof.Machine
end

section
/-! PROOFS. The statements on the memory and the line (20_memory.md): the I/O space and its bit helpers (rules R60 to R64),
what stands on the pins (R85, R86), the reference environment (R90 to R99), the order in which an identifier travels (R70
to R72) and the masked sections of the trace (R80). -/

namespace Sys2Proof.Machine

/-! ## The I/O space (R60 to R64) -/

/-- Settles O49: `Memory.read_write`, and `Memory.wf_ext` for the canonical form. -/
theorem ioReadAfterWrite : Obligations.IoReadAfterWrite :=
  ⟨Memory.read_write, fun _ _ => Memory.wf_ext⟩

theorem ref_bit_ne {q r : Ref} {j k : PinIndex} (h : q ≠ r ∨ j ≠ k) : ¬ (q.toNat = r.toNat ∧ j.toNat = k.toNat) := by
  rw [BitVec.toNat_inj, BitVec.toNat_inj]
  tauto

/-- Settles O50: `ioSetBit_read` and `ioClrBit_read` give every bit of the I/O space after the helpers. -/
theorem bitHelpersChangeOneBit : Obligations.BitHelpersChangeOneBit := by
  intro r k s
  refine ⟨?set, ?clear, fun q j h => ⟨?otherSet, ?otherClear⟩⟩
  case set => exact (ioSetBit_read s r k _ _).trans (if_pos ⟨rfl, rfl⟩)
  case clear => exact (ioClrBit_read s r k _ _).trans (if_pos ⟨rfl, rfl⟩)
  case otherSet => exact (ioSetBit_read s r k _ _).trans (if_neg (ref_bit_ne h))
  case otherClear => exact (ioClrBit_read s r k _ _).trans (if_neg (ref_bit_ne h))

/-! ## What is put on a pin (R85, R86, R90) -/

/-- A change from outside moves nothing but the lines. -/
theorem changeLine_eq (p : Pin) (f : FarSide) (s : State) :
    changeLine p f s = { s with lines := (changeLine p f s).lines } := by
  unfold changeLine
  split <;> rfl

/-- A change that is none: references that are no pin's, or an identifier twice (R90, R146). -/
theorem changeLine_illegal {p : Pin} {f : FarSide} (h : p.proper = false ∨ f.legal = false) (s : State) :
    changeLine p f s = s := by
  rw [changeLine, if_neg]
  rcases h with h | h <;> simp [h]

theorem changeLine_linesAt {p : Pin} {f : FarSide} (hp : p.proper = true) (hf : f.legal = true) (s : State) :
    linesAt p (changeLine p f s).lines = f.attach (linesAt p s.lines) := by
  simp [changeLine, hp, hf]

theorem changeLine_linesAt_other {p q : Pin} (h : q ≠ p) (f : FarSide) (s : State) :
    linesAt q (changeLine p f s).lines = linesAt q s.lines := by
  unfold changeLine
  split
  · simp [h]
  · rfl

/-- A device that stands on a line keeps its state when a population is put there. -/
theorem stateOf_mem {old : List Device} (h : (old.map Device.rom).Nodup) {e : Device} (he : e ∈ old) :
    (Environment.bus old).stateOf e.rom = e.st := by
  have hfind : old.find? (·.rom = e.rom) = some e := by
    induction old with
    | nil => simp at he
    | cons d rest ih =>
      obtain ⟨hd, hrest⟩ := List.nodup_cons.mp h
      rcases List.mem_cons.mp he with rfl | he
      · simp
      · have hne : d.rom ≠ e.rom := fun heq => hd (heq ▸ List.mem_map_of_mem he)
        simpa [hne] using ih hrest he
  simp only [Environment.stateOf, hfind]

/-- A device that does not stand on a line begins in `Idle` there (R90). -/
theorem stateOf_new {id : RomId} {old : Environment} (h : id ∉ old.population) : old.stateOf id = .idle := by
  cases old with
  | answers | stuck => rfl
  | bus devs =>
    have hfind : devs.find? (·.rom = id) = none := by
      rw [List.find?_eq_none]
      intro d hd hid
      exact h (List.mem_map.mpr ⟨d, hd, by simpa using hid⟩)
    simp only [Environment.stateOf, hfind]

/-- Settles O54: the input is `changeLine`, and `FarSide.attach` says what it puts on the pin. -/
theorem linesAreSetFromOutside : Obligations.LinesAreSetFromOutside := by
  intro s rest p f hin
  refine ⟨_, step_of_inbox hin, changeLine_eq p f { s with inbox := rest },
    fun q hq => changeLine_linesAt_other hq f _, ?answers, ?stuck, ?population, ?illegal⟩
  case answers =>
    rintro hp levels rfl
    exact changeLine_linesAt hp rfl _
  case stuck =>
    rintro hp v rfl
    exact changeLine_linesAt hp rfl _
  case population =>
    rintro hp ids rfl hids
    refine ⟨_, changeLine_linesAt hp (by simpa [FarSide.legal] using hids) _, by simp [Function.comp_def], ?_, ?_⟩
    · intro old hold hnodup d hd e he hrom
      obtain ⟨id, -, rfl⟩ := List.mem_map.mp hd
      subst hrom
      exact congrArg (Device.mk e.rom) (hold ▸ stateOf_mem hnodup he)
    · intro d hd hnew
      obtain ⟨id, -, rfl⟩ := List.mem_map.mp hd
      exact stateOf_new hnew
  case illegal =>
    rintro (hp | ⟨ids, rfl, hids⟩)
    · rw [changeLine_illegal (.inl hp)]
    · rw [changeLine_illegal (.inr (by simpa [FarSide.legal] using hids))]

/-! ## The bus commands of a configured controller, by their slots -/

/-- A bus command of a configured controller runs at least one slot and answers `DONE`. -/
theorem exec_bus_slots {i : Instr} {s t : State} (hi : i.isBusCommand = true) (hc : s.ctl.configured = true)
    (h : exec i s = .next t) :
    ∃ sls v u, sls ≠ [] ∧ Slots sls (accept i s) u ∧ t = respond .done v u := by
  obtain ⟨body, hexec, hbody⟩ := exec_bus i hi
  obtain ⟨-, sls, hne, -, hsls⟩ := hbody (accept i s)
  cases (hexec s).symm.trans h
  exact ⟨sls, _, _, hne, hsls, if_pos hc⟩

theorem responseWord_bitResult (v : Bool) :
    responseWord .done (bitResult v) = if v then 0x0001#16 else 0x0000#16 := by cases v <;> rfl

theorem responseWord_presenceResult (v : Bool) :
    responseWord .done (presenceResult v) = if v then 0x0000#16 else 0x0001#16 := by cases v <;> rfl

/-- `RBIT` is one read slot and returns its sample (R153). -/
theorem rbit_spec {s : State} (hc : s.ctl.configured = true) :
    ∃ t, exec .rbit s = .next t ∧ RanSlots [.read (s.farSide.level .read s.draws)] s t ∧
      t.rw = some (if s.farSide.level .read s.draws then 0x0001#16 else 0x0000#16) := by
  obtain ⟨hran, hrw, -⟩ := busCommand_spec (body := fun s => (bitResult (readBit s).1, (readBit s).2)) hc
    (rbit_slots (accept .rbit s)) (by simp)
  refine ⟨_, rfl, hran, hrw.trans ?_⟩
  rw [readBit_fst]
  exact congrArg some (responseWord_bitResult _)

/-- `PRES` is one reset slot; a line low at its sample is a presence (R171). -/
theorem pres_spec {s : State} (hc : s.ctl.configured = true) :
    ∃ t, exec .pres s = .next t ∧ RanSlots [.reset (s.farSide.level .reset s.draws)] s t ∧
      t.rw = some (if s.farSide.level .reset s.draws then 0x0000#16 else 0x0001#16) := by
  obtain ⟨hran, hrw, -⟩ := busCommand_spec (body := fun s => (presenceResult (resetSlot s).1, (resetSlot s).2)) hc
    (pres_slots (accept .pres s)) (by simp)
  refine ⟨_, rfl, hran, hrw.trans ?_⟩
  rw [resetSlot_fst]
  exact congrArg some (responseWord_presenceResult _)

/-- `RECVB` is the eight read slots of the byte it returns (R184). -/
theorem recvb_spec {s : State} (hc : s.ctl.configured = true) :
    ∃ t v, exec .recvb s = .next t ∧ RanSlots (byteReadSlots v) s t ∧ t.rw = some (responseWord .done v) := by
  obtain ⟨hran, hrw, -⟩ := busCommand_spec hc (Slots.receiveByte (accept .recvb s)) (byteReadSlots_ne _)
  exact ⟨_, _, rfl, hran, hrw⟩

/-- `RDROM` is 0x33 and the read slots of the identifier it leaves (R191). -/
theorem rdrom_spec {s : State} (hc : s.ctl.configured = true) :
    ∃ t, exec .rdrom s = .next t ∧
      RanSlots (byteWriteSlots Config.readRomByte ++ (idBits t.ctl.romId).map .read) s t ∧
      t.ctl.lastDev = s.ctl.lastDev ∧ t.rw = some 0x0000#16 := by
  obtain ⟨hsls, hval, hdev⟩ := readRomBody_spec (accept .rdrom s)
  obtain ⟨hran, hrw, hid, hdev'⟩ := busCommand_spec hc hsls (byteWriteSlots_append_ne _ _)
  rw [hval] at hrw
  rw [← hid] at hran
  exact ⟨_, rfl, hran, hdev'.trans hdev, hrw⟩

/-- `MATCHROM` is 0x55 and the write slots of `ROM_ID` (R193). -/
theorem matchrom_spec {s : State} (hc : s.ctl.configured = true) :
    ∃ t, exec .matchrom s = .next t ∧
      RanSlots (byteWriteSlots Config.matchRomByte ++ (idBits s.ctl.romId).map .write) s t ∧
      SameBlock s.ctl t.ctl ∧ t.rw = some 0x0000#16 := by
  obtain ⟨hsls, hval, hid, hdev⟩ := matchRomBody_spec (accept .matchrom s)
  obtain ⟨hran, hrw, hid', hdev'⟩ := busCommand_spec hc hsls (byteWriteSlots_append_ne _ _)
  rw [hval] at hrw
  exact ⟨_, rfl, hran, ⟨hran.binding, hid'.trans hid, hdev'.trans hdev⟩, hrw⟩

/-- The slots of a pass of `SRCHROM` that took these turns (R200). -/
def passSlots (s : State) (turns : List Turn) : List Slot :=
  byteWriteSlots Config.searchRomByte ++ turns.flatMap (turnSlots s.ctl.lastDev s.ctl.romId)

/-- A pass of `SRCHROM` that took a turn at every position: it returns the `LASTDEV` it stores (R202). -/
structure FullPass (s t : State) (turns : List Turn) : Prop extends AfterTurns (List.finRange 64) s t turns where
  all : turns.length = 64
  ran : RanSlots (passSlots s turns) s t
  lastDev : t.ctl.lastDev = recordedDev s.ctl.lastDev s.ctl.romId Config.devNone turns
  rw : t.rw = some (responseWord .done t.ctl.lastDev)

/-- A pass of `SRCHROM` that ended at a position where nobody answered, after these turns (R203). -/
structure AbortedPass (s t : State) (turns : List Turn) : Prop extends AfterTurns (List.finRange 64) s t turns where
  short : turns.length < 64
  ran : RanSlots (passSlots s turns ++ [.read true, .read true]) s t
  lastDev : t.ctl.lastDev = s.ctl.lastDev
  rw : t.rw = some 0x00FF#16

/-- A pass of `SRCHROM` runs to its end or aborts (R200, R202, R203). -/
theorem srchrom_spec {s : State} (hc : s.ctl.configured = true) :
    ∃ t turns, exec .srchrom s = .next t ∧ (FullPass s t turns ∨ AbortedPass s t turns) := by
  obtain ⟨turns, ⟨hpos, hsome, hfound, hkept⟩, hend⟩ := searchBody_spec (accept .srchrom s)
  refine ⟨_, turns, rfl, hend.imp ?full ?aborted⟩
  case full =>
    rintro ⟨hlen, hsls, hval, hdev⟩
    obtain ⟨hran, hrw, hid, hdev'⟩ := busCommand_spec hc hsls (byteWriteSlots_append_ne _ _)
    rw [← hid] at hfound hkept
    exact ⟨⟨hpos, hsome, hfound, hkept⟩, hlen, hran, hdev'.trans (hdev.trans hval), by rw [hrw, hdev', hdev]⟩
  case aborted =>
    rintro ⟨hlen, hsls, hval, hdev⟩
    obtain ⟨hran, hrw, hid, hdev'⟩ :=
      busCommand_spec hc hsls (List.append_assoc _ _ _ ▸ byteWriteSlots_append_ne _ _)
    rw [← hid] at hfound hkept
    rw [hval] at hrw
    exact ⟨⟨hpos, hsome, hfound, hkept⟩, hlen, hran, hdev'.trans hdev, hrw⟩

/-- Settles O25: `rdrom_spec`, with the bits of 0x33 written out. -/
theorem rdromFillsRomId : Obligations.RdromFillsRomId := fun _ => rdrom_spec

theorem sampleCount_writes (bits : List Bool) : sampleCount (bits.map .write) = 0 := by
  simp [sampleCount]

/-- Settles O26: `matchrom_spec`, with the bits of 0x55 written out; no write slot samples. -/
theorem matchromSendsRomId : Obligations.MatchromSendsRomId := by
  intro s hc
  obtain ⟨t, hexec, hran, hblock, hrw⟩ := matchrom_spec hc
  refine ⟨t, hexec, hran, hblock, hrw, hran.draws.trans ?_⟩
  rw [sampleCount_append, byteWriteSlots, sampleCount_writes, sampleCount_writes]
  rfl

/-- Settles O29: `IoStep.io` of the slots, with the handlers as they were before the command was accepted. -/
theorem onlyHandlersChangeOtherBits : Obligations.OnlyHandlersChangeOtherBits := by
  intro i s t hi hc h
  obtain ⟨sls, v, u, -, hsls, rfl⟩ := exec_bus_slots hi hc h
  exact ⟨fun a k => (hsls.io a k).imp_right (Or.imp_right (HandlerWrites.of_accept hc)), hsls.masked⟩

/-! ## Unspecified lines (R85, R146) -/

/-- Settles O34: references that are no pin's reach free values, and every slot disturbs the pins whose bits it moves. -/
theorem illAssortedReferencesAnswerAnything : Obligations.IllAssortedReferencesAnswerAnything := by
  refine fun s hc => ⟨fun hp => ?samples, fun i t q hi h hq => ?lines⟩
  case samples =>
    have hfar : s.farSide = .answers [] := farSide_improper hp
    obtain ⟨t, ht, -, hrbit⟩ := rbit_spec hc
    obtain ⟨u, hu, -, hpres⟩ := pres_spec hc
    rw [hfar] at hrbit hpres
    exact ⟨⟨t, ht, hrbit⟩, u, hu, hpres⟩
  case lines =>
    obtain ⟨sls, v, u, hne, hsls, rfl⟩ := exec_bus_slots hi hc h
    exact hsls.disturbed hne q hq

/-! ## Lines that answer every sample alike (R86) -/

/-- An environment that answers every sample with `v`, and that no slot moves: a stuck line, or a bus with no device. -/
structure Environment.Constant (v : Bool) (e : Environment) : Prop where
  next : ∀ sl, e.next sl = e
  level : ∀ slot n, e.level slot n = v

theorem Environment.constant_stuck (v : Bool) : (Environment.stuck v).Constant v := ⟨next_stuck v, fun _ _ => rfl⟩

theorem Environment.constant_empty : (Environment.bus []).Constant true where
  next sl := by cases sl <;> rfl
  level slot _ := by cases slot <;> rfl

theorem Environment.Constant.read {e : Environment} {v w : Bool} (he : e.Constant v) {n : Nat} {sls : List Slot}
    (h : e.Answers n sls) (hw : .read w ∈ sls) : w = v := by
  induction sls generalizing n with
  | nil => simp at hw
  | cons sl rest ih =>
    cases sl with
    | write b =>
      rw [answers_write, he.next] at h
      exact ih h (by simpa using hw)
    | reset b =>
      rw [answers_reset, he.next] at h
      exact ih h.2 (by simpa using hw)
    | read b =>
      rw [answers_read, he.next, he.level] at h
      rcases List.mem_cons.mp hw with hw | hw
      · cases hw
        exact h.1
      · exact ih h.2 hw

theorem mem_turn_reads {s : State} {turns : List Turn} {x : Turn} (hx : x ∈ turns) :
    .read x.2.1 ∈ passSlots s turns ∧ .read x.2.2 ∈ passSlots s turns := by
  constructor <;>
    exact List.mem_append_right _ (List.mem_flatMap.mpr ⟨x, hx, by simp [turnSlots]⟩)

/-- On a line that answers 1 nobody answers at the first position, and the pass aborts there (R86, R203). -/
theorem srchrom_constant_high {s : State} (hc : s.ctl.configured = true) (h : s.farSide.Constant true) :
    ∃ t, exec .srchrom s = .next t ∧ t.rw = some 0x00FF#16 ∧ SameBlock s.ctl t.ctl ∧
      RanSlots (byteWriteSlots Config.searchRomByte ++ [.read true, .read true]) s t := by
  obtain ⟨t, turns, hexec, hfull | habort⟩ := srchrom_spec hc
  · exfalso
    obtain ⟨x, hx⟩ := List.exists_mem_of_length_pos (by rw [hfull.all]; decide)
    obtain ⟨ha, hb⟩ := mem_turn_reads (s := s) hx
    exact hfull.someone x hx ⟨h.read hfull.ran.answers ha, h.read hfull.ran.answers hb⟩
  · have hnone : turns = [] := List.eq_nil_iff_forall_not_mem.mpr fun x hx => by
      obtain ⟨ha, hb⟩ := mem_turn_reads (s := s) hx
      exact habort.someone x hx ⟨h.read habort.ran.answers (List.mem_append_left _ ha),
        h.read habort.ran.answers (List.mem_append_left _ hb)⟩
    subst hnone
    exact ⟨t, hexec, habort.rw,
      ⟨habort.ran.binding, romId_ext fun q => habort.kept q (by simp), habort.lastDev⟩, habort.ran⟩

/-- Settles O40: an empty bus and a line stuck high both answer every read with 1. -/
theorem searchOfAnEmptyBus : Obligations.SearchOfAnEmptyBus := by
  rintro s hc (hs | hs)
  · exact srchrom_constant_high hc (hs ▸ Environment.constant_empty)
  · exact srchrom_constant_high hc (hs ▸ Environment.constant_stuck true)

/-- The slots of the turns, by the bits they leave in `ROM_ID`. -/
theorem AfterTurns.slots {ps : List Position} {s t : State} {turns : List Turn} (h : AfterTurns ps s t turns) :
    turns.flatMap (turnSlots s.ctl.lastDev s.ctl.romId) =
      turns.flatMap fun x => [.read x.2.1, .read x.2.2, .write (idBit t.ctl.romId x.1)] :=
  List.flatMap_congr fun x hx => by rw [turnSlots, h.found x hx]

theorem FullPass.positions_eq {s t : State} {turns : List Turn} (h : FullPass s t turns) :
    turns.map Prod.fst = List.finRange 64 := by
  rw [h.positions, h.all, List.take_of_length_le (by simp)]

/-- A full pass in which every turn at `p` read `a p` and `b p`. -/
theorem FullPass.turns_eq {s t : State} {turns : List Turn} (h : FullPass s t turns) {a b : Position → Bool}
    (hx : ∀ x ∈ turns, x.2 = (a x.1, b x.1)) : turns = turnsOf a b (List.finRange 64) := by
  rw [← h.positions_eq, turnsOf, List.map_map]
  exact (List.map_id turns).symm.trans (List.map_congr_left fun x m => by simp [Function.comp, ← hx x m])

/-- On a line that answers 0 the pass sees a discrepancy at every position (R86). -/
theorem srchrom_constant_low {s : State} (hc : s.ctl.configured = true) (h : s.farSide.Constant false) :
    ∃ t, exec .srchrom s = .next t ∧ FullPass s t (turnsOf (fun _ => false) (fun _ => false) (List.finRange 64)) := by
  obtain ⟨t, turns, hexec, hfull | habort⟩ := srchrom_spec hc
  · refine ⟨t, hexec, hfull.turns_eq ?_ ▸ hfull⟩
    intro x hx
    obtain ⟨ha, hb⟩ := mem_turn_reads (s := s) hx
    exact Prod.ext (h.read hfull.ran.answers ha) (h.read hfull.ran.answers hb)
  · exact Bool.noConfusion (h.read (w := true) habort.ran.answers (by simp))

theorem pres_constant {v : Bool} {s : State} (hc : s.ctl.configured = true) (h : s.farSide.Constant v) :
    ∃ t, exec .pres s = .next t ∧ t.rw = some (if v then 0x0000#16 else 0x0001#16) := by
  obtain ⟨t, hexec, -, hrw⟩ := pres_spec hc
  exact ⟨t, hexec, by rw [hrw, h.level]⟩

theorem rbit_constant {v : Bool} {s : State} (hc : s.ctl.configured = true) (h : s.farSide.Constant v) :
    ∃ t, exec .rbit s = .next t ∧ t.rw = some (if v then 0x0001#16 else 0x0000#16) := by
  obtain ⟨t, hexec, -, hrw⟩ := rbit_spec hc
  exact ⟨t, hexec, by rw [hrw, h.level]⟩

theorem recvb_constant {v : Bool} {s : State} (hc : s.ctl.configured = true) (h : s.farSide.Constant v) :
    ∃ t, exec .recvb s = .next t ∧ t.rw = some (if v then 0x00FF#16 else 0x0000#16) := by
  obtain ⟨t, w, hexec, hran, hrw⟩ := recvb_spec hc
  have hbits : ∀ (v : Bool) (k : Fin 8), (if v then 0xFF#8 else 0x00#8).getLsbD k.val = v := by decide
  have hw : w = if v then 0xFF#8 else 0x00#8 := byte_ext fun k =>
    (h.read hran.answers (by simp [byteReadSlots, byteBits])).trans (hbits v k).symm
  refine ⟨t, hexec, ?_⟩
  rw [hrw, hw]
  cases v <;> rfl

theorem rdrom_constant {v : Bool} {s : State} (hc : s.ctl.configured = true) (h : s.farSide.Constant v) :
    ∃ t, exec .rdrom s = .next t ∧ t.rw = some 0x0000#16 ∧ ∀ p, idBit t.ctl.romId p = v := by
  obtain ⟨t, hexec, hran, -, hrw⟩ := rdrom_spec hc
  exact ⟨t, hexec, hrw, fun p => h.read hran.answers (by simp [idBits])⟩

/-- Settles O33: a stuck line answers every sample with its level, and each command says what it makes of that. -/
theorem stuckLines : Obligations.StuckLines := by
  refine fun s hc => ⟨fun hs => ?low, fun hs => ?high⟩
  case low =>
    have hconst : s.farSide.Constant false := hs ▸ Environment.constant_stuck false
    obtain ⟨t, hexec, hfull⟩ := srchrom_constant_low hc hconst
    refine ⟨pres_constant hc hconst, rbit_constant hc hconst, recvb_constant hc hconst, rdrom_constant hc hconst,
      t, hexec, hfull.rw, ?_, fun p => hfull.found (p, false, false) (List.mem_map.mpr ⟨p, by simp⟩)⟩
    have hran := hfull.ran
    rw [passSlots, hfull.slots, turnsOf, List.flatMap_map] at hran
    exact hran
  case high =>
    have hconst : s.farSide.Constant true := hs ▸ Environment.constant_stuck true
    obtain ⟨t, hexec, hrw, -, hran⟩ := srchrom_constant_high hc hconst
    exact ⟨pres_constant hc hconst, rbit_constant hc hconst, recvb_constant hc hconst, rdrom_constant hc hconst,
      t, hexec, hrw, hran.slotCount⟩

/-! ## Against the reference environment (R90 to R99) -/

/-- Settles O35: in a reset slot every device pulls low, and goes to the start of a ROM command. -/
theorem presenceUnderTheBus : Obligations.PresenceUnderTheBus := by
  intro devs s hc hs
  obtain ⟨t, hexec, hran, hrw⟩ := pres_spec hc
  refine ⟨t, hexec, ?_, by rw [hran.env, hs]; rfl⟩
  rw [hrw, hs]
  cases devs <;> rfl

/-- What a participant at `p`, or a silent device, contributes to the first read of the position (R92, R98). -/
theorem contribution_searchA {d : Device} {p : Position} (h : d.st = .searchA p ∨ d.silent) :
    d.contribution = true ↔ (d.st = .searchA p → idBit d.rom p = true) := by
  rcases h with h | h
  · simp [Device.contribution, h]
  · rw [Device.silent_contribution d h]
    rcases h with h | h <;> simp [h]

/-- What it contributes to the second read (R92, R93, R98). -/
theorem contribution_after_searchA (level : Bool) {d : Device} {p : Position} (h : d.st = .searchA p ∨ d.silent) :
    (d.advance level).contribution = true ↔ (d.st = .searchA p → idBit d.rom p = false) := by
  rcases h with h | h
  · simp [Device.contribution, Device.advance, h]
  · rw [Device.silent_advance level d h, Device.silent_contribution d h]
    rcases h with h | h <;> simp [h]

/-- Settles O36: each read is the AND of the contributions, and no window moves a device. -/
theorem searchPairMeaning : Obligations.SearchPairMeaning := by
  intro devs p s hs hdevs second
  have hfirst : (readBit s).1 = devs.all Device.contribution := by
    rw [readBit_fst, hs]
    rfl
  have hsecond : second = (devs.map (Device.advance (busLevel true devs))).all Device.contribution := by
    have hfar : (readBit s).2.farSide = .bus (busAfter .read devs) := by rw [(Slots.readBit s).env, hs]; rfl
    rw [show second = _ from readBit_fst _, window_farSide, hfar]
    rfl
  rw [hfirst, hsecond, List.all_map, List.all_eq_true, List.all_eq_true]
  exact ⟨forall₂_congr fun d hd => contribution_searchA (hdevs d hd),
    forall₂_congr fun d hd => contribution_after_searchA _ (hdevs d hd)⟩

/-- Settles O38: the devices decode 0x55, and those that agree with `ROM_ID` in every position stay. -/
theorem matchromUnderTheBus : Obligations.MatchromUnderTheBus := by
  intro devs s hc hs hdevs
  obtain ⟨t, hexec, hran, -⟩ := matchrom_spec hc
  refine ⟨t, hexec, ?_⟩
  have hdecode : decodeRomCommand Config.matchRomByte = .matching ⟨0, by decide⟩ := by decide
  have hmatch := run_bus_matching s.ctl.romId devs 63 0 (by decide) (fun _ => true) rfl
  rw [List.drop_zero] at hmatch
  rw [hran.env, hs, among_of_all hdevs, Environment.run_append, run_bus_byte, hdecode, idBits, hmatch]
  simp [among, all_bits_eq]

/-- The devices at the start of a ROM command decode SEARCH ROM and walk through the turns of a pass: with a device on the
bus nobody-answered does not occur, and the pass ends at a device (R95, R97, R208). -/
theorem AfterTurns.search_bus {devs : List Device} {s t : State} {turns : List Turn} {tail : List Slot}
    (h : AfterTurns (List.finRange 64) s t turns) (hs : s.farSide = .bus devs) (hne : devs ≠ [])
    (hdevs : ∀ d ∈ devs, d.st = .cmd 0 0x00#8)
    (htail : tail = [] ∧ turns.length = 64 ∨ tail = [.read true, .read true] ∧ turns.length < 64)
    (ha : s.farSide.Answers s.draws (passSlots s turns ++ tail)) :
    tail = [] ∧ (∃ d ∈ devs, d.rom = t.ctl.romId) ∧
      s.farSide.run (passSlots s turns) = .bus (among (fun rom => decide (rom = t.ctl.romId)) .selected devs) ∧
      ∀ x ∈ turns, (x.2.1 = x.2.2 ↔ answersAt devs t.ctl.romId x.1 false ∧ answersAt devs t.ctl.romId x.1 true) := by
  have hdecode : s.farSide.run (byteWriteSlots Config.searchRomByte) =
      .bus (among (fun _ => true) (.searchA ⟨0, by decide⟩) devs) := by
    have hbyte : decodeRomCommand Config.searchRomByte = .searchA ⟨0, by decide⟩ := by decide
    rw [hs]
    conv_lhs => rw [among_of_all hdevs]
    rw [run_bus_byte, hbyte]
  rw [passSlots, List.append_assoc, Environment.answers_append, hdecode] at ha
  rw [passSlots, Environment.run_append, hdecode]
  obtain ⟨d, hd⟩ := List.exists_mem_of_ne_nil devs hne
  exact run_bus_search s.ctl.lastDev s.ctl.romId t.ctl.romId devs 63 0 (by decide) (fun _ => true) turns _ tail rfl
    (by simp) ⟨d, hd, rfl⟩ h.positions htail h.found ha.2

/-- Settles O41: with a device on the bus a pass takes every turn, and ends at a device (`AfterTurns.search_bus`). -/
theorem everyPassFindsADevice : Obligations.EveryPassFindsADevice := by
  intro devs s hc hs hne hdevs
  obtain ⟨t, turns, hexec, hfull | habort⟩ := srchrom_spec hc
  · obtain ⟨-, hfound, hrun, -⟩ := hfull.search_bus (tail := []) hs hne hdevs (.inl ⟨rfl, hfull.all⟩)
      (by rw [List.append_nil]; exact hfull.ran.answers)
    exact ⟨t, hexec, hfull.rw, hfound, by rw [hfull.ran.env, hrun]; simp [among]⟩
  · obtain ⟨htail, -⟩ := habort.search_bus hs hne hdevs (.inr ⟨rfl, habort.short⟩) habort.ran.answers
    simp at htail

/-! ## The trace (R80, R140, R156) -/

/-- What a command appends to the trace: the segments of its slots, none if it has none, or the two events of `CONFIG`
(R81, R145). -/
theorem CommandRuns.trace {i : Instr} {s t : State} (h : CommandRuns i s t) :
    (∃ sls, t.ctl.trace = s.ctl.trace ++ segments s.timing s.gie sls) ∨
      t.ctl.trace = s.ctl.trace ++ [.rel, .wait s.timing.tSettle] := by
  have of_same (h : RegisterRuns i s t) : ∃ sls, t.ctl.trace = s.ctl.trace ++ segments s.timing s.gie sls :=
    ⟨[], by rw [h.trace, segments_nil, List.append_nil]⟩
  cases h with
  | refused h => exact .inl (of_same (.refused h))
  | registers h => exact .inl (of_same (.completed h))
  | slots _ h => exact .inl ⟨_, h.trace⟩
  | @config ddr port pin idx hi =>
    subst hi
    exact .inr (congrArg Controller.trace (config_spec ddr port pin idx s).1)

/-- Settles O46: a run of slots keeps the discipline, and `CONFIG`'s release stands outside every section. -/
theorem tracesKeepTheDiscipline : Obligations.TracesKeepTheDiscipline := by
  intro i s t h
  rcases (CommandRuns.of_exec h).trace with ⟨sls, htrace⟩ | htrace
  · refine ⟨_, htrace, disciplined_segments _ _ _ _, fun e he ie hie => irqSave_segments (hie ▸ he), fun n hn => ?_⟩
    rw [sectionWaits_segments] at hn
    obtain ⟨sl, -, rfl⟩ := List.mem_map.mp hn
    exact ⟨⟨sl, rfl⟩, fun hdefault => hdefault ▸ sl.micros_le⟩
  · exact ⟨_, htrace, rfl, by simp, by simp [sectionWaits]⟩

end Sys2Proof.Machine
end

section
/-! PROOFS. The statements on the encoding (30_encoding.md): a word is the concatenation of its fields, so the encoder,
the opcode map and the decoder are compared field by field (rules R112 to R117). -/

namespace Sys2Proof

/-! ## A word and its fields (R112) -/

/-- A concatenation is a field of the word exactly when its two parts are the two parts of the field. -/
theorem append_eq_field_iff {m n lo : Nat} {x : BitVec m} {y : BitVec n} {cw : CommandWord} :
    x ++ y = field lo (m + n) cw ↔ x = field (lo + n) m cw ∧ y = field lo n cw := by
  have hjoin : field lo (m + n) cw = field (lo + n) m cw ++ field lo n cw :=
    (BitVec.extractLsb'_append_extractLsb'_eq_extractLsb' rfl).symm
  rw [hjoin]
  refine ⟨fun h => ⟨?_, ?_⟩, fun ⟨hx, hy⟩ => by rw [hx, hy]⟩
  · simpa only [BitVec.extractLsb'_append_eq_left] using congrArg (BitVec.extractLsb' n m) h
  · simpa only [BitVec.extractLsb'_append_eq_right] using congrArg (BitVec.extractLsb' 0 n) h

theorem eq_iff_eq_field {x cw : CommandWord} : x = cw ↔ x = field 0 32 cw := by
  rw [field, BitVec.extractLsb'_eq_self]

theorem zeroField_eq_true {lo len : Nat} {cw : CommandWord} : zeroField lo len cw = true ↔ 0#len = field lo len cw := by
  rw [zeroField, beq_iff_eq, eq_comm]

/-- Format N, of the commands without operands: opcode, zero. -/
theorem formatN_eq_iff {op : BitVec 4} {cw : CommandWord} :
    op ++ 0#28 = cw ↔ op = field 28 4 cw ∧ zeroField 0 28 cw = true := by
  rw [zeroField_eq_true, eq_iff_eq_field]
  exact append_eq_field_iff

/-- Format B. -/
theorem encode_wbit_eq_iff {bit : Bool} {cw : CommandWord} :
    encode (.wbit bit) = cw ↔ 0x2#4 = field 28 4 cw ∧ zeroField 1 27 cw = true ∧ BitVec.ofBool bit = field 0 1 cw := by
  rw [zeroField_eq_true, ← and_assoc, eq_iff_eq_field]
  change 0x2#4 ++ 0#27 ++ BitVec.ofBool bit = field 0 (4 + 27 + 1) cw ↔ _
  simp only [append_eq_field_iff]

/-- Format Y. -/
theorem encode_sendb_eq_iff {byte : Byte} {cw : CommandWord} :
    encode (.sendb byte) = cw ↔ 0x5#4 = field 28 4 cw ∧ zeroField 8 20 cw = true ∧ byte = field 0 8 cw := by
  rw [zeroField_eq_true, ← and_assoc, eq_iff_eq_field]
  change 0x5#4 ++ 0#20 ++ byte = field 0 (4 + 20 + 8) cw ↔ _
  simp only [append_eq_field_iff]

/-- Format C. -/
theorem encode_config_eq_iff {ddr port pin : Ref} {idx : PinIndex} {cw : CommandWord} :
    encode (.config ddr port pin idx) = cw ↔ 0x1#4 = field 28 4 cw ∧ zeroField 27 1 cw = true ∧ idx = field 24 3 cw ∧
      ddr = field 16 8 cw ∧ port = field 8 8 cw ∧ pin = field 0 8 cw := by
  simp only [zeroField_eq_true, ← and_assoc]
  rw [eq_iff_eq_field]
  change 0x1#4 ++ 0#1 ++ idx ++ ddr ++ port ++ pin = field 0 (4 + 1 + 3 + 8 + 8 + 8) cw ↔ _
  simp only [append_eq_field_iff]

/-- Format R. -/
theorem encode_rdreg_eq_iff {reg : BitVec 4} {cw : CommandWord} :
    encode (.rdreg reg) = cw ↔
      0xA#4 = field 28 4 cw ∧ zeroField 12 16 cw = true ∧ reg = field 8 4 cw ∧ zeroField 0 8 cw = true := by
  simp only [zeroField_eq_true, ← and_assoc]
  rw [eq_iff_eq_field]
  change 0xA#4 ++ 0#16 ++ reg ++ 0#8 = field 0 (4 + 16 + 4 + 8) cw ↔ _
  simp only [append_eq_field_iff]

/-- Format W. -/
theorem encode_wrreg_eq_iff {reg : BitVec 4} {val : Byte} {cw : CommandWord} :
    encode (.wrreg reg val) = cw ↔
      0xB#4 = field 28 4 cw ∧ zeroField 12 16 cw = true ∧ reg = field 8 4 cw ∧ val = field 0 8 cw := by
  simp only [zeroField_eq_true, ← and_assoc]
  rw [eq_iff_eq_field]
  change 0xB#4 ++ 0#16 ++ reg ++ val = field 0 (4 + 16 + 4 + 8) cw ↔ _
  simp only [append_eq_field_iff]

theorem ofBool_beq_one (b : BitVec 1) : BitVec.ofBool (b == 1#1) = b := by
  revert b
  decide

/-! ## The decoder and the encoder are inverse to each other (R113, R117) -/

/-- The fields that the encoder wrote are the fields that the decoder reads. -/
theorem decode_encode (i : Instr) : decode (encode i) = .command i := by
  generalize hcw : encode i = cw
  cases i with
  | config ddr port pin idx =>
    obtain ⟨hop, hz, rfl, rfl, rfl, rfl⟩ := encode_config_eq_iff.mp hcw
    simp [decode, checked, ← hop, hz]
  | wbit bit =>
    obtain ⟨hop, hz, hbit⟩ := encode_wbit_eq_iff.mp hcw
    have hread : (BitVec.ofBool bit == 1#1) = bit := by cases bit <;> rfl
    simp [decode, checked, ← hop, hz, ← hbit, hread]
  | sendb byte =>
    obtain ⟨hop, hz, rfl⟩ := encode_sendb_eq_iff.mp hcw
    simp [decode, checked, ← hop, hz]
  | rdreg reg =>
    obtain ⟨hop, hz, rfl, hz'⟩ := encode_rdreg_eq_iff.mp hcw
    simp [decode, checked, ← hop, hz, hz']
  | wrreg reg val =>
    obtain ⟨hop, hz, rfl, rfl⟩ := encode_wrreg_eq_iff.mp hcw
    simp [decode, checked, ← hop, hz]
  | rbit | pres | recvb | rdrom | matchrom | srchrom =>
    obtain ⟨hop, hz⟩ := formatN_eq_iff.mp hcw
    simp [decode, checked, ← hop, hz]

theorem opcode_eq_field {op : BitVec 4} {cw : CommandWord} (h : (field 28 4 cw).toNat = op.toNat) : op = field 28 4 cw :=
  (BitVec.eq_of_toNat_eq h).symm

/-- A word that decodes has its opcode and its zero fields fixed, and every other bit is in an operand. -/
theorem encode_of_decode {cw : CommandWord} {i : Instr} (h : decode cw = .command i) : encode i = cw := by
  obtain ⟨hop, hz, rfl⟩ | ⟨hop, hz, rfl⟩ | ⟨hop, hz, rfl⟩ | ⟨hop, hz, rfl⟩ | ⟨hop, hz, rfl⟩ | ⟨hop, hz, rfl⟩ |
    ⟨hop, hz, rfl⟩ | ⟨hop, hz, rfl⟩ | ⟨hop, hz, rfl⟩ | ⟨hop, hz, rfl⟩ | ⟨hop, hz, rfl⟩ := decode_cases h
  · exact encode_config_eq_iff.mpr ⟨opcode_eq_field hop, hz, rfl, rfl, rfl, rfl⟩
  · exact encode_wbit_eq_iff.mpr ⟨opcode_eq_field hop, hz, ofBool_beq_one _⟩
  · exact formatN_eq_iff.mpr ⟨opcode_eq_field hop, hz⟩
  · exact formatN_eq_iff.mpr ⟨opcode_eq_field hop, hz⟩
  · exact encode_sendb_eq_iff.mpr ⟨opcode_eq_field hop, hz, rfl⟩
  · exact formatN_eq_iff.mpr ⟨opcode_eq_field hop, hz⟩
  · exact formatN_eq_iff.mpr ⟨opcode_eq_field hop, hz⟩
  · exact formatN_eq_iff.mpr ⟨opcode_eq_field hop, hz⟩
  · exact formatN_eq_iff.mpr ⟨opcode_eq_field hop, hz⟩
  · obtain ⟨hz, hz'⟩ := Bool.and_eq_true_iff.mp hz
    exact encode_rdreg_eq_iff.mpr ⟨opcode_eq_field hop, hz, rfl, hz'⟩
  · exact encode_wrreg_eq_iff.mpr ⟨opcode_eq_field hop, hz, rfl, rfl⟩

theorem decode_eq_command_iff {cw : CommandWord} {i : Instr} : decode cw = .command i ↔ encode i = cw :=
  ⟨encode_of_decode, fun h => h ▸ decode_encode i⟩

/-- Settles O1: the decoder reads the fields the encoder wrote (`decode_encode`). -/
theorem decodeOfEncode : Obligations.DecodeOfEncode := decode_encode

/-- Settles O2: the fields of a word that decodes make up the word (`encode_of_decode`). -/
theorem encodeOfDecode : Obligations.EncodeOfDecode := fun _ _ => encode_of_decode

/-- Settles O4: each of the words is the encoding of its command. -/
theorem sampleWordsDecode : Obligations.SampleWordsDecode :=
  ⟨decode_encode (.config 0x2A 0x2B 0x29 2), decode_encode .pres, decode_encode (.sendb 0xB0), decode_encode .srchrom,
    decode_encode (.wrreg 7 0x09)⟩

/-! ## The opcode map (R114) -/

/-- A field that the mask covers is fixed by the pattern. -/
theorem field_of_match {lo len : Nat} {v : BitVec len} {cw mask pattern : CommandWord} (h : cw &&& mask = pattern)
    (hmask : field lo len mask = BitVec.allOnes len) (hpattern : field lo len pattern = v) : v = field lo len cw := by
  rw [← hpattern, ← h, field, field, BitVec.extractLsb'_and, ← field, ← field, hmask, BitVec.and_allOnes]

theorem zeroField_of_match {lo len : Nat} {cw mask pattern : CommandWord} (h : cw &&& mask = pattern)
    (hmask : field lo len mask = BitVec.allOnes len) (hpattern : field lo len pattern = 0#len) :
    zeroField lo len cw = true :=
  zeroField_eq_true.mpr (field_of_match h hmask hpattern)

theorem eq_of_full_mask {cw pattern : CommandWord} (h : cw &&& 0xFFFFFFFF#32 = pattern) : pattern = cw :=
  h.symm.trans BitVec.and_allOnes

/-- A word that matches a row is an encoding of the row's command: the mask covers the opcode and every zero field. -/
theorem encode_of_match {cw : CommandWord} {r : OpcodeRow} (hr : r ∈ opcodeRows) (h : cw &&& r.mask = r.pattern) :
    ∃ i : Instr, encode i = cw ∧ i.mnemonic = r.mnemonic := by
  simp only [opcodeRows, List.mem_cons, List.not_mem_nil, or_false] at hr
  obtain rfl | rfl | rfl | rfl | rfl | rfl | rfl | rfl | rfl | rfl | rfl := hr
  · exact ⟨.config _ _ _ _, encode_config_eq_iff.mpr
      ⟨field_of_match h rfl rfl, zeroField_of_match h rfl rfl, rfl, rfl, rfl, rfl⟩, rfl⟩
  · exact ⟨.wbit _, encode_wbit_eq_iff.mpr
      ⟨field_of_match h rfl rfl, zeroField_of_match h rfl rfl, ofBool_beq_one _⟩, rfl⟩
  · exact ⟨.rbit, eq_of_full_mask h, rfl⟩
  · exact ⟨.pres, eq_of_full_mask h, rfl⟩
  · exact ⟨.sendb _, encode_sendb_eq_iff.mpr ⟨field_of_match h rfl rfl, zeroField_of_match h rfl rfl, rfl⟩, rfl⟩
  · exact ⟨.recvb, eq_of_full_mask h, rfl⟩
  · exact ⟨.rdrom, eq_of_full_mask h, rfl⟩
  · exact ⟨.matchrom, eq_of_full_mask h, rfl⟩
  · exact ⟨.srchrom, eq_of_full_mask h, rfl⟩
  · exact ⟨.rdreg _, encode_rdreg_eq_iff.mpr
      ⟨field_of_match h rfl rfl, zeroField_of_match h rfl rfl, rfl, zeroField_of_match h rfl rfl⟩, rfl⟩
  · exact ⟨.wrreg _ _, encode_wrreg_eq_iff.mpr
      ⟨field_of_match h rfl rfl, zeroField_of_match h rfl rfl, rfl, rfl⟩, rfl⟩

/-- The encoding of a command matches the row of the command. -/
theorem encode_matches_own_row : ∀ i : Instr, Laws.OwnRow.Statement i
  | .config .. => Laws.OwnRow.config ..
  | .wbit _ => Laws.OwnRow.wbit _
  | .rbit => Laws.OwnRow.rbit
  | .pres => Laws.OwnRow.pres
  | .sendb _ => Laws.OwnRow.sendb _
  | .recvb => Laws.OwnRow.recvb
  | .rdrom => Laws.OwnRow.rdrom
  | .matchrom => Laws.OwnRow.matchrom
  | .srchrom => Laws.OwnRow.srchrom
  | .rdreg _ => Laws.OwnRow.rdreg _
  | .wrreg .. => Laws.OwnRow.wrreg ..

theorem opcodeRows_mnemonic_inj : ∀ r ∈ opcodeRows, ∀ r' ∈ opcodeRows, r.mnemonic = r'.mnemonic → r = r' := by decide

/-- Settles O3: a word that matches a row encodes the row's command (`encode_of_match`), and a command's encoding matches
the one row of its mnemonic (`encode_matches_own_row`). -/
theorem decoderFollowsOpcodeMap : Obligations.DecoderFollowsOpcodeMap := by
  intro cw r hr
  simp only [decode_eq_command_iff]
  refine ⟨encode_of_match hr, fun ⟨i, hcw, hname⟩ => ?_⟩
  obtain ⟨own, hown, hname', hmatch⟩ := encode_matches_own_row i
  obtain rfl := opcodeRows_mnemonic_inj own hown r hr (hname'.trans hname)
  exact hcw ▸ hmatch

/-- A word is well formed exactly when it is a command. -/
theorem wellFormedWord_iff {cw : CommandWord} : wellFormedWord cw = true ↔ ∃ i, decode cw = .command i := by
  simp only [wellFormedWord, List.any_eq_true, OpcodeRow.matchesWord, beq_iff_eq, decode_eq_command_iff]
  constructor
  · rintro ⟨r, hr, hmatch⟩
    obtain ⟨i, hcw, -⟩ := encode_of_match hr hmatch
    exact ⟨i, hcw⟩
  · rintro ⟨i, rfl⟩
    obtain ⟨r, hr, -, hmatch⟩ := encode_matches_own_row i
    exact ⟨r, hr, hmatch⟩

/-! ## Refused words (R115, R116) -/

theorem opcode_toNat (cw : CommandWord) : (field 28 4 cw).toNat = cw.toNat / 2 ^ 28 := by
  rw [field_toNat]
  exact Nat.mod_eq_of_lt (by have := cw.isLt; omega)

/-- A branch of the decoder answers a reserved opcode only through its `else`. -/
theorem decode_branch_reservedOpcode {c : Prop} [Decidable c] {zero : Bool} {i : Instr} {other : Decoded} :
    (if c then checked zero i else other) = .reservedOpcode ↔ ¬ c ∧ other = .reservedOpcode := by
  split <;> cases zero <;> simp [checked, *]

/-- The decoder refuses the opcode exactly when it is none of the eleven. -/
theorem decode_eq_reservedOpcode_iff {cw : CommandWord} :
    decode cw = .reservedOpcode ↔ cw.toNat / 2 ^ 28 = 0x0 ∨ 0xC ≤ cw.toNat / 2 ^ 28 := by
  simp only [decode, decode_branch_reservedOpcode, opcode_toNat, and_true]
  omega

end Sys2Proof

namespace Sys2Proof.Machine

theorem runWord_reservedOpcode {cw : CommandWord} (h : decode cw = .reservedOpcode) (s : State) :
    runWord cw s = .next (refuse .reservedOpcode s) := by
  simp [runWord, h]

theorem runWord_reservedField {cw : CommandWord} (h : decode cw = .reservedField) (s : State) :
    runWord cw s = .next (refuse .reservedField s) := by
  simp [runWord, h]

/-- Settles O6: a word whose opcode is reserved is refused for it (`decode_eq_reservedOpcode_iff`); any other word that is
no command, since it matches no row (`wellFormedWord_iff`), for its fields. -/
theorem illFormedWordsAreRefused : Obligations.IllFormedWordsAreRefused := by
  intro s cw rest hin
  rw [step_of_inbox hin]
  refine ⟨fun hop => runWord_reservedOpcode (decode_eq_reservedOpcode_iff.mpr hop) _, fun ⟨hlo, hhi, hill⟩ => ?_⟩
  cases hdec : decode cw with
  | command i => exact absurd (wellFormedWord_iff.mpr ⟨i, hdec⟩) (by simp [hill])
  | reservedOpcode =>
    have := decode_eq_reservedOpcode_iff.mp hdec
    omega
  | reservedField => exact runWord_reservedField hdec _

end Sys2Proof.Machine
end

section
/-! PROOFS. The statements on line control (40_line_control.md): `GIE` and the released line (rules R140 to R144),
`CONFIG` with its windows (rules R145 to R147, 60_exceptions.md rule R241), and the two bit commands (rules R150 to
R153). -/

namespace Sys2Proof.Machine

/-! ## The interrupt flag (R143) -/

/-- However a command goes, what is the host's and the other controllers' stays (R143, R253). -/
theorem CommandRuns.sameHost {i : Instr} {s t : State} (h : CommandRuns i s t) : SameHost s t := by
  cases h with
  | refused => exact ⟨rfl, rfl, rfl, rfl⟩
  | slots _ h => exact ⟨h.parked, h.gie, h.inbox, h.timing⟩
  | @config ddr port pin idx hi =>
    obtain ⟨-, -, -, -, u, hu, -, hstep, -⟩ := config_spec ddr port pin idx s
    subst hi
    rw [hu]
    exact ⟨hstep.parked, hstep.gie, hstep.inbox, hstep.timing⟩
  | registers h =>
    obtain ⟨id, dev, hbody⟩ := h (accept i s)
    rw [complete, hbody]
    exact ⟨rfl, rfl, rfl, rfl⟩

/-- Settles O44: the primitives by what they leave beside the controller, the commands by `CommandRuns.sameHost`. -/
theorem gieIsRestored : Obligations.GieIsRestored :=
  ⟨fun tls tr s => by rw [pulseLow_rest], fun slot tl tw tr s => by rw [pulseSample_rest],
    fun _ _ _ h => (CommandRuns.of_exec h).sameHost.gie⟩

/-! ## The released line (R144) -/

theorem pulseLow_released (tls : List Nat) (tr : Nat) (s : State) :
    (pulseLow tls tr s).ctl.pulling = false ∧ (pulseLow tls tr s).ctl.released (pulseLow tls tr s).io := by
  rw [pulseLow_rest, pulseLow_ctl]
  exact ⟨rfl, pulseIo_released s.ctl s.io⟩

theorem pulseSample_released (slot : SlotKind) (tl tw tr : Nat) (s : State) :
    (pulseSample slot tl tw tr s).2.ctl.pulling = false ∧
      (pulseSample slot tl tw tr s).2.ctl.released (pulseSample slot tl tw tr s).2.io := by
  rw [pulseSample_rest, pulseSample_ctl]
  exact ⟨rfl, pulseIo_released s.ctl s.io⟩

/-- The pin that `CONFIG` binds is released when it ends (R145). -/
theorem config_released (ddr port pin : Ref) (idx : PinIndex) (s : State) :
    let t := complete (.config ddr port pin idx) (configBody ddr port pin idx) s
    t.ctl.pulling = false ∧ t.ctl.released t.io := by
  obtain ⟨hctl, -, -, -, u, hu, -, -, hreleased⟩ := config_spec ddr port pin idx s
  rw [hu, hctl]
  exact ⟨rfl, hreleased⟩

/-- Settles O45: a pulse and `CONFIG` clear the two bits, and so does every slot of a bus command. -/
theorem primitivesEndReleased : Obligations.PrimitivesEndReleased := by
  refine ⟨pulseLow_released, pulseSample_released, fun ddr port pin idx s t h => ?config, fun i s t hi hc h => ?bus⟩
  case config =>
    cases h
    exact config_released ddr port pin idx s
  case bus =>
    obtain ⟨sls, v, u, hne, hsls, rfl⟩ := exec_bus_slots hi hc h
    have hran := ranSlots_of_slots .done v hsls hne
    exact ⟨hran.notPulling, hran.released⟩

/-- Settles O28: the slots clear the bound bits, and with no handler running nothing else is written. -/
theorem busCommandsChangeOnlyTheBoundBits : Obligations.BusCommandsChangeOnlyTheBoundBits := by
  intro i s t hi hc hq h
  obtain ⟨sls, v, u, hne, hsls, rfl⟩ := exec_bus_slots hi hc h
  exact hsls.io_quiet hq (hsls.cleared hne (accept_slots_bound i s))

/-! ## CONFIG (R145 to R147, R241) -/

/-- Settles O13: `config_spec`, with the released pin in the operands' terms. -/
theorem configBindsAndReleases : Obligations.ConfigBindsAndReleases := by
  intro ddr port pin idx s
  obtain ⟨hctl, hrw, hdraws, hlines, u, hu, -, hstep, hreleased⟩ := config_spec ddr port pin idx s
  refine ⟨_, rfl, hctl, (CommandRuns.config rfl).sameHost, hrw, hdraws, hlines, ?_⟩
  rw [hu]
  exact ⟨hstep.handlers, hreleased⟩

/-- The state with the controller in use bound to a pin and configured: the binding that `CONFIG` leaves (R145). -/
def boundTo (ddr port pin : Ref) (idx : PinIndex) (s : State) : State :=
  { s with ctl := { s.ctl with ddrRef := ddr, portRef := port, pinRef := pin, pinIdx := idx, configured := true } }

/-- While `CONFIG` runs its new binding is in force: the host leaves the same bits alone as after it (R241). -/
theorem hostKeeps_configStart (ddr port pin : Ref) (idx : PinIndex) (s : State) (r : Ref) :
    hostKeeps r (configStart ddr port pin idx s) = hostKeeps r (boundTo ddr port pin idx s) := by
  simp [hostKeeps, configStart, boundTo, Controller.boundMask, Controller.bound, Controller.mask]

theorem HandlerWrites.of_configStart {ddr port pin : Ref} {idx : PinIndex} {s : State} {a k : Nat} {v : Bool}
    (hw : HandlerWrites (configStart ddr port pin idx s) a k v) : HandlerWrites (boundTo ddr port pin idx s) a k v := by
  obtain ⟨hg, ws, hws, w, hw, ha, hk, hv⟩ := hw
  exact ⟨hg, ws, hws, w, hw, ha, hostKeeps_configStart ddr port pin idx s w.ref ▸ hk, hv⟩

/-- Settles O15: `IoStep.io` of the steps after the binding, whose handlers run under that binding. -/
theorem onlyHandlersChangeOtherBitsInConfig : Obligations.OnlyHandlersChangeOtherBitsInConfig := by
  intro ddr port pin idx s t h
  cases h
  obtain ⟨-, -, -, -, u, hu, -, hstep, -⟩ := config_spec ddr port pin idx s
  rw [hu]
  exact ⟨fun a k => (hstep.io a k).imp_right (Or.imp_right HandlerWrites.of_configStart), hstep.masked⟩

/-- After its binding `CONFIG` opens a window, and `configTail` four more (R145, R241). -/
theorem config_hears (ddr port pin : Ref) (idx : PinIndex) (s : State) :
    Hears 0 5 (configStart ddr port pin idx s) (configTail (window (configStart ddr port pin idx s))) :=
  (Hears.window _).trans (Hears.configTail _)

/-- The last step of `CONFIG` and its response touch neither the I/O space nor the handlers. -/
theorem config_eq_configTail (ddr port pin : Ref) (idx : PinIndex) (s : State) :
    complete (.config ddr port pin idx) (configBody ddr port pin idx) s =
      respond .done 0x00#8 (setConfigured (configTail (window (configStart ddr port pin idx s)))) := rfl

/-- Settles O59: the five windows of `config_hears`, in which the new binding is in force. -/
theorem handlersRunDuringConfig : Obligations.HandlersRunDuringConfig := by
  intro ddr port pin idx s t hg h
  cases h
  have hheard := (config_hears ddr port pin idx s).heard (accept_slots_bound _ s) hg
  rw [config_eq_configTail]
  exact ⟨hheard.handlers, fun r k hk => hheard.bits r k (hostKeeps_configStart ddr port pin idx s r ▸ hk)⟩

/-! ## WBIT and RBIT (R150 to R153) -/

/-- Settles O19: `WBIT` is the one write slot of `wbit_slots`, whose segment is written out for each bit. -/
theorem wbitWritesOneSlot : Obligations.WbitWritesOneSlot := by
  intro b s hc
  obtain ⟨hran, (hrw : _ = some (responseWord .done 0x00#8)), hid, hdev⟩ :=
    busCommand_spec (body := fun s => noResult (writeBit b s)) hc (wbit_slots b (accept (.wbit b) s)) (by simp)
  have hblock : SameBlock s.ctl (busCommand (.wbit b) (fun s => noResult (writeBit b s)) s).ctl :=
    ⟨hran.binding, hid.trans (writeBit_romId b _), hdev.trans (writeBit_lastDev b _)⟩
  refine ⟨_, rfl, hran, hblock, hrw, ?trace, fun hdefault => ?default⟩
  case trace =>
    rw [hran.trace]
    cases b <;> rfl
  case default =>
    rw [hran.trace, hdefault]
    cases b <;> rfl

/-- `RBIT` keeps the block registers (R152). -/
theorem rbit_sameBlock {s t : State} (hc : s.ctl.configured = true) (h : exec .rbit s = .next t) :
    SameBlock s.ctl t.ctl := by
  cases h
  obtain ⟨hran, -, hid, hdev⟩ := busCommand_spec (body := fun s => (bitResult (readBit s).1, (readBit s).2)) hc
    (rbit_slots (accept .rbit s)) (by simp)
  exact ⟨hran.binding, hid.trans (readBit_romId _), hdev.trans (readBit_lastDev _)⟩

/-- Settles O20: `rbit_spec`, with the segment of its read slot written out. -/
theorem rbitReadsOneSlot : Obligations.RbitReadsOneSlot := by
  intro s hc
  obtain ⟨t, hexec, hran, hrw⟩ := rbit_spec hc
  refine ⟨t, _, hexec, rfl, hran, rbit_sameBlock hc hexec, hrw, hran.trace, fun hdefault => ?_⟩
  rw [hran.trace, hdefault]
  rfl

end Sys2Proof.Machine
end

section
/-! PROOFS. The statement on presence detection (41_presence.md): `PRES` and its reset slot (rules R171, R172). -/

namespace Sys2Proof.Machine

@[simp] theorem resetSlot_romId (s : State) : (resetSlot s).2.ctl.romId = s.ctl.romId := by rw [resetSlot_snd]
@[simp] theorem resetSlot_lastDev (s : State) : (resetSlot s).2.ctl.lastDev = s.ctl.lastDev := by rw [resetSlot_snd]

/-- `PRES` keeps the block registers (R171). -/
theorem pres_sameBlock {s t : State} (hc : s.ctl.configured = true) (h : exec .pres s = .next t) :
    SameBlock s.ctl t.ctl := by
  cases h
  obtain ⟨hran, -, hid, hdev⟩ := busCommand_spec (body := fun s => (presenceResult (resetSlot s).1, (resetSlot s).2)) hc
    (pres_slots (accept .pres s)) (by simp)
  exact ⟨hran.binding, hid.trans (resetSlot_romId _), hdev.trans (resetSlot_lastDev _)⟩

/-- Settles O21: `pres_spec`, with the segment of its reset slot written out. -/
theorem presRunsTheResetSlot : Obligations.PresRunsTheResetSlot := by
  intro s hc
  obtain ⟨t, hexec, hran, hrw⟩ := pres_spec hc
  refine ⟨t, _, hexec, rfl, hran, pres_sameBlock hc hexec, hrw, hran.trace, fun hdefault => ?_⟩
  rw [hran.trace, hdefault]
  rfl

end Sys2Proof.Machine
end

section
/-! PROOFS. The statements on byte transfer (42_byte_transfer.md): `SENDB` and `RECVB` as eight slots (rules R181 to
R185), and the handlers that run in the windows between the slots of a bus command (60_exceptions.md rule R241). -/

namespace Sys2Proof.Machine

/-! ## SENDB and RECVB (R181 to R184) -/

/-- `SENDB` is the eight write slots of its operand, and keeps the block registers (R181, R182). -/
theorem sendb_spec (v : Byte) {s : State} (hc : s.ctl.configured = true) :
    ∃ t, exec (.sendb v) s = .next t ∧ RanSlots (byteWriteSlots v) s t ∧ SameBlock s.ctl t.ctl ∧
      t.rw = some 0x0000#16 := by
  obtain ⟨hran, (hrw : _ = some (responseWord .done 0x00#8)), hid, hdev⟩ :=
    busCommand_spec (body := fun s => noResult (sendByte v s)) hc (sendb_slots v (accept (.sendb v) s))
      (byteWriteSlots_ne v)
  exact ⟨_, rfl, hran, ⟨hran.binding, hid.trans (sendByte_romId v _), hdev.trans (sendByte_lastDev v _)⟩, hrw⟩

/-- `RECVB` keeps the block registers (R184). -/
theorem recvb_sameBlock {s t : State} (hc : s.ctl.configured = true) (h : exec .recvb s = .next t) :
    SameBlock s.ctl t.ctl := by
  cases h
  obtain ⟨hran, -, hid, hdev⟩ := busCommand_spec hc (Slots.receiveByte (accept .recvb s)) (byteReadSlots_ne _)
  exact ⟨hran.binding, hid.trans (receiveByte_romId _), hdev.trans (receiveByte_lastDev _)⟩

/-- Settles O22: `sendb_spec`, with the bits of the operand written out in bus order. -/
theorem sendbWritesEightSlots : Obligations.SendbWritesEightSlots := fun v _ => sendb_spec v

/-- Settles O23: `recvb_spec`, with the bits of the result written out in bus order. -/
theorem recvbReadsEightSlots : Obligations.RecvbReadsEightSlots := by
  intro s hc
  obtain ⟨t, v, hexec, hran, hrw⟩ := recvb_spec hc
  exact ⟨t, v, hexec, hran, recvb_sameBlock hc hexec, hrw⟩

/-! ## RECVB inverts SENDB (R185) -/

/-- The fourth event of a write slot tells the bit: a 1 releases the line, a 0 holds it low (R150). -/
theorem segment_write_fourth (tm : Timing) (ie b : Bool) (rest : List Event) :
    ((Slot.write b).segment tm ie ++ rest)[3]? = some .rel ↔ b = true := by
  cases b <;> simp [Slot.segment, Slot.body]

/-- A trace of write slots tells the bits written. -/
theorem segments_write_inj {tm : Timing} {ie : Bool} {x y : List Bool}
    (h : segments tm ie (x.map .write) = segments tm ie (y.map .write)) : x = y := by
  induction x generalizing y with
  | nil =>
    cases y with
    | nil => rfl
    | cons b bs => simp [Slot.segment] at h
  | cons a as ih =>
    cases y with
    | nil => simp [Slot.segment] at h
    | cons b bs =>
      rw [List.map_cons, List.map_cons, segments_cons, segments_cons] at h
      have hab : a = b := Bool.eq_iff_iff.mpr
        ((segment_write_fourth tm ie a _).symm.trans (h ▸ segment_write_fourth tm ie b _))
      subst hab
      rw [ih (List.append_cancel_left h)]

/-- `RECVB` against listed answers that begin with the bits of `v` returns `v` and takes those answers (R85, R183). -/
theorem recvb_answers {v : Byte} {later : List Bool} {s : State} (hc : s.ctl.configured = true)
    (hs : s.farSide = .answers (byteBits v ++ later)) :
    ∃ t, exec .recvb s = .next t ∧ t.rw = some (0x00#8 ++ v) ∧ t.farSide = .answers later := by
  obtain ⟨t, w, hexec, hran, hrw⟩ := recvb_spec hc
  have hlen : (byteBits w).length = (byteBits v).length := by simp
  have hw : w = v := byteBits_inj (Environment.answers_reads _ _ _ _ hlen (hs ▸ hran.answers))
  refine ⟨t, hexec, hw ▸ hrw, ?_⟩
  rw [hran.env, hs]
  exact Environment.run_answers_reads _ _ _ hlen

/-- Settles O24: the trace of `SENDB` tells the bits of the byte, and `RECVB` puts them together again. -/
theorem recvbInvertsSendb : Obligations.RecvbInvertsSendb := by
  rintro v later s u hc ⟨bits, hsend, htrace, hs⟩
  obtain ⟨u', hsend', hran, -⟩ := sendb_spec v hc
  cases hsend'.symm.trans hsend
  have hbits : bits = byteBits v := segments_write_inj (List.append_cancel_left (htrace.symm.trans hran.trace))
  exact recvb_answers hc (hbits ▸ hs)

/-! ## The handlers that run in the windows of a bus command (R241) -/

/-- The handlers that a bus command hears, from the windows of its body. -/
theorem busCommand_heard {i : Instr} {body : State → Byte × State} {s t : State} {m n : Nat}
    (hc : s.ctl.configured = true) (hg : s.gie = true) (h : Hears m n (accept i s) (body (accept i s)).2)
    (ht : Host.Outcome.next (φ := Fault) (ρ := Refusal) (busCommand i body s) = .next t) : Heard n s t := by
  cases ht
  have hheard := h.heard (accept_slots_bound i s) hg
  rw [busCommand, if_pos hc]
  exact ⟨hheard.handlers, fun r k hk => hheard.bits r k (hostKeeps_accept i s hc r ▸ hk)⟩

/-- The slots that a bus command adds to the trace, from those of its body. -/
theorem busCommand_slotCount {i : Instr} {body : State → Byte × State} {s : State} {m n : Nat} {new : List Event}
    (hc : s.ctl.configured = true) (h : Hears m n (accept i s) (body (accept i s)).2)
    (htrace : (busCommand i body s).ctl.trace = s.ctl.trace ++ new) :
    slotCount ((busCommand i body s).ctl.trace.drop s.ctl.trace.length) = m := by
  have hslots : slotCount (busCommand i body s).ctl.trace = slotCount s.ctl.trace + m := by
    rw [busCommand, if_pos hc]
    exact h.slots
  rw [htrace, slotCount_append] at hslots
  rw [drop_of_trace_append htrace]
  omega

/-- Whatever the bus command, one handler runs between any two of its slots. -/
theorem exec_bus_heard {i : Instr} {s t : State} (hi : i.isBusCommand = true) (hc : s.ctl.configured = true)
    (hg : s.gie = true) (h : exec i s = .next t) :
    Heard (slotCount (t.ctl.trace.drop s.ctl.trace.length) - 1) s t := by
  obtain ⟨sls, v, u, -, hsls, ht⟩ := exec_bus_slots hi hc h
  obtain ⟨body, hexec, hbody⟩ := exec_bus_hears i hi
  obtain ⟨n, hhears⟩ := hbody (accept i s)
  have hrun := (hexec s).symm.trans h
  have hheard : Heard n s t := busCommand_heard hc hg hhears hrun
  have htrace : t.ctl.trace = s.ctl.trace ++ segments s.timing s.gie sls := ht ▸ hsls.trace
  cases hrun
  rwa [busCommand_slotCount hc hhears htrace]

/-- Settles O58: `exec_bus_heard` for any bus command, and the windows of each body that has a fixed number of slots. -/
theorem handlersRunInTheWindows : Obligations.HandlersRunInTheWindows := by
  refine fun i s t hi hc hg h => ⟨exec_bus_heard hi hc hg h, ?byte, ?rom, ?single⟩
  case byte =>
    rintro (⟨v, rfl⟩ | rfl)
    · exact busCommand_heard hc hg (Hears.sendByte v _) h
    · exact busCommand_heard hc hg (Hears.receiveByte _) h
  case rom =>
    rintro (rfl | rfl)
    · exact busCommand_heard hc hg (Hears.readRomBody _) h
    · exact busCommand_heard hc hg (Hears.matchRomBody _) h
  case single =>
    rintro (⟨b, rfl⟩ | rfl | rfl)
    · exact busCommand_heard hc hg (Hears.writeBit b _) h
    · exact busCommand_heard hc hg (Hears.readBit _) h
    · exact busCommand_heard hc hg (Hears.resetSlot _) h

end Sys2Proof.Machine
end

section
/-! PROOFS. The statements on the ROM commands (43_rom_commands.md): a pass of `SRCHROM` by its samples (rules R200 to
R208), `RDROM` and `MATCHROM` on the reference bus (rules R192, R194), and the enumeration of a bus (rules R209, R210). -/

namespace Sys2Proof.Machine

/-! ## A pass by its samples (R200 to R208) -/

theorem mem_take_finRange {p : Position} {n : Nat} : p ∈ (List.finRange 64).take n ↔ p.val < n := by
  rw [List.mem_take_iff_getElem]
  simp [Fin.ext_iff]

theorem le_of_mem_drop_finRange {p : Position} {m : Nat} (h : p ∈ (List.finRange 64).drop m) : m ≤ p.val := by
  obtain ⟨i, hi, rfl⟩ := List.mem_drop_iff_getElem.mp h
  simp

theorem take_finRange_succ (p : Position) :
    (List.finRange 64).take (p.val + 1) = (List.finRange 64).take p.val ++ [p] := by
  simp [List.take_add_one]

theorem turnsOf_congr {a b a' b' : Position → Bool} {ps : List Position} (ha : ∀ p ∈ ps, a p = a' p)
    (hb : ∀ p ∈ ps, b p = b' p) : turnsOf a b ps = turnsOf a' b' ps :=
  List.map_congr_left fun p hp => by rw [ha p hp, hb p hp]

/-- Turns at different positions read what two functions of the position say. -/
theorem exists_eq_turnsOf {turns : List Turn} (h : (turns.map Prod.fst).Nodup) :
    ∃ a b, turns = turnsOf a b (turns.map Prod.fst) := by
  induction turns with
  | nil => exact ⟨fun _ => false, fun _ => false, rfl⟩
  | cons x rest ih =>
    obtain ⟨p, u, v⟩ := x
    obtain ⟨hp, hrest⟩ := List.nodup_cons.mp h
    obtain ⟨a, b, heq⟩ := ih hrest
    have hne : ∀ q ∈ rest.map Prod.fst, q ≠ p := fun q hq hqp => hp (hqp ▸ hq)
    refine ⟨Function.update a p u, Function.update b p v, ?_⟩
    have hcongr : turnsOf a b (rest.map Prod.fst) =
        turnsOf (Function.update a p u) (Function.update b p v) (rest.map Prod.fst) :=
      turnsOf_congr (fun q hq => (Function.update_of_ne (hne q hq) _ _).symm)
        (fun q hq => (Function.update_of_ne (hne q hq) _ _).symm)
    rw [hcongr] at heq
    simpa [turnsOf] using heq

/-- The deviation recorded over a list of positions is the last of them that recorded (R202, R205). -/
theorem recordedDev_turnsOf (ld : Byte) (id : RomId) (a b : Position → Bool) (ps : List Position) (nd : Byte) :
    recordedDev ld id nd (turnsOf a b ps) =
      (ps.filter fun p => recordsDeviation ld p (a p) (b p) (idBit id p)).getLast?.elim nd Position.number := by
  induction ps generalizing nd with
  | nil => rfl
  | cons p rest ih =>
    have hstep : recordedDev ld id nd (turnsOf a b (p :: rest)) = recordedDev ld id
        (if recordsDeviation ld p (a p) (b p) (idBit id p) then p.number else nd) (turnsOf a b rest) := rfl
    rw [hstep, ih, List.filter_cons]
    split
    · rw [List.getLast?_cons]
      cases (rest.filter fun p => recordsDeviation ld p (a p) (b p) (idBit id p)).getLast? <;> rfl
    · rfl

theorem mem_turnsOf {a b : Position → Bool} {ps : List Position} {p : Position} (h : p ∈ ps) :
    (p, a p, b p) ∈ turnsOf a b ps := List.mem_map_of_mem h

theorem flatMap_turnsOf {α : Type} (f : Turn → List α) (a b : Position → Bool) (ps : List Position) :
    (turnsOf a b ps).flatMap f = ps.flatMap fun p => f (p, a p, b p) := List.flatMap_map ..

/-- A full pass reads two bits at every position (R200). -/
theorem FullPass.exists_turnsOf {s t : State} {turns : List Turn} (h : FullPass s t turns) :
    ∃ a b, FullPass s t (turnsOf a b (List.finRange 64)) := by
  obtain ⟨a, b, heq⟩ := exists_eq_turnsOf (turns := turns) (h.positions_eq ▸ List.nodup_finRange 64)
  rw [h.positions_eq] at heq
  exact ⟨a, b, heq ▸ h⟩

section
variable {s t : State} {a b : Position → Bool} {ps qs : List Position} {p : Position}

theorem AfterTurns.someone_at (h : AfterTurns ps s t (turnsOf a b qs)) (hp : p ∈ qs) : ¬ (a p = true ∧ b p = true) :=
  h.someone (p, a p, b p) (mem_turnsOf hp)

/-- A position that had its turn ends as its branch says (R204 to R207). -/
theorem AfterTurns.idBit_at (h : AfterTurns ps s t (turnsOf a b qs)) (hp : p ∈ qs) :
    idBit t.ctl.romId p = chosenBit s.ctl.lastDev p (a p) (b p) (idBit s.ctl.romId p) :=
  h.found (p, a p, b p) (mem_turnsOf hp)

/-- `LASTDEV` ends as the last position that recorded, or `DEV_NONE` (R202). -/
theorem FullPass.lastDev_eq (h : FullPass s t (turnsOf a b (List.finRange 64))) {last : Option Position}
    (hlast : ((List.finRange 64).filter fun p =>
      recordsDeviation s.ctl.lastDev p (a p) (b p) (idBit s.ctl.romId p)).getLast? = last) :
    t.ctl.lastDev = last.elim Config.devNone Position.number := by
  rw [h.lastDev, recordedDev_turnsOf, hlast]

end

/-- The turns of an aborted pass with the pair of reads that ended it: nobody answered at the next position (R203). -/
theorem AbortedPass.asked {s t : State} {turns : List Turn} (h : AbortedPass s t turns) :
    ∃ p : Position, p.val = turns.length ∧
      (turns ++ [(p, true, true)]).map Prod.fst = (List.finRange 64).take (p.val + 1) ∧
      s.farSide.Answers s.draws (passSlots s (turns ++ [(p, true, true)])) := by
  refine ⟨⟨turns.length, h.short⟩, rfl, ?_, ?_⟩
  · rw [take_finRange_succ, List.map_append, h.positions]
    rfl
  · have hslots : ∀ p, passSlots s (turns ++ [(p, true, true)]) = passSlots s turns ++ [.read true, .read true] ++
        [.write (chosenBit s.ctl.lastDev p true true (idBit s.ctl.romId p))] := by
      simp [passSlots, turnSlots]
    rw [hslots, Environment.answers_append]
    exact ⟨h.ran.answers, trivial⟩

/-- An aborted pass reads two bits at every position up to one where both are 1 (R203). -/
theorem AbortedPass.exists_turnsOf {s t : State} {turns : List Turn} (h : AbortedPass s t turns) :
    ∃ a b p, AbortedPass s t (turnsOf a b ((List.finRange 64).take p.val)) ∧ a p = true ∧ b p = true := by
  obtain ⟨p, -, hpos, -⟩ := h.asked
  obtain ⟨a, b, heq⟩ := exists_eq_turnsOf (turns := turns ++ [(p, true, true)])
    (hpos ▸ (List.nodup_finRange 64).sublist (List.take_sublist _ _))
  rw [hpos, take_finRange_succ, turnsOf, List.map_append] at heq
  obtain ⟨hturns, hlast⟩ := List.append_inj' heq rfl
  have hp : (p, true, true) = (p, a p, b p) := List.singleton_inj.mp hlast
  obtain ⟨ha, hb⟩ : true = a p ∧ true = b p := by simpa using hp
  refine ⟨a, b, p, ?_, ha.symm, hb.symm⟩
  rw [hturns] at h
  exact h

/-- The position of the abort and those after it are unchanged (R203). -/
theorem AbortedPass.idBit_from {s t : State} {a b : Position → Bool} {p q : Position}
    (h : AbortedPass s t (turnsOf a b ((List.finRange 64).take p.val))) (hq : p ≤ q) :
    idBit t.ctl.romId q = idBit s.ctl.romId q :=
  h.kept q fun hmem => by
    rw [turnsOf_fst, mem_take_finRange] at hmem
    exact absurd hq (not_le.mpr hmem)

theorem FullPass.response {s t : State} {turns : List Turn} (h : FullPass s t turns) :
    t.rw = some (0x00#8 ++ t.ctl.lastDev) := by rw [h.rw, responseWord_done]

/-- Settles O27: a full pass stores what it returns, an aborted one returns 0xFF and stores nothing. -/
theorem srchromCompletes : Obligations.SrchromCompletes := by
  intro s hc
  obtain ⟨t, turns, hexec, hfull | habort⟩ := srchrom_spec hc
  · refine ⟨t, hexec, ⟨_, byteWriteSlots_append_ne _ _, hfull.ran⟩, .inr ⟨hfull.response, ?_⟩⟩
    rw [hfull.lastDev]
    exact recordedDev_le _ _ _ _ (by decide)
  · exact ⟨t, hexec, ⟨_, by simp, habort.ran⟩, .inl ⟨habort.rw, habort.lastDev⟩⟩

/-- Settles O32: the two bits of a position are those its turn read, and the pair that ended an aborted pass was 1, 1. -/
theorem searchFollowsItsSamples : Obligations.SearchFollowsItsSamples := by
  intro s hc
  obtain ⟨t, turns, hexec, hfull | habort⟩ := srchrom_spec hc
  · obtain ⟨a, b, h⟩ := hfull.exists_turnsOf
    have hran := h.ran
    rw [passSlots, flatMap_turnsOf] at hran
    refine ⟨t, a, b, hexec, .inl ⟨fun p => h.someone_at (List.mem_finRange p), hran,
      fun p => h.idBit_at (List.mem_finRange p), ?_, h.response⟩⟩
    split <;> exact h.lastDev_eq ‹_›
  · obtain ⟨a, b, p, h, ha, hb⟩ := habort.exists_turnsOf
    have hran := h.ran
    rw [passSlots, flatMap_turnsOf] at hran
    exact ⟨t, a, b, hexec, .inr ⟨p, fun _ hq => h.someone_at (mem_take_finRange.mpr hq), ha, hb, hran,
      fun _ hq => h.idBit_at (mem_take_finRange.mpr hq), fun _ => h.idBit_from, h.lastDev, h.rw⟩⟩

/-! ## A pass under listed answers (R85, R200) -/

/-- A pass that begins with answers listed in pairs, for the positions below `m`, reads those pairs there. -/
theorem turns_listed {a b : Position → Bool} {m : Nat} {later : List Bool} {s : State} {turns : List Turn}
    (hs : s.farSide = .answers (((List.finRange 64).take m).flatMap (fun q => [a q, b q]) ++ later))
    (hpos : turns.map Prod.fst = (List.finRange 64).take turns.length)
    (ha : s.farSide.Answers s.draws (passSlots s turns)) {x : Turn} (hx : x ∈ turns) (hm : x.1.val < m) :
    x.2 = (a x.1, b x.1) := by
  have htake : x ∈ turns.take m := by
    refine (List.mem_append.mp ((List.take_append_drop m turns).symm ▸ hx)).resolve_right fun hdrop => ?_
    have hmem : x.1 ∈ (turns.map Prod.fst).drop m := List.map_drop ▸ List.mem_map_of_mem hdrop
    rw [hpos, List.drop_take] at hmem
    exact absurd hm (not_lt.mpr (le_of_mem_drop_finRange (List.mem_of_mem_take hmem)))
  rw [passSlots, ← List.take_append_drop m turns, List.flatMap_append, ← List.append_assoc, Environment.answers_append,
    Environment.answers_append, byteWriteSlots, hs, Environment.run_answers_writes] at ha
  obtain ⟨heq, -⟩ := turns_answers a b _ _ later (turns.take m) _ _
    (by rw [List.map_take, hpos, List.take_take, List.take_take, List.length_take, min_comm]; congr 1; omega) ha.1.2
  rw [heq] at htake
  obtain ⟨q, -, rfl⟩ := List.mem_map.mp htake
  rfl

/-- A pass that ended within the listed pairs took the turns that they give. -/
theorem AfterTurns.turns_eq_listed {a b : Position → Bool} {m : Nat} {later : List Bool} {s t : State}
    {turns : List Turn} (h : AfterTurns (List.finRange 64) s t turns)
    (hs : s.farSide = .answers (((List.finRange 64).take m).flatMap (fun q => [a q, b q]) ++ later))
    (ha : s.farSide.Answers s.draws (passSlots s turns)) (hm : turns.length ≤ m) :
    turns = turnsOf a b ((List.finRange 64).take turns.length) := by
  have hread : ∀ x ∈ turns, x.2 = (a x.1, b x.1) := fun x hx =>
    turns_listed hs h.positions ha hx
      ((mem_take_finRange.mp (h.positions ▸ List.mem_map_of_mem hx)).trans_le hm)
  rw [← h.positions, turnsOf, List.map_map]
  exact (List.map_id turns).symm.trans (List.map_congr_left fun x hx => by simp [← hread x hx])

/-- A pass aborts within the listed pairs only at a pair 1, 1 (R203). -/
theorem AbortedPass.nobody_listed {a b : Position → Bool} {m : Nat} {later : List Bool} {s t : State}
    {turns : List Turn} (h : AbortedPass s t turns)
    (hs : s.farSide = .answers (((List.finRange 64).take m).flatMap (fun q => [a q, b q]) ++ later)) :
    ∃ q : Position, q.val = turns.length ∧ (q.val < m → a q = true ∧ b q = true) := by
  obtain ⟨q, hq, hpos, ha⟩ := h.asked
  refine ⟨q, hq, fun hm => ?_⟩
  have hpair := turns_listed (x := (q, true, true)) hs (by simpa [hq] using hpos) ha (by simp) hm
  obtain ⟨haq, hbq⟩ : true = a q ∧ true = b q := by simpa using hpair
  exact ⟨haq.symm, hbq.symm⟩

/-- Turns that read the listed pairs leave the rest of the list. -/
theorem run_listed_turns (a b : Position → Bool) (ld : Byte) (id : RomId) (later : List Bool) (ps : List Position) :
    (Environment.answers (ps.flatMap (fun p => [a p, b p]) ++ later)).run ((turnsOf a b ps).flatMap (turnSlots ld id)) =
      .answers later := by
  induction ps with
  | nil => rfl
  | cons p rest ih => exact ih

/-- The slots of turns at the positions `ps`, by the bits they leave in `ROM_ID`. -/
theorem AfterTurns.passSlots_eq {s t : State} {a b : Position → Bool} {ps : List Position}
    (h : AfterTurns (List.finRange 64) s t (turnsOf a b ps)) :
    passSlots s (turnsOf a b ps) = byteWriteSlots Config.searchRomByte ++
      ps.flatMap fun q => [.read (a q), .read (b q), .write (idBit t.ctl.romId q)] := by
  rw [passSlots, h.slots, flatMap_turnsOf]

/-- Settles O30: the turns read the listed pairs, none of which is 1, 1. -/
theorem searchPassFollowsItsBranches : Obligations.SearchPassFollowsItsBranches := by
  intro a b later s hc hsome hs
  have htake : (List.finRange 64).take 64 = List.finRange 64 := List.take_of_length_le (by simp)
  have hlisted := hs
  rw [← htake] at hlisted
  obtain ⟨t, turns, hexec, hfull | habort⟩ := srchrom_spec hc
  · have heq := hfull.turns_eq_listed hlisted hfull.ran.answers hfull.all.le
    rw [hfull.all, htake] at heq
    rw [heq] at hfull
    refine ⟨t, hexec, fun p => hfull.idBit_at (List.mem_finRange p), ?_, hfull.response,
      hfull.passSlots_eq ▸ hfull.ran, ?_⟩
    · split <;> exact hfull.lastDev_eq ‹_›
    · rw [hfull.ran.env, hs, passSlots, Environment.run_append, byteWriteSlots, Environment.run_answers_writes,
        run_listed_turns]
  · obtain ⟨p, -, hpair⟩ := habort.nobody_listed hlisted
    exact absurd (hpair p.isLt) (hsome p)

/-- Listed pairs for the positions below `p` and then 1, 1, as listed pairs for the positions up to `p`. -/
theorem listed_then_nobody (a b : Position → Bool) (p : Position) (later : List Bool) :
    ((List.finRange 64).take p.val).flatMap (fun q => [a q, b q]) ++ true :: true :: later =
      ((List.finRange 64).take (p.val + 1)).flatMap
        (fun q => [Function.update a p true q, Function.update b p true q]) ++ later := by
  have hbelow : ∀ q ∈ (List.finRange 64).take p.val,
      [Function.update a p true q, Function.update b p true q] = [a q, b q] := fun q hq => by
    have hne : q ≠ p := Fin.ne_of_lt (mem_take_finRange.mp hq)
    rw [Function.update_of_ne hne, Function.update_of_ne hne]
  rw [take_finRange_succ, List.flatMap_append, List.flatMap_congr hbelow]
  simp

/-- With the pair 1, 1 listed for `p` a pass ends there, if not before. -/
theorem AfterTurns.length_le {s t : State} {turns : List Turn} {a b : Position → Bool} {p : Position}
    {later : List Bool} (h : AfterTurns (List.finRange 64) s t turns)
    (hs : s.farSide = .answers (((List.finRange 64).take p.val).flatMap (fun q => [a q, b q]) ++ true :: true :: later))
    (ha : s.farSide.Answers s.draws (passSlots s turns)) : turns.length ≤ p.val := by
  by_contra hlong
  have hmem : p ∈ turns.map Prod.fst := h.positions ▸ mem_take_finRange.mpr (not_le.mp hlong)
  obtain ⟨x, hx, rfl⟩ := List.mem_map.mp hmem
  have hpair := turns_listed (hs.trans (congrArg _ (listed_then_nobody ..))) h.positions ha hx (Nat.lt_succ_self _)
  exact h.someone x hx (by simp [hpair])

/-- Settles O31: the turns read the listed pairs, the first of which that is 1, 1 is that of `p`. -/
theorem searchAbortsWhereNobodyAnswers : Obligations.SearchAbortsWhereNobodyAnswers := by
  intro a b p later s hc hsome hs
  obtain ⟨t, turns, hexec, hfull | habort⟩ := srchrom_spec hc
  · have hle := hfull.length_le hs hfull.ran.answers
    rw [hfull.all] at hle
    exact absurd hle (not_le.mpr p.isLt)
  · have ha : s.farSide.Answers s.draws (passSlots s turns) :=
      ((Environment.answers_append ..).mp habort.ran.answers).1
    have hle := habort.length_le hs ha
    obtain ⟨q, hq, hpair⟩ := habort.nobody_listed hs
    have hqp : q = p := le_antisymm (Fin.le_def.mpr (hq ▸ hle)) (not_lt.mp fun hlt => hsome q hlt (hpair hlt))
    subst hqp
    have heq := habort.turns_eq_listed hs ha hle
    rw [← hq] at heq
    have hcount : slotCount (t.ctl.trace.drop s.ctl.trace.length) = 8 + 3 * q.val + 2 := by
      rw [habort.ran.slotCount, hq, passSlots, List.length_append, List.length_append, turnSlots_length,
        byteWriteSlots_length]
      rfl
    rw [heq] at habort
    refine ⟨t, hexec, habort.rw, habort.lastDev, fun _ => habort.idBit_from,
      fun _ hq => habort.idBit_at (mem_take_finRange.mpr hq),
      habort.passSlots_eq ▸ habort.ran, hcount⟩

/-! ## RDROM and MATCHROM on the reference bus (R192, R194) -/

/-- Settles O37: the devices decode 0x33, and every sample is the AND of their bits (`run_bus_readRom`). -/
theorem rdromUnderTheBus : Obligations.RdromUnderTheBus := by
  intro devs s hc hs hdevs
  obtain ⟨t, hexec, hran, -, hrw⟩ := rdrom_spec hc
  have hdecode : s.farSide.run (byteWriteSlots Config.readRomByte) =
      .bus (among (fun _ => true) (.readRom ⟨0, by decide⟩) devs) := by
    have hbyte : decodeRomCommand Config.readRomByte = .readRom ⟨0, by decide⟩ := by decide
    rw [hs]
    conv_lhs => rw [among_of_all hdevs]
    rw [run_bus_byte, hbyte]
  have hanswers := ((Environment.answers_append ..).mp hran.answers).2
  rw [hdecode] at hanswers
  obtain ⟨hrun, hbits⟩ := run_bus_readRom devs t.ctl.romId 63 0 (by decide) _ rfl hanswers
  have hbit : ∀ p, idBit t.ctl.romId p = devs.all fun d => idBit d.rom p := fun p => hbits p (Nat.zero_le _)
  refine ⟨t, hexec, hrw, hbit, ?_, ?_⟩
  · rw [hran.env, Environment.run_append, hdecode, idBits, ← List.drop_zero (l := List.finRange 64), hrun]
    simp [among]
  · rintro d rfl
    exact romId_ext fun p => by simp [hbit]

/-- A bus command leaves a configured controller configured. -/
theorem exec_bus_configured {i : Instr} {s t : State} (hi : i.isBusCommand = true) (hc : s.ctl.configured = true)
    (h : exec i s = .next t) : t.ctl.configured = true := by
  obtain ⟨sls, v, u, hne, hsls, rfl⟩ := exec_bus_slots hi hc h
  exact (ranSlots_of_slots .done v hsls hne).binding.configured.trans hc

/-- `PRES` on the reference bus: every device goes to the start of a ROM command, and no block register changes (R91,
R171). -/
theorem pres_bus {devs : List Device} {s : State} (hc : s.ctl.configured = true) (hs : s.farSide = .bus devs) :
    ∃ u, exec .pres s = .next u ∧ SameBlock s.ctl u.ctl ∧ u.ctl.configured = true ∧
      u.farSide = .bus (devs.map Device.reset) := by
  obtain ⟨u, hexec, -, hfar⟩ := presenceUnderTheBus devs s hc hs
  exact ⟨u, hexec, pres_sameBlock hc hexec, exec_bus_configured rfl hc hexec, hfar⟩

theorem reset_st {devs : List Device} : ∀ d ∈ devs.map Device.reset, d.st = .cmd 0 0x00#8 := by
  simp [Device.reset]

/-- Settles O39: `RDROM` leaves the identifier that `MATCHROM` then sends, and `PRES` keeps it in between. -/
theorem readThenMatchSelectsTheDevice : Obligations.ReadThenMatchSelectsTheDevice := by
  intro d s hc hs
  obtain ⟨t1, hexec1, -, hc1, hs1⟩ := pres_bus hc hs
  obtain ⟨t2, hexec2, -, -, hs2, hid⟩ := rdromUnderTheBus _ t1 hc1 hs1 reset_st
  have hc2 := exec_bus_configured rfl hc1 hexec2
  have hid2 : t2.ctl.romId = d.rom := hid d.reset rfl
  obtain ⟨t3, hexec3, hblock, hc3, hs3⟩ := pres_bus hc2 hs2
  obtain ⟨t4, hexec4, hs4⟩ := matchromUnderTheBus _ t3 hc3 hs3 reset_st
  refine ⟨t1, t2, t3, t4, hexec1, hexec2, hexec3, hexec4, hid2, ?_⟩
  rw [hs4, hblock.romId, hid2]
  simp [Device.reset]

/-! ## A pass on the reference bus (R99, R200 to R208) -/

/-- A pass of `SRCHROM` on the bus `devs` that found a device: what it left, in terms of the devices alone. -/
structure BusPass (devs : List Device) (s t : State) : Prop where
  exec : exec .srchrom s = .next t
  response : t.rw = some (0x00#8 ++ t.ctl.lastDev)
  found : ∃ d ∈ devs, d.rom = t.ctl.romId
  farSide : t.farSide = .bus (among (fun rom => decide (rom = t.ctl.romId)) .selected devs)
  /-- a discrepancy ends as branch 4a, 4b or 4c says (R204 to R206) -/
  chosen : ∀ p, disagreeAt devs t.ctl.romId p →
    idBit t.ctl.romId p = chosenBit s.ctl.lastDev p false false (idBit s.ctl.romId p)
  /-- no unexplored branch stands above `LASTDEV` (R202) -/
  highest : ∀ q, openAt devs t.ctl.romId q → q.number ≤ t.ctl.lastDev
  /-- `LASTDEV` is an unexplored branch, or `DEV_NONE` (R202) -/
  deviation : t.ctl.lastDev = 0x00#8 ∨ ∃ p, t.ctl.lastDev = p.number ∧ openAt devs t.ctl.romId p

section
variable {devs : List Device} {s t : State} {a b : Position → Bool}

/-- A position records itself where the devices disagree, with `LASTDEV` below it or 0 found there before (R205, R206). -/
theorem recordsDeviation_iff {ld : Byte} {old r : RomId} {p : Position} {u v : Bool}
    (h : u = v ↔ disagreeAt devs r p) :
    recordsDeviation ld p u v (idBit old p) = true ↔ recordsAt devs ld old r p := by
  simp [recordsDeviation, recordsAt, h]

/-- A position whose two samples are equal ends as for 0, 0, since somebody answers (R203, R204). -/
theorem FullPass.idBit_of_equal (h : FullPass s t (turnsOf a b (List.finRange 64))) {p : Position}
    (hp : a p = b p) : idBit t.ctl.romId p = chosenBit s.ctl.lastDev p false false (idBit s.ctl.romId p) := by
  have hsome := h.someone_at (List.mem_finRange p)
  have hzero : a p = false ∧ b p = false := by
    cases ha : a p <;> simp_all
  rw [h.idBit_at (List.mem_finRange p), hzero.1, hzero.2]

/-- What a pass records is the highest position that records itself. -/
theorem FullPass.records (h : FullPass s t (turnsOf a b (List.finRange 64)))
    (heq : ∀ p, a p = b p ↔ disagreeAt devs t.ctl.romId p) :
    (t.ctl.lastDev = 0#8 ∧ ∀ p, ¬ recordsAt devs s.ctl.lastDev s.ctl.romId t.ctl.romId p) ∨
      ∃ p, t.ctl.lastDev = p.number ∧ recordsAt devs s.ctl.lastDev s.ctl.romId t.ctl.romId p ∧
        ∀ q, recordsAt devs s.ctl.lastDev s.ctl.romId t.ctl.romId q → q ≤ p := by
  have hsorted : ((turnsOf a b (List.finRange 64)).map Prod.fst).Pairwise (· < ·) := by
    rw [turnsOf_fst]
    exact List.pairwise_lt_finRange 64
  have hmem : ∀ p, (p, a p, b p) ∈ turnsOf a b (List.finRange 64) := fun p => mem_turnsOf (List.mem_finRange p)
  rcases recordedDev_last s.ctl.lastDev s.ctl.romId Config.devNone _ hsorted with
    ⟨hdev, hnone⟩ | ⟨x, hx, hdev, hrec, hmax⟩
  · exact .inl ⟨h.lastDev.trans hdev, fun p hp =>
      Bool.eq_false_iff.mp (hnone _ (hmem p)) ((recordsDeviation_iff (heq p)).mpr hp)⟩
  · obtain ⟨p, -, rfl⟩ := List.mem_map.mp hx
    exact .inr ⟨p, h.lastDev.trans hdev, (recordsDeviation_iff (heq p)).mp hrec, fun q hq =>
      hmax _ (hmem q) ((recordsDeviation_iff (heq q)).mpr hq)⟩

end

/-- With a device on the bus and all of them at the start of a ROM command, `SRCHROM` is such a pass. -/
theorem srchrom_bus {devs : List Device} {s : State} (hc : s.ctl.configured = true) (hs : s.farSide = .bus devs)
    (hne : devs ≠ []) (hdevs : ∀ d ∈ devs, d.st = .cmd 0 0x00#8) : ∃ t, BusPass devs s t := by
  obtain ⟨t, turns, hexec, hfull | habort⟩ := srchrom_spec hc
  · obtain ⟨a, b, h⟩ := hfull.exists_turnsOf
    obtain ⟨-, hfound, hrun, hturns⟩ := h.search_bus (tail := []) hs hne hdevs (.inl ⟨rfl, h.all⟩)
      (by rw [List.append_nil]; exact h.ran.answers)
    have heq : ∀ p, a p = b p ↔ disagreeAt devs t.ctl.romId p := fun p =>
      hturns (p, a p, b p) (mem_turnsOf (List.mem_finRange p))
    have hchosen := fun p hp => h.idBit_of_equal ((heq p).mpr hp)
    obtain ⟨hhighest, hdeviation⟩ := pass_records devs _ _ _ _ hfound hchosen (h.records heq)
    exact ⟨t, hexec, h.response, hfound, h.ran.env.trans hrun, hchosen, hhighest, hdeviation⟩
  · obtain ⟨htail, -⟩ := habort.search_bus hs hne hdevs (.inr ⟨rfl, habort.short⟩) habort.ran.answers
    simp at htail

/-- Settles O42: one device has no unexplored branch. -/
theorem searchOfASingleDevice : Obligations.SearchOfASingleDevice := by
  intro d s hc hs hd
  obtain ⟨t, hpass⟩ := srchrom_bus hc hs (by simp) (by simpa using hd)
  have hid : d.rom = t.ctl.romId := by simpa using hpass.found
  have hdev : t.ctl.lastDev = 0x00#8 := hpass.deviation.resolve_right <| by
    rintro ⟨p, -, hzero, hone⟩
    obtain ⟨e, he, -, hbit⟩ := hone
    rw [List.mem_singleton.mp he, hid, hzero] at hbit
    cases hbit
  refine ⟨t, hpass.exec, hid.symm, ?_, hdev⟩
  rw [hpass.response, hdev]
  rfl

/-! ## The enumeration of a bus (R209, R210) -/

theorem comesBefore_irrefl (x : RomId) : ¬ comesBefore x x := fun h => comesBefore_asymm h h

/-- The order of R210 as an order to sort by: the same identifier, or an earlier one. -/
def comesNoLater (x y : RomId) : Prop := x = y ∨ comesBefore x y

theorem comesNoLater_total : Std.Total comesNoLater where
  total x y := by
    by_cases h : x = y
    · exact .inl (.inl h)
    · exact (comesBefore_total h).imp .inr .inr

theorem comesNoLater_trans : IsTrans RomId comesNoLater where
  trans := by
    rintro x y z (rfl | hxy) (rfl | hyz)
    · exact .inl rfl
    · exact .inr hyz
    · exact .inr hxy
    · exact .inr (comesBefore_trans hxy hyz)

/-- Distinct identifiers can be listed in the order of R210. -/
theorem exists_sorted {ids : List RomId} (h : ids.Nodup) : ∃ l : List RomId, l.Perm ids ∧ l.Pairwise comesBefore := by
  classical
  have := comesNoLater_total
  have := comesNoLater_trans
  have hperm := List.perm_insertionSort comesNoLater ids
  exact ⟨_, hperm, List.Pairwise.imp₂ (fun _ _ hle hne => hle.resolve_left hne)
    (List.pairwise_insertionSort comesNoLater ids) (hperm.nodup_iff.mpr h)⟩

/-- An identifier of a list in ascending order that comes before, or is, the first one, is the first one. -/
theorem eq_head_of_sorted {x r : RomId} {rest : List RomId} (hsorted : (r :: rest).Pairwise comesBefore)
    (hmem : x ∈ r :: rest) (hle : r = x ∨ comesBefore x r) : x = r := by
  rcases List.mem_cons.mp hmem with hx | hx
  · exact hx
  · rcases hle with hle | hle
    · exact hle.symm
    · exact (comesBefore_asymm hle (List.rel_of_pairwise_cons hsorted hx)).elim

/-- What follows the first identifier of a list in ascending order is what comes after it. -/
theorem mem_tail_iff {x r : RomId} {rest : List RomId} (hsorted : (r :: rest).Pairwise comesBefore) :
    x ∈ rest ↔ x ∈ r :: rest ∧ comesBefore r x := by
  refine ⟨fun hx => ⟨List.mem_cons_of_mem _ hx, List.rel_of_pairwise_cons hsorted hx⟩, fun ⟨hx, hrx⟩ => ?_⟩
  exact (List.mem_cons.mp hx).resolve_left fun h => comesBefore_irrefl r (h ▸ hrx)

/-- A configured block whose devices a reset slot turns into `devs`. -/
def OnBus (devs : List Device) (s : State) : Prop :=
  s.ctl.configured = true ∧ ∃ now, s.farSide = .bus now ∧ now.map Device.reset = devs

/-- One pass of R209: `PRES`, then a pass of `SRCHROM` that finds a device of the bus. -/
theorem OnBus.round {devs : List Device} {s : State} (h : OnBus devs s) (hne : devs ≠ []) :
    ∃ u t, exec .pres s = .next u ∧ SameBlock s.ctl u.ctl ∧ BusPass devs u t ∧ OnBus devs t := by
  obtain ⟨hc, now, hs, rfl⟩ := h
  obtain ⟨u, hexec, hblock, hcu, hu⟩ := pres_bus hc hs
  obtain ⟨t, hpass⟩ := srchrom_bus hcu hu hne reset_st
  refine ⟨u, t, hexec, hblock, hpass, exec_bus_configured rfl hcu hpass.exec, _, hpass.farSide, ?_⟩
  simp [among, Device.reset]

/-- The passes from `s` on find the identifiers `r :: rest`: the first of them finds `r`, and `rest` are those of the bus
that come after `r`. -/
theorem enumerates_sorted {devs : List Device} {r : RomId} {rest : List RomId} {s : State} (hs : OnBus devs s)
    (hne : devs ≠ []) (hfirst : ∀ u t, SameBlock s.ctl u.ctl → BusPass devs u t → t.ctl.romId = r)
    (hsorted : (r :: rest).Pairwise comesBefore)
    (hrest : ∀ x, x ∈ rest ↔ (∃ d ∈ devs, d.rom = x) ∧ comesBefore r x) : ∃ t, Enumerates s (r :: rest) t := by
  induction rest generalizing r s with
  | nil =>
    obtain ⟨u, t, hpres, hblock, hpass, -⟩ := hs.round hne
    obtain rfl := hfirst u t hblock hpass
    have hdev : t.ctl.lastDev = 0x00#8 := hpass.deviation.resolve_right <| by
      rintro ⟨p, -, hzero, d, hd, hbelow, hone⟩
      exact List.not_mem_nil ((hrest d.rom).mpr ⟨⟨d, hd, rfl⟩, p, fun q hq => (hbelow q hq).symm, hzero, hone⟩)
    exact ⟨t, .last hpres hpass.exec (by rw [hpass.response, hdev]; rfl)⟩
  | cons next rest ih =>
    obtain ⟨u, t, hpres, hblock, hpass, ht⟩ := hs.round hne
    obtain rfl := hfirst u t hblock hpass
    obtain ⟨hnext, hafter⟩ := (hrest next).mp (by simp)
    obtain ⟨l, hdev, hopen⟩ : ∃ p, t.ctl.lastDev = p.number ∧ openAt devs t.ctl.romId p :=
      hpass.deviation.resolve_left fun hdev =>
        none_after (fun q hq => absurd (hdev ▸ hpass.highest q hq) (by simp [BitVec.le_def])) hnext hafter
    have hsorted' := (List.pairwise_cons.mp hsorted).2
    have hfinds : ∀ u' t', SameBlock t.ctl u'.ctl → BusPass devs u' t' → t'.ctl.romId = next := by
      intro u' t' hblock' hpass'
      have hchosen := hpass'.chosen
      rw [hblock'.romId, hblock'.lastDev, hdev] at hchosen
      obtain ⟨hlater, hleast⟩ :=
        next_pass_finds devs l _ _ hpass.found hpass'.found hopen (hdev ▸ hpass.highest) hchosen
      exact eq_head_of_sorted hsorted' ((hrest _).mpr ⟨hpass'.found, hlater⟩) (hleast next hnext hafter)
    have hrest' : ∀ x, x ∈ rest ↔ (∃ d ∈ devs, d.rom = x) ∧ comesBefore next x := fun x => by
      rw [mem_tail_iff hsorted', hrest]
      exact ⟨fun ⟨⟨hx, _⟩, hnx⟩ => ⟨hx, hnx⟩, fun ⟨hx, hnx⟩ => ⟨⟨hx, comesBefore_trans hafter hnx⟩, hnx⟩⟩
    obtain ⟨v, hv⟩ := ih ht hfinds hsorted' hrest'
    exact ⟨v, .more hpres hpass.exec (by rw [hpass.response, hdev]) hv⟩

/-- Settles O43: the passes walk through the identifiers in sorted order (`enumerates_sorted`), and on an empty bus nobody
answers. -/
theorem enumerationFindsEveryDevice : Obligations.EnumerationFindsEveryDevice := by
  intro devs s hc hs hnodup hdev
  refine ⟨fun hne => ?devices, fun hempty => ?none⟩
  case devices =>
    obtain ⟨ids, hperm, hsorted⟩ := exists_sorted hnodup
    have hroms : (devs.map Device.reset).map Device.rom = devs.map Device.rom := by simp [Device.reset]
    have hmem : ∀ x, x ∈ ids ↔ ∃ d ∈ devs.map Device.reset, d.rom = x := fun x => by
      rw [hperm.mem_iff, ← hroms, List.mem_map]
    cases ids with
    | nil => exact absurd hperm.symm.eq_nil (by simpa using hne)
    | cons r rest =>
      have hfirst : ∀ u t, SameBlock s.ctl u.ctl → BusPass (devs.map Device.reset) u t → t.ctl.romId = r := by
        intro u t hblock hpass
        have hchosen := hpass.chosen
        rw [hblock.lastDev, hdev] at hchosen
        refine eq_head_of_sorted hsorted ((hmem _).mpr hpass.found) (or_iff_not_imp_left.mpr fun hr => ?_)
        exact first_pass_finds _ _ _ hpass.found hchosen r ((hmem r).mp (by simp)) hr
      have hrest : ∀ x, x ∈ rest ↔ (∃ d ∈ devs.map Device.reset, d.rom = x) ∧ comesBefore r x := fun x => by
        rw [mem_tail_iff hsorted, hmem]
      obtain ⟨t, ht⟩ := enumerates_sorted ⟨hc, devs, hs, rfl⟩ (by simpa using hne) hfirst hsorted hrest
      exact ⟨_, t, ht, hperm, hsorted⟩
  case none =>
    subst hempty
    obtain ⟨u, hexec, -, hcu, hu⟩ := pres_bus hc hs
    obtain ⟨t, hexec', hrw, -⟩ := searchOfAnEmptyBus u hcu (.inl hu)
    exact ⟨u, t, hexec, hexec', hrw⟩

end Sys2Proof.Machine
end

section
/-! PROOFS. The statements on exceptions (60_exceptions.md): the refusal of the bus commands (rule R232), the bound of a
command (R237), the host's writes and windows (R241, R242, R278) and the other controllers (R253). -/

namespace Sys2Proof.Machine

/-! ## Refusal of the bus commands (R232) -/

/-- Settles O18: a bus command is a body under `busCommand`, which refuses while `CONFIGURED = 0`. -/
theorem busCommandsNeedConfig : Obligations.BusCommandsNeedConfig := by
  intro i s hi hc
  obtain ⟨body, hexec, -⟩ := exec_bus i hi
  rw [hexec, busCommand_refused hc]
  rfl

/-! ## The bound of a command (R237) -/

theorem slotCount_of_same_trace {s t : State} (h : t.ctl.trace = s.ctl.trace) :
    slotCount (t.ctl.trace.drop s.ctl.trace.length) = 0 := by
  rw [h, List.drop_length]
  rfl

/-- A bus command is refused, or runs at most 200 slots. -/
theorem exec_bus_slotCount_le {i : Instr} {s t : State} (hi : i.isBusCommand = true) (h : exec i s = .next t) :
    slotCount (t.ctl.trace.drop s.ctl.trace.length) ≤ 200 := by
  obtain ⟨body, hexec, hbody⟩ := exec_bus i hi
  obtain ⟨-, sls, hne, hlen, hsls⟩ := hbody (accept i s)
  cases (hexec s).symm.trans h
  cases hc : s.ctl.configured with
  | true => rwa [(busCommand_spec hc hsls hne).1.slotCount]
  | false =>
    rw [busCommand_refused hc, slotCount_of_same_trace (s := s) (t := refuse .notConfigured s) rfl]
    exact Nat.zero_le _

/-- `CONFIG` has no masked section (R145). -/
theorem config_slotCount (ddr port pin : Ref) (idx : PinIndex) (s : State) :
    slotCount ((complete (.config ddr port pin idx) (configBody ddr port pin idx) s).ctl.trace.drop
      s.ctl.trace.length) = 0 := by
  rw [drop_of_trace_append (congrArg Controller.trace (config_spec ddr port pin idx s).1)]
  rfl

/-- Settles O47: `exec_bus` bounds the slots of a bus command, and the other three commands have none. -/
theorem atMostTwoHundredSlots : Obligations.AtMostTwoHundredSlots := by
  intro i s t h
  cases i with
  | wbit | rbit | pres | sendb | recvb | rdrom | matchrom | srchrom => exact exec_bus_slotCount_le rfl h
  | config ddr port pin idx =>
    cases h
    rw [config_slotCount]
    exact Nat.zero_le _
  | rdreg reg =>
    obtain ⟨_, h', hruns⟩ := rdreg_runs reg s
    cases h'.symm.trans h
    rw [slotCount_of_same_trace hruns.trace]
    exact Nat.zero_le _
  | wrreg reg val =>
    obtain ⟨_, h', hruns⟩ := wrreg_runs reg val s
    cases h'.symm.trans h
    rw [slotCount_of_same_trace hruns.trace]
    exact Nat.zero_le _

/-! ## The host's writes (R241, R242, R278) -/

theorem boundMask_bit_iff {c : Controller} {r : Ref} {k : Nat} :
    (c.boundMask r).getLsbD k = true ↔ c.bound = true ∧ c.binds r.toNat k := by
  simp only [Controller.boundMask, Controller.binds, BitVec.toNat_inj, Bool.and_eq_true, Bool.or_eq_true, beq_iff_eq]
  split
  · rename_i h
    simp [mask_bit, h]
  · rename_i h
    simpa using fun hb hr => absurd ⟨hb, hr⟩ h

/-- The bits that the host leaves alone are the bound ones. -/
theorem hostKeeps_bit_iff {r : Ref} {s : State} {k : Nat} :
    (hostKeeps r s).getLsbD k = true ↔ ∃ c ∈ s.ctl :: s.parked, c.bound = true ∧ c.binds r.toNat k := by
  rw [hostKeeps_bit, List.any_eq_true]
  simp only [boundMask_bit_iff]

theorem hostWrite_bound_bit {s : State} {c : Controller} (hc : c ∈ s.ctl :: s.parked) (hb : c.bound = true) {a k : Nat}
    (hk : c.binds a k) (w : IoWrite) : ((hostWrite w s).io.read a).getLsbD k = (s.io.read a).getLsbD k := by
  rw [hostWrite_read, if_neg]
  rintro ⟨rfl, hfree⟩
  exact Bool.false_ne_true (hfree.symm.trans (hostKeeps_bit_iff.mpr ⟨c, hc, hb, hk⟩))

theorem hostWrite_free_bit {w : IoWrite} {s : State} {k : Nat} (h : (hostKeeps w.ref s).getLsbD k = false) :
    (memRead w.ref (hostWrite w s)).getLsbD k = w.value.getLsbD k :=
  (hostWrite_read s w _ k).trans (if_pos ⟨rfl, h⟩)

theorem hostWrite_other_register {w : IoWrite} {r : Ref} (h : r ≠ w.ref) (s : State) :
    memRead r (hostWrite w s) = memRead r s :=
  (Memory.read_write _ _ _ _).trans (if_neg (mt BitVec.eq_of_toNat_eq h))

/-- Settles O51: `hostWrite_read` with `hostKeeps_bit_iff`, which says that the kept bits are the bound ones. -/
theorem hostWritesLeaveBoundBits : Obligations.HostWritesLeaveBoundBits := by
  intro w s
  refine ⟨fun c hc hconf => ?bound, fun r hr => hostWrite_other_register hr s, fun k _ => hostWrite_free_bit,
    fun k => hostKeeps_bit_iff, fun hnone => ?unbound⟩
  case bound =>
    have hb : c.bound = true := by simp [Controller.bound, hconf]
    exact ⟨hostWrite_bound_bit hc hb ⟨.inl rfl, rfl⟩ w, hostWrite_bound_bit hc hb ⟨.inr rfl, rfl⟩ w⟩
  case unbound =>
    refine byte_ext fun k => hostWrite_free_bit (Bool.eq_false_iff.mpr fun hkeep => ?_)
    obtain ⟨c, hc, hb, hr, -⟩ := hostKeeps_bit_iff.mp hkeep
    rcases hnone c hc with hfree | ⟨hddr, hport⟩
    · exact Bool.false_ne_true (hfree.symm.trans hb)
    · exact hr.elim (fun h => hddr (BitVec.eq_of_toNat_eq h).symm) (fun h => hport (BitVec.eq_of_toNat_eq h).symm)

/-! ## The interference windows (R241) -/

theorem window_of_handler {s : State} {ws : List IoWrite} {rest : List (List IoWrite)} (hg : s.gie = true)
    (hh : s.handlers = ws :: rest) : window s = runHandler ws { s with handlers := rest } := by
  simp [window, hg, hh]

/-- A handler leaves a bound bit as it was. -/
theorem runHandler_kept_bit (ws : List IoWrite) {s : State} {r : Ref} {k : PinIndex}
    (h : testBit (hostKeeps r s) k = true) : testBit (memRead r (runHandler ws s)) k = testBit (memRead r s) k := by
  refine (runHandler_read ws s r.toNat k.toNat).resolve_right ?_
  rintro ⟨w, -, hr, hfree, -⟩
  rw [← BitVec.eq_of_toNat_eq hr] at hfree
  exact Bool.false_ne_true (hfree.symm.trans h)

/-- Settles O57: the window is the handler's run, whose kept bits stay and whose other bits follow its writes. -/
theorem windowRunsTheNextHandler : Obligations.WindowRunsTheNextHandler := by
  refine fun s => ⟨window_masked s, fun ws rest hg hh => ?_⟩
  rw [window_of_handler hg hh]
  have hio := runHandler_io_only { s with handlers := rest } ws
  refine ⟨by rw [hio], hio, fun r k => ?_⟩
  split
  · rename_i hkeep
    exact runHandler_kept_bit (s := { s with handlers := rest }) ws hkeep
  · rename_i hfree
    exact runHandler_bit ws { s with handlers := rest } r k (Bool.eq_false_iff.mpr hfree)

/-! ## The other controllers (R253) -/

/-- A bit bound to another configured controller, and not to the running one, stays as it was. -/
theorem IoStep.keeps_other_bit {s t : State} (h : IoStep s t) {c : Controller} (hc : c ∈ s.parked)
    (hconf : c.configured = true) {a k : Nat} (hk : c.binds a k) (hrun : ¬ s.ctl.binds a k) :
    (t.io.read a).getLsbD k = (s.io.read a).getLsbD k := by
  rcases h.io a k with hsame | ⟨hbinds, -⟩ | hwrites
  · exact hsame
  · exact absurd hbinds hrun
  · exact absurd hwrites
      (HandlerWrites.not_bound (List.mem_cons_of_mem _ hc) (by simp [Controller.bound, hconf]) hk _)

theorem CommandRuns.keeps_other_bit {i : Instr} {s t : State} (h : CommandRuns i s t) {c : Controller}
    (hc : c ∈ s.parked) (hconf : c.configured = true) {a k : Nat} (hk : c.binds a k) (hrun : ¬ t.ctl.binds a k) :
    (t.io.read a).getLsbD k = (s.io.read a).getLsbD k := by
  cases h with
  | refused => rfl
  | slots _ h => exact h.keeps_other_bit hc hconf hk (mt (Controller.binds_congr h.binding a k).mpr hrun)
  | @config ddr port pin idx hi =>
    subst hi
    obtain ⟨hctl, -, -, -, u, hu, -, hstep, -⟩ := config_spec ddr port pin idx s
    rw [hctl] at hrun
    rw [hu]
    exact hstep.keeps_other_bit hc hconf hk hrun
  | registers h =>
    obtain ⟨id, dev, hbody⟩ := h (accept i s)
    rw [complete, hbody]
    rfl

/-- A command leaves alone the line of every other pin none of whose bits it moves. -/
theorem CommandRuns.keeps_other_line {i : Instr} {s t : State} (h : CommandRuns i s t) {p : Pin} (hp : p ≠ t.ctl.pin)
    (ht : t.ctl.pin.touches p = false) : linesAt p t.lines = linesAt p s.lines := by
  cases h with
  | refused => rfl
  | slots _ h =>
    have hpin := Controller.pin_congr h.binding
    exact h.lines p (fun heq => hp (heq.trans hpin.symm)) (hpin ▸ ht)
  | @config ddr port pin idx hi =>
    subst hi
    obtain ⟨-, -, -, hlines, -⟩ := config_spec ddr port pin idx s
    rw [hlines]
  | registers h =>
    obtain ⟨id, dev, hbody⟩ := h (accept i s)
    rw [complete, hbody]
    rfl

/-- Settles O52: of the bits and lines of the others, however the command goes, only those of the running controller's own
binding move. -/
theorem commandsLeaveOtherControllers : Obligations.CommandsLeaveOtherControllers := by
  intro i s t h
  have hruns := CommandRuns.of_exec h
  exact ⟨hruns.sameHost.parked, fun _ hc hconf _ _ => hruns.keeps_other_bit hc hconf, fun _ => hruns.keeps_other_line⟩

end Sys2Proof.Machine
end
